-- ==== Sys2Proof/Word.lean ====
section
/-! DEFINITION. The word type of the block: every datum it moves is one unsigned byte (R8, R10). -/

namespace Sys2Proof

/-- `BYTE` (R8): every data value, opcode, immediate, memory cell, stack element, syscall selector and
exit code is 8 bits, unsigned. -/
abbrev Byte := BitVec 8

end Sys2Proof
end

