-- ==== Sys2Proof/Config.lean ====
section
/-! DEFINITION. The open parameters of the block (R9), the answers its host gives, and the free values. The
parameters are plain data that State carries, so that a statement about every state holds for each of
their values (log entry 3). Their defaults stand in Decode.lean. -/

namespace Sys2Proof

/-- The operations of the opcode ROM, in the order of R82, which is the order of their `op_id` (R83). -/
inductive Op where
  | syscall | push | pop | dup | swap
  | add | sub | mul | div | mod | addi | subi | muli | divi | modi
  | eq | neq | lt | le | gt | ge
  | jz | jmz
  | store | load | storei | loadi
  | call | ret | fin
deriving DecidableEq, Repr

/-- R9, R171: what Mod and ModI do with a zero divisor. `result` pushes `f(a)`, with `f` the free function
`Config.modZeroResult`. -/
inductive ModZeroPolicy where
  | fault | result
deriving DecidableEq, Repr

/-- R9, R233: which `pc` a fault reports, the opcode's address or the value at the raise. -/
inductive FaultPcMode where
  | opcode | current
deriving DecidableEq, Repr

/-- R99: what the assembler does with a label defined twice. Toolchain only. -/
inductive DupLabelPolicy where
  | lastWins | reject
deriving DecidableEq, Repr

/-- The open parameters of the block. `CODE_LEN` is the length of the loaded stream and `PC_BITS` is
unbounded (log entry 1), so neither is a field. -/
structure Config where
  /-- `ARITH_CODES`: the operation at byte `0x10 + k` is entry `k` (R81). -/
  arithCodes : List Op
  /-- `CMP_CODES`: the operation at byte `0x1A + k` is entry `k` (R81). -/
  cmpCodes : List Op
  /-- `MOD_ZERO_POLICY` (R171). -/
  modZero : ModZeroPolicy
  /-- `FAULT_PC_MODE` (R233). -/
  faultPcMode : FaultPcMode
deriving DecidableEq, Repr

/-- The ten operations of the arithmetic family, in the listing order of R81. -/
def Op.arithOps : List Op := [.add, .sub, .mul, .div, .mod, .addi, .subi, .muli, .divi, .modi]

/-- The six comparisons, in the listing order of R81. -/
def Op.cmpOps : List Op := [.eq, .neq, .lt, .le, .gt, .ge]

/-- The answers of one input transaction `In()` (R11, R143). -/
inductive InAnswer where
  | byte (b : Byte) | eof | ioError
deriving DecidableEq, Repr

/-- The answers of one output or diagnostic transaction (R11, R144, R145). -/
inductive PortAnswer where
  | ok | ioError
deriving DecidableEq, Repr, Inhabited

/-- The free function `f` of `MOD_ZERO_POLICY` = `result(f)` (R171): nothing says which byte it gives (log
entry 4). -/
opaque Config.modZeroResult : Byte → Byte

/-- The uppercase of a character that is no ASCII character: a free value (log entry 28). Toolchain only. -/
opaque Config.upperOther : Char → List Char

/-- The host's answer to the output transaction that is number `n` of the run, where State lists none: a
free value (R144, D17, log entry 8). -/
opaque Config.freeOutAnswer : Nat → PortAnswer

/-- The host's answer to the dump transaction that is number `n` of the run, where State lists none: a
free value (R145, D18, log entry 8). -/
opaque Config.freeDumpAnswer : Nat → PortAnswer

end Sys2Proof
end

