-- ==== Sys2Proof/Syntax.lean ====
section
/-! DEFINITION. The instructions: one constructor for each row of spec/opcode_table.json. -/

namespace Sys2Proof

/-- An instruction. The operand of an `OP_IMM` instruction (R70, R73) is what `imm()` will answer: `some b`
for the immediate byte `b`, and `none` where the opcode is the last byte of the stream, so that the
immediate is absent (R75, log entry 14). -/
inductive Instr where
  | syscall
  | push (imm : Option Byte)
  | pop
  | dup
  | swap
  | add
  | sub
  | mul
  | div
  | mod
  | addi (imm : Option Byte)
  | subi (imm : Option Byte)
  | muli (imm : Option Byte)
  | divi (imm : Option Byte)
  | modi (imm : Option Byte)
  | eq
  | neq
  | lt
  | le
  | gt
  | ge
  | jz (target : Option Byte)
  | jmz (target : Option Byte)
  | store
  | load
  | storei (addr : Option Byte)
  | loadi (addr : Option Byte)
  | call (target : Option Byte)
  | ret
  | fin
deriving DecidableEq, Repr

end Sys2Proof
end

