-- ==== Sys2Proof/WellFormed.lean ====
section
/-! DEFINITION. What a well-formed instruction and a well-formed parameter record are. -/

namespace Sys2Proof

/-- A whole instruction carries the immediate byte its format asks for (R70, R71). The form without it is the
one R75 describes, the opcode that ends the stream. -/
def Instr.wf : Instr → Bool
  | .syscall => true
  | .push v => v.isSome
  | .pop => true
  | .dup => true
  | .swap => true
  | .add => true
  | .sub => true
  | .mul => true
  | .div => true
  | .mod => true
  | .addi v => v.isSome
  | .subi v => v.isSome
  | .muli v => v.isSome
  | .divi v => v.isSome
  | .modi v => v.isSome
  | .eq => true
  | .neq => true
  | .lt => true
  | .le => true
  | .gt => true
  | .ge => true
  | .jz v => v.isSome
  | .jmz v => v.isSome
  | .store => true
  | .load => true
  | .storei v => v.isSome
  | .loadi v => v.isSome
  | .call v => v.isSome
  | .ret => true
  | .fin => true

/-- R81: "0x10 to 0x19 hold exactly the ten arithmetic operations and 0x1A to 0x1F exactly the six
comparisons", each once. -/
def Config.wf (c : Config) : Bool := c.arithCodes.isPerm Op.arithOps && c.cmpCodes.isPerm Op.cmpOps

end Sys2Proof
end

