-- ==== Sys2Proof/Decode.lean ====
section
/-! DEFINITION. The opcode ROM (R82, R83), the decoder, total on any bytes (R72, R122), and the encoder (R70,
R81, R82). -/

namespace Sys2Proof

/-! ## Operations and instructions -/

/-- R71: the eleven operations of format `OP_IMM`; the nineteen others have format `OP`. -/
def Op.isImm : Op → Bool
  | .push | .addi | .subi | .muli | .divi | .modi | .jz | .jmz | .storei | .loadi | .call => true
  | .syscall | .pop | .dup | .swap | .add | .sub | .mul | .div | .mod | .eq | .neq | .lt | .le | .gt | .ge
  | .store | .load | .ret | .fin => false

/-- The operation an instruction performs. -/
def Instr.op : Instr → Op
  | .syscall => .syscall
  | .push _ => .push
  | .pop => .pop
  | .dup => .dup
  | .swap => .swap
  | .add => .add
  | .sub => .sub
  | .mul => .mul
  | .div => .div
  | .mod => .mod
  | .addi _ => .addi
  | .subi _ => .subi
  | .muli _ => .muli
  | .divi _ => .divi
  | .modi _ => .modi
  | .eq => .eq
  | .neq => .neq
  | .lt => .lt
  | .le => .le
  | .gt => .gt
  | .ge => .ge
  | .jz _ => .jz
  | .jmz _ => .jmz
  | .store => .store
  | .load => .load
  | .storei _ => .storei
  | .loadi _ => .loadi
  | .call _ => .call
  | .ret => .ret
  | .fin => .fin

/-- The immediate byte an instruction carries, if it carries one. -/
def Instr.immediate : Instr → Option Byte
  | .push v => v
  | .addi v => v
  | .subi v => v
  | .muli v => v
  | .divi v => v
  | .modi v => v
  | .jz v => v
  | .jmz v => v
  | .storei v => v
  | .loadi v => v
  | .call v => v
  | .syscall => none
  | .pop => none
  | .dup => none
  | .swap => none
  | .add => none
  | .sub => none
  | .mul => none
  | .div => none
  | .mod => none
  | .eq => none
  | .neq => none
  | .lt => none
  | .le => none
  | .gt => none
  | .ge => none
  | .store => none
  | .load => none
  | .ret => none
  | .fin => none

/-- The instruction of an operation and the immediate that follows it; an `OP` operation has none. -/
def Op.instr (imm : Option Byte) : Op → Instr
  | .syscall => .syscall
  | .push => .push imm
  | .pop => .pop
  | .dup => .dup
  | .swap => .swap
  | .add => .add
  | .sub => .sub
  | .mul => .mul
  | .div => .div
  | .mod => .mod
  | .addi => .addi imm
  | .subi => .subi imm
  | .muli => .muli imm
  | .divi => .divi imm
  | .modi => .modi imm
  | .eq => .eq
  | .neq => .neq
  | .lt => .lt
  | .le => .le
  | .gt => .gt
  | .ge => .ge
  | .jz => .jz imm
  | .jmz => .jmz imm
  | .store => .store
  | .load => .load
  | .storei => .storei imm
  | .loadi => .loadi imm
  | .call => .call imm
  | .ret => .ret
  | .fin => .fin

/-! ## The parameters' defaults -/

/-- The default parameters of R81, R171 and R233 (D1, D2, D3, D6): UNVERIFIED against the repository, as
91_not_in_source.md says; unsafe for claims about encoded bytes (log entry 15). -/
def Config.default : Config :=
  { arithCodes := [.add, .sub, .mul, .div, .mod, .addi, .subi, .muli, .divi, .modi]
    cmpCodes := [.eq, .neq, .lt, .le, .gt, .ge]
    modZero := .fault
    faultPcMode := .opcode }

/-! ## The opcode ROM -/

/-- The operations in `op_id` order (R82). -/
def Op.all : List Op :=
  [.syscall, .push, .pop, .dup, .swap] ++ Op.arithOps ++ Op.cmpOps ++
  [.jz, .jmz, .store, .load, .storei, .loadi, .call, .ret, .fin]

/-- R83: `op_id`, "the operation's index in rule R82's order". -/
def Op.id (o : Op) : Nat := Op.all.idxOf o

/-- R83: the operation of an `op_id`. -/
def Op.ofId (n : Nat) : Option Op := Op.all[n]?

/-- The opcode bytes R80 fixes outside the two families. -/
def fixedCodes : List (Byte × Op) :=
  [(0x00, .syscall), (0x01, .push), (0x02, .pop), (0x03, .dup), (0x04, .swap),
   (0x20, .jz), (0x21, .jmz),
   (0x30, .store), (0x31, .load), (0x32, .storei), (0x33, .loadi),
   (0x40, .call), (0x41, .ret), (0xFF, .fin)]

/-- The partial map from bytes to operations (R80, R81): 0x10 to 0x19 by `ARITH_CODES`, 0x1A to 0x1F by
`CMP_CODES`, the rest fixed. -/
def opAt (c : Config) (b : Byte) : Option Op :=
  if 0x10 ≤ b.toNat ∧ b.toNat ≤ 0x19 then c.arithCodes[b.toNat - 0x10]?
  else if 0x1A ≤ b.toNat ∧ b.toNat ≤ 0x1F then c.cmpCodes[b.toNat - 0x1A]?
  else (fixedCodes.find? fun e => e.1 == b).map fun e => e.2

/-- R83: a ROM entry word: bit 7 `valid`, bit 6 `has_imm`, bit 5 zero, bits 4:0 `op_id`; INVALID is 0. -/
def romWord : Option Op → Byte
  | none => 0x00
  | some o => 0x80 ||| (if o.isImm then 0x40 else 0x00) ||| BitVec.ofNat 8 o.id

/-- R82: the opcode ROM, 256 entry words. -/
def rom (c : Config) (b : Byte) : Byte := romWord (opAt c b)

/-- R83: bit 7 of a ROM entry. -/
def romValid (w : Byte) : Bool := w.getLsbD 7

/-- R83: bit 6 of a ROM entry. -/
def romHasImm (w : Byte) : Bool := w.getLsbD 6

/-- R83: bits 4:0 of a ROM entry. -/
def romOpId (w : Byte) : Nat := (w.extractLsb' 0 5).toNat

/-! ## The decoder -/

/-- Why bytes are no instruction. -/
inductive DecodeError where
  /-- There is no byte to read as an opcode. -/
  | noByte
  /-- R84: the byte has no operation. -/
  | invalidOpcode (b : Byte)
deriving DecidableEq, Repr

/-- R72, R122: read the opcode byte, look it up in the ROM, take the length from `has_imm`. The answer is the
instruction and the bytes after it; an `OP_IMM` opcode that is the last byte gives the instruction
without its immediate (R75). -/
def decode (c : Config) : List Byte → Except DecodeError (Instr × List Byte)
  | [] => .error .noByte
  | b :: rest =>
    let e := rom c b
    match romValid e, Op.ofId (romOpId e) with
    | true, some o =>
      if romHasImm e then .ok (o.instr rest.head?, rest.tail) else .ok (o.instr none, rest)
    | _, _ => .error (.invalidOpcode b)

/-- How many bytes the longest instruction has (R70). -/
def maxLength : Nat := 2

/-- The bytes of an instruction whose bits are `w`, byte 0 the least significant (byte k of the instruction is
bits 8k+7 to 8k), the bits from `nbits` on being 0. -/
def tableBytes (nbits w : Nat) : List Byte :=
  let v := w % 2 ^ nbits
  (List.range maxLength).map fun k => BitVec.ofNat 8 (v / 2 ^ (8 * k))

/-- The instruction this decoder reads from the bytes of an opcode-table word, under the default
parameters, which are those of spec/opcode_table.json (R82). -/
def decodeTableWord (nbits w : Nat) : Option Instr :=
  match decode Config.default (tableBytes nbits w) with
  | .ok (i, _) => some i
  | .error _ => none

/-! ## The encoder -/

/-- The opcode byte of an operation (R80, R81). -/
def opcodeOf (c : Config) : Op → Byte
  | .syscall => 0x00
  | .push => 0x01
  | .pop => 0x02
  | .dup => 0x03
  | .swap => 0x04
  | .jz => 0x20
  | .jmz => 0x21
  | .store => 0x30
  | .load => 0x31
  | .storei => 0x32
  | .loadi => 0x33
  | .call => 0x40
  | .ret => 0x41
  | .fin => 0xFF
  | o =>
    if o ∈ Op.arithOps then BitVec.ofNat 8 (0x10 + c.arithCodes.idxOf o)
    else BitVec.ofNat 8 (0x1A + c.cmpCodes.idxOf o)

/-- R70: the opcode byte, then the immediate byte if there is one. -/
def encode (c : Config) (i : Instr) : List Byte := opcodeOf c i.op :: i.immediate.toList

end Sys2Proof
end

