-- ==== Sys2Proof/Machine/State.lean ====
section
/-! DEFINITION. The architectural state (R20 to R39), the reasons a step stops, and the state after reset. -/

namespace Sys2Proof.Machine

/-- The data memory `M` (R28): the written cells as (address, byte) pairs, addresses strictly rising. An
address that is not listed is EMPTY, which is what every cell is at reset (R39). -/
abbrev Memory := List Host.Cell

/-- The ten fault kinds of R230, in the order of their codes. -/
inductive FaultKind where
  | stackOverflow | stackUnderflow | callStackOverflow | callStackUnderflow | divisionByZero
  | invalidOpcode | uninitializedMemory | unexpectedSyscall | streamExhausted | syscallIo
deriving DecidableEq, Repr

/-- A record of the fault register (R31): `kind`, the offending byte where the kind carries one, and the `pc`
reported with the fault. -/
structure FaultRecord where
  kind : FaultKind
  info : Option Byte
  pc : Nat
deriving DecidableEq, Repr

/-- A port transaction that was performed, with the host's answer (R143, R144, R145). The snapshot of a dump is
the operand stack from bottom to top and the data memory. -/
inductive PortEvent where
  | input (answer : InAnswer)
  | output (b : Byte) (answer : PortAnswer)
  | dump (stack : List Byte) (mem : Memory) (answer : PortAnswer)
deriving DecidableEq, Repr

/-- The state of the block. The first seven fields after the latches are the tuple of R20; the rest is the
hidden state of R36, the read-only configuration of R34 and R9, and the ports of R263. -/
structure State where
  /-- R23: the byte address of the next instruction, an unbounded natural number (log entry 1). -/
  pc : Nat
  /-- R36(c), R121: the address of the current opcode, latched at fetch (log entry 12). -/
  ipc : Nat
  /-- R36(b): set by `pc <- t`, consumed by the advance (R124). -/
  redirect : Bool
  /-- R25: the operand stack `S`; the FIRST entry of the list is the top (log entry 2). -/
  stack : List Byte
  /-- R27: the call stack `C`; the FIRST entry of the list is the top (log entry 2). -/
  calls : List Nat
  /-- R28: the data memory `M`. -/
  mem : Memory
  /-- R29: the halted flag. -/
  halted : Bool
  /-- R30: the exit code. -/
  exitCode : Byte
  /-- R31: the fault register; `none` is NONE. -/
  fault : Option FaultRecord
  /-- R36(d): whether an input transaction is outstanding. -/
  waiting : Bool
  /-- R34: the instruction stream, offsets 0 to CODE_LEN − 1. -/
  code : List Byte
  /-- R9: the open parameters. -/
  cfg : Config
  /-- R143, R263: the input port: the host's pending answers to `In()`, the next one first. -/
  inputs : List InAnswer
  /-- R144, R263: the output port: the host's stated answers to `Out(b)`, the next one first. -/
  outAnswers : List PortAnswer
  /-- R145, R263: the diagnostic sink: the host's stated answers to `Dump(S, M)`, the next one first. -/
  dumpAnswers : List PortAnswer
  /-- The model's own record of the port transactions performed, oldest first (R61, log entry 9). -/
  trace : List PortEvent
deriving DecidableEq, Repr

/-- Why `step` stops. Only `step` raises these, where R120 enables no step: the run has ended (R129), or the block
waits for the host (R37). The first two carry what the result interface answers (R38, R128). All are safe: the
hardware takes no step either.
The ten faults of R230 are no stops: an instruction that raises one has a next state, with the fault
register written (R236). -/
inductive Fault where
  /-- The run ended with DONE(`exitCode`): `halted` is 1 or `pc` is at or beyond CODE_LEN (R37). Raised by
  `step`; safe. -/
  | runDone (exitCode : Byte)
  /-- The run ended with FAULTED(`record`): the fault register is not NONE (R37). Raised by `step`; safe. -/
  | runFaulted (record : FaultRecord)
  /-- The run status is WAITING (R37): the input transaction of a SYSCALL is outstanding, and no step is enabled
  until the host answers it (R120, R143; 93_implementation_defined.md calls it `stuck`). What goes on is the
  host's answer, `State.deliverInput`. Raised by `step`; safe. -/
  | runWaits
deriving DecidableEq, Repr

/-- Why an instruction has no meaning in the model. -/
inductive Refusal where
  /-- No meaning has been given to the instruction yet. Raised by `exec`'s arms only; safe. Every instruction
  has its meaning, so nothing raises it. -/
  | notModelled (mnemonic : String)
deriving DecidableEq, Repr

/-- R39, R262: the state after the load of an image that is the magic header alone, CODE_LEN being 0: the
machine as reset leaves it, before a program is loaded into it (log entry 10). The parameters have the
spec's defaults (log entry 3); the latches and the ports have the values log entry 11 names. -/
def State.reset : State :=
  { pc := 0, ipc := 0, redirect := false, stack := [], calls := [], mem := [], halted := false,
    exitCode := 0, fault := none, waiting := false, code := [], cfg := Config.default,
    inputs := [], outAnswers := [], dumpAnswers := [], trace := [] }

end Sys2Proof.Machine
end

