-- ==== Sys2Proof/Machine/Ops.lean ====
section
/-! DEFINITION. The named operations over memory and state: memory access, the parts of the cycle (R121 to R125),
raising a fault (R236), the port transactions (R143 to R145), the run status and the result (R37, R38). -/

namespace Sys2Proof.Machine

/-! ## Fixed parameters (R8) -/

/-- `STACK_MAX` (R8, R25). -/
abbrev stackMax : Nat := 256

/-- `CALL_MAX` (R8, R27). -/
abbrev callMax : Nat := 256

/-- `MEM_CELLS` (R8, R28). -/
abbrev memCells : Nat := 256

/-! ## Data memory (R28, R60) -/

/-- The content of a cell: `none` is EMPTY, which is what an address that is not listed reads as. -/
def Memory.read : Memory → Nat → Option Byte
  | [], _ => none
  | (k, w) :: m, a => if k = a then some w else Memory.read m a

/-- `M[a] <- v` (R11 `MemWrite`): the list stays in its canonical form. -/
def Memory.write : Memory → Nat → Byte → Memory
  | [], a, v => [(a, v)]
  | (k, w) :: m, a, v =>
    if a < k then (a, v) :: (k, w) :: m
    else if a = k then (a, v) :: m
    else (k, w) :: Memory.write m a v

/-- The canonical form: addresses strictly rising, each below `MEM_CELLS`. A listed cell is never EMPTY, so no
entry equals what an unlisted address reads as. -/
abbrev Memory.wf (m : Memory) : Prop :=
  (List.map Prod.fst m).Pairwise (· < ·) ∧ ∀ a ∈ List.map Prod.fst m, a < memCells

/-- All 256 cells, EMPTY ones included, as a snapshot shows them (R145). -/
def Memory.cells (m : Memory) : List (Option Byte) := (List.range memCells).map (Memory.read m)

/-! ## The fault register (R230 to R234) -/

/-- R230, D8: the numeric code of a fault kind. -/
def FaultKind.code : FaultKind → Nat
  | .stackOverflow => 1
  | .stackUnderflow => 2
  | .callStackOverflow => 3
  | .callStackUnderflow => 4
  | .divisionByZero => 5
  | .invalidOpcode => 6
  | .uninitializedMemory => 7
  | .unexpectedSyscall => 8
  | .streamExhausted => 9
  | .syscallIo => 10

/-- R230's `info` column: the kinds that carry a byte. -/
def FaultKind.carriesInfo : FaultKind → Bool
  | .invalidOpcode | .uninitializedMemory | .unexpectedSyscall => true
  | .stackOverflow | .stackUnderflow | .callStackOverflow | .callStackUnderflow | .divisionByZero
  | .streamExhausted | .syscallIo => false

/-- R234: `fault_pc(ipc, p)`. -/
def faultPc : FaultPcMode → Nat → Nat → Nat
  | .opcode, ipc, _ => ipc
  | .current, _, p => p

/-! ## Updates of the state -/

/-- `pc := p`, a plain assignment (R11). -/
def State.setPc (p : Nat) (s : State) : State := { s with pc := p }

/-- `pc <- t` (R11): set `pc` and `redirect`. -/
def State.jumpTo (t : Nat) (s : State) : State := { s with pc := t, redirect := true }

/-- The operand stack becomes `l`. -/
def State.setStack (l : List Byte) (s : State) : State := { s with stack := l }

/-- The call stack becomes `l`. -/
def State.setCalls (l : List Nat) (s : State) : State := { s with calls := l }

/-- `M[a] <- v` (R11 `MemWrite`). -/
def State.writeCell (a : Nat) (v : Byte) (s : State) : State := { s with mem := s.mem.write a v }

/-- R121: the fetch latches `ipc := pc` and clears `redirect`. No input transaction is outstanding while a
cycle works, whether a step begins it or the host's answer takes it up again, so the waiting bit is cleared
too (log entry 7). -/
def State.latch (s : State) : State := { s with ipc := s.pc, redirect := false, waiting := false }

/-- R124: `pc` advances by 1 unless the operation redirected it; the signal is consumed. -/
def State.advance (s : State) : State :=
  { s with pc := if s.redirect then s.pc else s.pc + 1, redirect := false }

/-- R143, R248: the cycle is held up at `In()`: the block waits for the input port, all else as before the
instruction (log entry 7). -/
def State.awaitInput (s : State) : State := { s with ipc := s.pc, redirect := false, waiting := true }

/-- TAKING A FAULT (R125 `on raise`, R126, R236): `pc`, `S`, `C`, `M`, `halted` and `exit_code` get back their
values from before the instruction, `save`, and the fault register is written; `t` is the state at the
raise. Port transactions performed stay performed (R146). There is no return from a fault (R237). -/
def takeFault (save : State) (k : FaultKind) (info : Option Byte) (t : State) : State :=
  { t with
    pc := save.pc, stack := save.stack, calls := save.calls, mem := save.mem
    halted := save.halted, exitCode := save.exitCode, redirect := false
    fault := some { kind := k, info := info, pc := faultPc t.cfg.faultPcMode t.ipc t.pc } }

/-! ## Operations that may raise or wait -/

/-- How a part of an instruction ends: with a value, with a fault raised (R11 `raise E(info)`), or with an
input transaction that has no answer yet (R143). -/
inductive Result (α : Type) where
  | ok (a : α) (s : State)
  | raised (k : FaultKind) (info : Option Byte) (s : State)
  | waits

/-- Sequence (R11: "each line completes before the next"): a fault or a wait ends the instruction. -/
def Result.bind {α β : Type} (x : Result α) (f : α → State → Result β) : Result β :=
  match x with
  | .ok a s => f a s
  | .raised k info s => .raised k info s
  | .waits => .waits

/-- `raise E(info)` (R11, R236). -/
def raise {α : Type} (k : FaultKind) (info : Option Byte) (s : State) : Result α := .raised k info s

/-- How a cycle that began in `s` ends (R124, R125): it advances, or takes the fault, or waits. -/
def finish (s : State) : Result Unit → State
  | .ok _ t => t.advance
  | .raised k info t => takeFault s k info t
  | .waits => s.awaitInput

/-- One cycle around an operation (R125): latch, perform, and end the cycle. -/
def perform (body : State → Result Unit) (s : State) : Host.Outcome State Fault Refusal :=
  .next (finish s (body s.latch))

/-- R122: the fetched byte `b` has no operation: InvalidOpcode carrying the byte. -/
def raiseInvalidOpcode (b : Byte) (s : State) : State := takeFault s .invalidOpcode (some b) s.latch

/-! ## Fetch (R121, R72) -/

/-- The bytes the fetch and `imm()` may read: those from `pc` on, no more than an instruction has. -/
def State.fetchBytes (s : State) : List Byte := (s.code.drop s.pc).take maxLength

/-! ## Ports (R143 to R146) -/

/-- The input transaction has been answered with `a`. -/
def State.recordInput (a : InAnswer) (s : State) : State :=
  { s with inputs := s.inputs.tail, trace := s.trace ++ [.input a] }

/-- `In()` (R143): take the host's next answer; with none pending the transaction stays outstanding. -/
def portIn (s : State) : Result InAnswer :=
  match s.inputs with
  | [] => .waits
  | a :: _ => .ok a (s.recordInput a)

/-- The host's answer to the next output transaction: the one State lists, or a free value (log entry 8). -/
def State.outAnswer (s : State) : PortAnswer :=
  match s.outAnswers with
  | a :: _ => a
  | [] => Config.freeOutAnswer s.trace.length

/-- The host's answer to the next dump transaction: the one State lists, or a free value (log entry 8). -/
def State.dumpAnswer (s : State) : PortAnswer :=
  match s.dumpAnswers with
  | a :: _ => a
  | [] => Config.freeDumpAnswer s.trace.length

/-- The output transaction of byte `b` has been performed. -/
def State.recordOutput (b : Byte) (s : State) : State :=
  { s with outAnswers := s.outAnswers.tail, trace := s.trace ++ [.output b s.outAnswer] }

/-- The dump transaction has been performed; the snapshot lists the stack from bottom to top (R145). -/
def State.recordDump (s : State) : State :=
  { s with
    dumpAnswers := s.dumpAnswers.tail
    trace := s.trace ++ [.dump s.stack.reverse s.mem s.dumpAnswer] }

/-- A port that answers IoError raises SyscallIo (R142, R144, R145). -/
def checkPort (r : PortAnswer) (s : State) : Result Unit :=
  match r with
  | .ok => .ok () s
  | .ioError => raise .syscallIo none s

/-- `Out(b)` and the test of its answer (R144). -/
def portOut (b : Byte) (s : State) : Result Unit := checkPort s.outAnswer (s.recordOutput b)

/-- `Dump(S, M)` and the test of its answer (R145). -/
def portDump (s : State) : Result Unit := checkPort s.dumpAnswer s.recordDump

/-- One more answer of the host to `In()` is at hand (R143). -/
def State.queueInput (a : InAnswer) (s : State) : State := { s with inputs := s.inputs ++ [a] }

/-! ## Run status and result (R37, R38) -/

/-- The run status of R37. -/
inductive Status where
  | running | waiting | done (exitCode : Byte) | faulted (record : FaultRecord)
deriving DecidableEq, Repr

/-- R37: the run status, a function of the state. -/
def State.status (s : State) : Status :=
  match s.fault with
  | some r => .faulted r
  | none =>
    if s.halted = true ∨ s.code.length ≤ s.pc then .done s.exitCode
    else if s.waiting then .waiting
    else .running

end Sys2Proof.Machine
end

