-- ==== Sys2Proof/Machine/Operands.lean ====
section
/-! DEFINITION. Every operand form (R73, R76) and stack primitive (R11), and the memory primitives the load and
store operations use. -/

namespace Sys2Proof.Machine

/-! ## Operand stack (R25) -/

/-- `push(v)` (R11): "reject pushes beyond 256 entries" (R25). -/
def push (v : Byte) (s : State) : Result Unit :=
  if stackMax ≤ s.stack.length then raise .stackOverflow none s else .ok () (s.setStack (v :: s.stack))

/-- `pop()` (R11). -/
def pop (s : State) : Result Byte :=
  match s.stack with
  | [] => raise .stackUnderflow none s
  | v :: rest => .ok v (s.setStack rest)

/-! ## Call stack (R27) -/

/-- `cpush(r)` (R11). -/
def cpush (r : Nat) (s : State) : Result Unit :=
  if callMax ≤ s.calls.length then raise .callStackOverflow none s else .ok () (s.setCalls (r :: s.calls))

/-- `cpop()` (R11). -/
def cpop (s : State) : Result Nat :=
  match s.calls with
  | [] => raise .callStackUnderflow none s
  | r :: rest => .ok r (s.setCalls rest)

/-! ## The immediate (R73, R75) -/

/-- `imm()` (R11): `pc := pc + 1` in every case; then StreamExhausted where the immediate is absent, and the
immediate byte otherwise. `v` is what the decoder read at `ipc + 1`. -/
def imm (v : Option Byte) (s : State) : Result Byte :=
  match v with
  | none => raise .streamExhausted none (s.setPc (s.pc + 1))
  | some b => .ok b (s.setPc (s.pc + 1))

/-- R73(c), R74: an absolute code address, `zext_PC_BITS(imm)`. -/
def codeTarget (t : Byte) : Nat := t.toNat

/-- The effective data address of 46_memory_ops.md: "the byte itself, 0 to 255". -/
def dataAddr (a : Byte) : Nat := a.toNat

/-! ## Data memory (R11) -/

/-- `MemRead(a, 1)`: an EMPTY cell raises UninitializedMemory with the address. -/
def memRead (a : Byte) (s : State) : Result Byte :=
  match s.mem.read (dataAddr a) with
  | none => raise .uninitializedMemory (some a) s
  | some v => .ok v s

/-- `MemWrite(a, 1, v)`. -/
def memWrite (a v : Byte) (s : State) : Result Unit := .ok () (s.writeCell (dataAddr a) v)

/-! ## Operand shapes (R76, R177) -/

/-- The two-operand form: pop the right operand `b`, pop the left operand `a`, push the result. -/
def binary (f : Byte → Byte → State → Result Byte) (s : State) : Result Unit :=
  (pop s).bind fun b s => (pop s).bind fun a s => (f a b s).bind fun r s => push r s

/-- The immediate form: `b := imm()` takes the place of "pop b" (R177, D9). -/
def binaryImm (f : Byte → Byte → State → Result Byte) (v : Option Byte) (s : State) : Result Unit :=
  (imm v s).bind fun b s => (pop s).bind fun a s => (f a b s).bind fun r s => push r s

end Sys2Proof.Machine
end

