-- ==== Sys2Proof/Machine/Arith.lean ====
section
/-! DEFINITION. The arithmetic family (43_arithmetic.md): exact on unbounded integers, then narrowed (R170). -/

namespace Sys2Proof.Machine

/-- `sat8(n)` (R11): `min(max(n, 0), 255)`. -/
def sat8 (n : Int) : Byte := BitVec.ofNat 8 (min (max n 0) 255).toNat

/-- R170, add. -/
def addSat (a b : Byte) (s : State) : Result Byte := .ok (sat8 ((a.toNat : Int) + b.toNat)) s

/-- R170, sub. -/
def subSat (a b : Byte) (s : State) : Result Byte := .ok (sat8 ((a.toNat : Int) - b.toNat)) s

/-- R170, mul. -/
def mulSat (a b : Byte) (s : State) : Result Byte := .ok (sat8 ((a.toNat : Int) * b.toNat)) s

/-- R170, R171, div: DivisionByZero on a zero divisor, tested after both operands are obtained (D10). -/
def divSat (a b : Byte) (s : State) : Result Byte :=
  if b = 0 then raise .divisionByZero none s else .ok (sat8 ((a.toNat : Int) / b.toNat)) s

/-- R170, R171, mod: a zero divisor is per `MOD_ZERO_POLICY`. -/
def modTrunc (a b : Byte) (s : State) : Result Byte :=
  if b = 0 then
    match s.cfg.modZero with
    | .fault => raise .divisionByZero none s
    | .result => .ok (Config.modZeroResult a) s
  else .ok (sat8 ((a.toNat : Int) % b.toNat)) s

/-- ADD (R172). -/
def execAdd (s : State) : Host.Outcome State Fault Refusal := perform (binary addSat) s

/-- SUB (R173). -/
def execSub (s : State) : Host.Outcome State Fault Refusal := perform (binary subSat) s

/-- MUL (R174). -/
def execMul (s : State) : Host.Outcome State Fault Refusal := perform (binary mulSat) s

/-- DIV (R175). -/
def execDiv (s : State) : Host.Outcome State Fault Refusal := perform (binary divSat) s

/-- MOD (R176). -/
def execMod (s : State) : Host.Outcome State Fault Refusal := perform (binary modTrunc) s

/-- ADDI (R177). -/
def execAddi (v : Option Byte) (s : State) : Host.Outcome State Fault Refusal := perform (binaryImm addSat v) s

/-- SUBI (R178). -/
def execSubi (v : Option Byte) (s : State) : Host.Outcome State Fault Refusal := perform (binaryImm subSat v) s

/-- MULI (R179). -/
def execMuli (v : Option Byte) (s : State) : Host.Outcome State Fault Refusal := perform (binaryImm mulSat v) s

/-- DIVI (R180). -/
def execDivi (v : Option Byte) (s : State) : Host.Outcome State Fault Refusal := perform (binaryImm divSat v) s

/-- MODI (R181). -/
def execModi (v : Option Byte) (s : State) : Host.Outcome State Fault Refusal := perform (binaryImm modTrunc v) s

end Sys2Proof.Machine
end

