-- ==== Sys2Proof/Machine/Branch.lean ====
section
/-! DEFINITION. The jumps (45_branch.md), absolute and without delay slots. -/

namespace Sys2Proof.Machine

/-- The operation of JZ (R200): the flag is popped, then the immediate is read whether or not the jump is taken; only 0 jumps. -/
def opJz (t : Option Byte) (s : State) : Result Unit :=
  (pop s).bind fun flag s => (imm t s).bind fun t s =>
    if flag = 0 then .ok () (s.jumpTo (codeTarget t)) else .ok () s

/-- JZ (R200). -/
def execJz (t : Option Byte) (s : State) : Host.Outcome State Fault Refusal := perform (opJz t) s

/-- The operation of JMZ (R201): the unconditional jump. -/
def opJmz (t : Option Byte) (s : State) : Result Unit :=
  (imm t s).bind fun t s => .ok () (s.jumpTo (codeTarget t))

/-- JMZ (R201). -/
def execJmz (t : Option Byte) (s : State) : Host.Outcome State Fault Refusal := perform (opJmz t) s

end Sys2Proof.Machine
end

