-- ==== Sys2Proof/Machine/Flags.lean ====
section
/-! DEFINITION. The flags. The block has no condition codes (R32): its only flags are `halted` and `exit_code`
(R29, R30), and a comparison answers on the operand stack (R190). -/

namespace Sys2Proof.Machine

/-- `halted := 1` and `exit_code := b` (R147, R222): the only writes of either flag (R29, R30). -/
def State.halt (b : Byte) (s : State) : State := { s with halted := true, exitCode := b }

/-- R190: the inverted boolean convention: 0 if the comparison holds and 1 if it does not. -/
def invertedBool (holds : Bool) : Byte := if holds then 0 else 1

end Sys2Proof.Machine
end

