-- ==== Sys2Proof/Machine/Compare.lean ====
section
/-! DEFINITION. The comparisons (44_compare.md): unsigned, 0 for true and 1 for false (R190). -/

namespace Sys2Proof.Machine

/-- R190: `cmp(a, b) = if rel(a, b) then 0 else 1`, on the unsigned values of the bytes. -/
def compareBytes (rel : Nat → Nat → Bool) (a b : Byte) (s : State) : Result Byte :=
  .ok (invertedBool (rel a.toNat b.toNat)) s

/-- EQ (R191). -/
def execEq (s : State) : Host.Outcome State Fault Refusal := perform (binary (compareBytes fun a b => a = b)) s

/-- NEQ (R192). -/
def execNeq (s : State) : Host.Outcome State Fault Refusal := perform (binary (compareBytes fun a b => a ≠ b)) s

/-- LT (R193). -/
def execLt (s : State) : Host.Outcome State Fault Refusal := perform (binary (compareBytes fun a b => a < b)) s

/-- LE (R194). -/
def execLe (s : State) : Host.Outcome State Fault Refusal := perform (binary (compareBytes fun a b => a ≤ b)) s

/-- GT (R195). -/
def execGt (s : State) : Host.Outcome State Fault Refusal := perform (binary (compareBytes fun a b => a > b)) s

/-- GE (R196). -/
def execGe (s : State) : Host.Outcome State Fault Refusal := perform (binary (compareBytes fun a b => a ≥ b)) s

end Sys2Proof.Machine
end

