-- ==== Sys2Proof/Machine/Control.lean ====
section
/-! DEFINITION. Call, return and halt (47_call_return_halt.md). -/

namespace Sys2Proof.Machine

/-- The operation of CALL (R220): the return address is `pc` after `imm()`, the
address of the Call's own immediate byte. -/
def opCall (t : Option Byte) (s : State) : Result Unit :=
  (imm t s).bind fun t s => (cpush s.pc s).bind fun _ s => .ok () (s.jumpTo (codeTarget t))

/-- CALL (R220). -/
def execCall (t : Option Byte) (s : State) : Host.Outcome State Fault Refusal := perform (opCall t) s

/-- The operation of RET (R221): `pc := r`, no redirect, so the cycle's advance gives `r + 1` (C1). -/
def opRet (s : State) : Result Unit :=
  (cpop s).bind fun r s => .ok () (s.setPc r)

/-- RET (R221). -/
def execRet (s : State) : Host.Outcome State Fault Refusal := perform opRet s

/-- The operation of FIN (R222). -/
def opFin (s : State) : Result Unit :=
  .ok () (s.halt 0)

/-- FIN (R222). -/
def execFin (s : State) : Host.Outcome State Fault Refusal := perform opFin s

end Sys2Proof.Machine
end

