-- ==== Sys2Proof/Machine/MemoryOps.lean ====
section
/-! DEFINITION. The memory operations Store, Load, StoreI, LoadI (46_memory_ops.md). -/

namespace Sys2Proof.Machine

/-- The operation of STORE (R210): "value popped before address". -/
def opStore (s : State) : Result Unit :=
  (pop s).bind fun v s => (pop s).bind fun a s => memWrite a v s

/-- STORE (R210). -/
def execStore (s : State) : Host.Outcome State Fault Refusal := perform opStore s

/-- The operation of LOAD (R211). -/
def opLoad (s : State) : Result Unit :=
  (pop s).bind fun a s => (memRead a s).bind fun v s => push v s

/-- LOAD (R211). -/
def execLoad (s : State) : Host.Outcome State Fault Refusal := perform opLoad s

/-- The operation of STOREI (R212): the immediate takes the place of the address pop (D9). -/
def opStorei (a : Option Byte) (s : State) : Result Unit :=
  (pop s).bind fun v s => (imm a s).bind fun a s => memWrite a v s

/-- STOREI (R212). -/
def execStorei (a : Option Byte) (s : State) : Host.Outcome State Fault Refusal := perform (opStorei a) s

/-- The operation of LOADI (R213). -/
def opLoadi (a : Option Byte) (s : State) : Result Unit :=
  (imm a s).bind fun a s => (memRead a s).bind fun v s => push v s

/-- LOADI (R213). -/
def execLoadi (a : Option Byte) (s : State) : Host.Outcome State Fault Refusal := perform (opLoadi a) s

end Sys2Proof.Machine
end

