-- ==== Sys2Proof/Machine/Stack.lean ====
section
/-! DEFINITION. The stack operations Push, Pop, Dup, Swap (42_stack.md). -/

namespace Sys2Proof.Machine

/-- The operation of PUSH (R160). -/
def opPush (v : Option Byte) (s : State) : Result Unit :=
  (imm v s).bind fun v s => push v s

/-- PUSH (R160). -/
def execPush (v : Option Byte) (s : State) : Host.Outcome State Fault Refusal := perform (opPush v) s

/-- The operation of POP (R161). -/
def opPop (s : State) : Result Unit :=
  (pop s).bind fun _ s => .ok () s

/-- POP (R161). -/
def execPop (s : State) : Host.Outcome State Fault Refusal := perform opPop s

/-- The operation of DUP (R162). -/
def opDup (s : State) : Result Unit :=
  (pop s).bind fun a s => (push a s).bind fun _ s => push a s

/-- DUP (R162). -/
def execDup (s : State) : Host.Outcome State Fault Refusal := perform opDup s

/-- The operation of SWAP (R163). -/
def opSwap (s : State) : Result Unit :=
  (pop s).bind fun a s => (pop s).bind fun b s => (push a s).bind fun _ s => push b s

/-- SWAP (R163). -/
def execSwap (s : State) : Host.Outcome State Fault Refusal := perform opSwap s

end Sys2Proof.Machine
end

