-- ==== Sys2Proof/Machine/SysCall.lean ====
section
/-! DEFINITION. SysCall and the syscall dispatch table (41_syscall.md). -/

namespace Sys2Proof.Machine

/-- R141: the entry words of `SYSTAB`, indexed by the selector: bit 7 `valid`, bit 3 `pushes_result`, bit 2
`pops_arg`, bits 1:0 `fn`; the 252 other entries are INVALID, 0. -/
def sysTab (sel : Byte) : Byte :=
  match sel.toNat with
  | 0 => 0x88
  | 1 => 0x85
  | 2 => 0x82
  | 3 => 0x87
  | _ => 0x00

/-- R141: bit 7 of an entry word. -/
def sysValid (w : Byte) : Bool := w.getLsbD 7

/-- R141: bit 3 of an entry word: the selector's rule pushes one result. -/
def sysPushes (w : Byte) : Bool := w.getLsbD 3

/-- R141: bit 2 of an entry word: the selector's rule pops one argument after the selector. -/
def sysPopsArg (w : Byte) : Bool := w.getLsbD 2

/-- R141: bits 1:0 of an entry word. -/
def sysFn (w : Byte) : BitVec 2 := w.extractLsb' 0 2

/-- Selector 0, read one byte (R142): end of input pushes 0. -/
def sysRead (s : State) : Result Unit :=
  (portIn s).bind fun r s =>
    match r with
    | .byte b => push b s
    | .eof => push 0 s
    | .ioError => raise .syscallIo none s

/-- Selector 1, write one byte (R144). -/
def sysWrite (s : State) : Result Unit := (pop s).bind fun b s => portOut b s

/-- Selector 2, dump state (R145): the stack is the one after the selector's pop. -/
def sysDump (s : State) : Result Unit := portDump s

/-- Selector 3, exit (R147). -/
def sysExit (s : State) : Result Unit := (pop s).bind fun b s => .ok () (s.halt b)

/-- The selector rules by `fn` (R141). -/
def sysRule (fn : BitVec 2) (s : State) : Result Unit :=
  match fn.toNat with
  | 0 => sysRead s
  | 1 => sysWrite s
  | 2 => sysDump s
  | _ => sysExit s

/-- The operation of SYSCALL (R140, R148): the selector is popped before the dispatch through
`SYSTAB`. -/
def opSyscall (s : State) : Result Unit :=
  (pop s).bind fun sel s =>
    let d := sysTab sel
    if sysValid d then sysRule (sysFn d) s else raise .unexpectedSyscall (some sel) s

/-- SYSCALL (R140, R148). -/
def execSyscall (s : State) : Host.Outcome State Fault Refusal := perform opSyscall s

/-- The host answers `In()` with `a` (R143). An outstanding transaction is answered by it, and the SYSCALL that
waits for it completes, or takes its fault, then and there, with no further step; otherwise the answer is kept
for a later `In()` (log entry 7). -/
def State.deliverInput (a : InAnswer) (s : State) : State :=
  if s.status = .waiting then finish (s.queueInput a) (opSyscall (s.queueInput a).latch) else s.queueInput a

end Sys2Proof.Machine
end

