-- ==== Sys2Proof/Machine/Dispatch.lean ====
section
/-! DEFINITION. The dispatch (R123): one arm per operation, each one direct call of its meaning. -/

namespace Sys2Proof.Machine

/-- R123: a valid ROM entry selects exactly one operation; there is no default arm. -/
def exec (i : Instr) (s : State) : Host.Outcome State Fault Refusal :=
  match i with
  | .syscall => Sys2Proof.Machine.execSyscall s
  | .push v => Sys2Proof.Machine.execPush v s
  | .pop => Sys2Proof.Machine.execPop s
  | .dup => Sys2Proof.Machine.execDup s
  | .swap => Sys2Proof.Machine.execSwap s
  | .add => Sys2Proof.Machine.execAdd s
  | .sub => Sys2Proof.Machine.execSub s
  | .mul => Sys2Proof.Machine.execMul s
  | .div => Sys2Proof.Machine.execDiv s
  | .mod => Sys2Proof.Machine.execMod s
  | .addi v => Sys2Proof.Machine.execAddi v s
  | .subi v => Sys2Proof.Machine.execSubi v s
  | .muli v => Sys2Proof.Machine.execMuli v s
  | .divi v => Sys2Proof.Machine.execDivi v s
  | .modi v => Sys2Proof.Machine.execModi v s
  | .eq => Sys2Proof.Machine.execEq s
  | .neq => Sys2Proof.Machine.execNeq s
  | .lt => Sys2Proof.Machine.execLt s
  | .le => Sys2Proof.Machine.execLe s
  | .gt => Sys2Proof.Machine.execGt s
  | .ge => Sys2Proof.Machine.execGe s
  | .jz t => Sys2Proof.Machine.execJz t s
  | .jmz t => Sys2Proof.Machine.execJmz t s
  | .store => Sys2Proof.Machine.execStore s
  | .load => Sys2Proof.Machine.execLoad s
  | .storei a => Sys2Proof.Machine.execStorei a s
  | .loadi a => Sys2Proof.Machine.execLoadi a s
  | .call t => Sys2Proof.Machine.execCall t s
  | .ret => Sys2Proof.Machine.execRet s
  | .fin => Sys2Proof.Machine.execFin s

end Sys2Proof.Machine
end

