-- ==== Sys2Proof/Machine/Step.lean ====
section
/-! DEFINITION. One step of the block (R120 to R125), and how an instruction is placed where it is fetched. -/

namespace Sys2Proof.Machine

/-- R125: a step is enabled only in RUNNING (R120, R37, R129); it fetches and decodes at `pc`, raises
InvalidOpcode for an unmapped byte (R122), and performs the operation otherwise (R123). A block that waits for
the input port takes no step: the host's answer, `State.deliverInput`, completes the one it is in. -/
def step (s : State) : Host.Outcome State Fault Refusal :=
  match s.status with
  | .faulted r => .fault (.runFaulted r)
  | .done c => .fault (.runDone c)
  | .waiting => .fault .runWaits
  | .running =>
    match decode s.cfg s.fetchBytes with
    | .ok (i, _) => exec i s
    | .error (.invalidOpcode b) => .next (raiseInvalidOpcode b s)
    | .error .noByte => .fault (.runDone s.exitCode)

/-- `s` with the bytes of a table word loaded at `pc`, the stream lengthened where it is too short, and the run
not ended, so that the very next step runs exactly that instruction (log entries 10 and 26). -/
def State.withFetchWord (s : State) (nbits w : Nat) : State :=
  { s with
    code := s.code.take s.pc ++ List.replicate (s.pc - s.code.length) 0 ++ tableBytes nbits w ++
      s.code.drop (s.pc + maxLength)
    halted := false, fault := none, waiting := false }

end Sys2Proof.Machine
end

