-- ==== Sys2Proof/Machine/Load.lean ====
section
/-! DEFINITION. The loader, which is the block's reset (70_reset_and_hazards.md). -/

namespace Sys2Proof.Machine

/-- R86: the magic header `0x00, 'T', 'W', 'N'`; the numbers of the characters are PRESUMED, as the spec says
(log entry 20). -/
def magicHeader : List Byte := [0x00, 0x54, 0x57, 0x4E]

/-- What the load interface answers (R38, R260). -/
inductive LoadAnswer where
  /-- The image has the header; the run starts in this state. -/
  | accept (s : State)
  /-- No header: no state is initialised and no run starts. -/
  | formatError
deriving DecidableEq, Repr

/-- The ports the host gives the block at reset (R260, R263). -/
structure Ports where
  inputs : List InAnswer
  outAnswers : List PortAnswer
  dumpAnswers : List PortAnswer
deriving DecidableEq, Repr

/-- Reset with an image (R260, R261, R262): check the header, strip it, and start from the reset state with the
given parameters and ports. -/
def load (cfg : Config) (ports : Ports) (image : List Byte) : LoadAnswer :=
  if image.take magicHeader.length = magicHeader then
    .accept { State.reset with
      code := image.drop magicHeader.length, cfg := cfg
      inputs := ports.inputs, outAnswers := ports.outAnswers, dumpAnswers := ports.dumpAnswers }
  else .formatError

end Sys2Proof.Machine
end

