-- ==== Sys2Proof/Machine/Assembler.lean ====
section
/-! DEFINITION. The assembler (R90 to R102): toolchain, not hardware (R6). It turns source text, a list of
characters, into a binary image. No other file of the machine uses it. -/

namespace Sys2Proof.Machine

/-- A word, a mnemonic or a label name. -/
abbrev Name := List Char

/-- R91: what a word is classified as. -/
inductive TokenKind where
  | op (o : Op) | int (b : Byte) | labelDef (name : Name) | labelRef (name : Name)
deriving DecidableEq, Repr

/-- R91: "Each token carries its source line." -/
structure Token where
  kind : TokenKind
  line : Nat
deriving DecidableEq, Repr

/-- Why there is no image (R93, R98, R99), or why the spec gives the source no reading
(93_implementation_defined.md section 2, log entry 21). -/
inductive AsmError where
  /-- R93: "invalid hex number". -/
  | invalidHex (line : Nat)
  /-- R98: a reference to a label that is not in the table. -/
  | unknownLabel (line : Nat) (name : Name)
  /-- R99 under `DUP_LABEL_POLICY` = `reject`. -/
  | duplicateLabel (line : Nat) (name : Name)
  /-- A decimal byte with a leading `+` or leading zeros: the source gives no grammar for it. -/
  | unspecifiedDecimal (line : Nat)
  /-- A white space character that is not an ASCII space, a tab or a line end: the source does not say whether it
  splits words. -/
  | unspecifiedWhitespace (line : Nat)
deriving DecidableEq, Repr

/-- R92: the mnemonic of an operation. -/
def Op.mnemonic : Op → Name
  | .syscall => ['S', 'Y', 'S', 'C', 'A', 'L', 'L']
  | .push => ['P', 'U', 'S', 'H']
  | .pop => ['P', 'O', 'P']
  | .dup => ['D', 'U', 'P']
  | .swap => ['S', 'W', 'A', 'P']
  | .add => ['A', 'D', 'D']
  | .sub => ['S', 'U', 'B']
  | .mul => ['M', 'U', 'L']
  | .div => ['D', 'I', 'V']
  | .mod => ['M', 'O', 'D']
  | .addi => ['A', 'D', 'D', 'I']
  | .subi => ['S', 'U', 'B', 'I']
  | .muli => ['M', 'U', 'L', 'I']
  | .divi => ['D', 'I', 'V', 'I']
  | .modi => ['M', 'O', 'D', 'I']
  | .eq => ['E', 'Q']
  | .neq => ['N', 'E', 'Q']
  | .lt => ['L', 'T']
  | .le => ['L', 'E']
  | .gt => ['G', 'T']
  | .ge => ['G', 'E']
  | .jz => ['J', 'Z']
  | .jmz => ['J', 'M', 'Z']
  | .store => ['S', 'T', 'O', 'R', 'E']
  | .load => ['L', 'O', 'A', 'D']
  | .storei => ['S', 'T', 'O', 'R', 'E', 'I']
  | .loadi => ['L', 'O', 'A', 'D', 'I']
  | .call => ['C', 'A', 'L', 'L']
  | .ret => ['R', 'E', 'T']
  | .fin => ['F', 'I', 'N']

/-! ## Lines and words (R90) -/

/-- The uppercase of a character (R91): ASCII letters as usual, other ASCII characters themselves, and beyond ASCII a
free value, since the spec gives no case mapping there (log entry 28). -/
def upperChar (c : Char) : List Char :=
  if 'a'.toNat ≤ c.toNat ∧ c.toNat ≤ 'z'.toNat then [Char.ofNat (c.toNat - 32)]
  else if c.toNat < 0x80 then [c]
  else Config.upperOther c

/-- Space, tab and the carriage return of a line end separate words (log entry 21). -/
def isBlank (c : Char) : Bool := c = ' ' || c = '\t' || c = '\r'

/-- Characters that some definition of white space counts and that are no space, tab or line end of ASCII: whether
they split words is open (log entry 21). Every other character may stand in a word, so in a label. -/
def isOpenSpace (c : Char) : Bool :=
  let n := c.toNat
  n = 0x0B || n = 0x0C || (0x1C ≤ n && n ≤ 0x1F) || n = 0x85 || n = 0xA0 || n = 0x1680 || n = 0x180E ||
    (0x2000 ≤ n && n ≤ 0x200B) || n = 0x2028 || n = 0x2029 || n = 0x202F || n = 0x205F || n = 0x3000 ||
    n = 0xFEFF

/-- Split at every character that `sep` holds of; the parts may be empty. -/
def splitAtChars (sep : Char → Bool) : List Char → List (List Char)
  | [] => [[]]
  | c :: cs =>
    if sep c then [] :: splitAtChars sep cs
    else
      match splitAtChars sep cs with
      | [] => [[c]]
      | w :: ws => (c :: w) :: ws

/-- The words of one line, the comment stripped (R90). -/
def lineWords (l : List Char) : List Name :=
  (splitAtChars isBlank (l.takeWhile fun c => c ≠ ';')).filter fun w => w ≠ []

/-! ## Classification (R91 to R95) -/

/-- The value of a hexadecimal digit of an uppercased word. -/
def hexDigit (c : Char) : Option Nat :=
  if '0'.toNat ≤ c.toNat ∧ c.toNat ≤ '9'.toNat then some (c.toNat - '0'.toNat)
  else if 'A'.toNat ≤ c.toNat ∧ c.toNat ≤ 'F'.toNat then some (c.toNat - 'A'.toNat + 10)
  else none

/-- The value of a decimal digit. -/
def decDigit (c : Char) : Option Nat :=
  if '0'.toNat ≤ c.toNat ∧ c.toNat ≤ '9'.toNat then some (c.toNat - '0'.toNat) else none

/-- The value of a digit string, most significant digit first, started at `acc`; `none` at a character that is
no digit. -/
def digitsFrom (base : Nat) (digit : Char → Option Nat) : Nat → List Char → Option Nat
  | acc, [] => some acc
  | acc, c :: cs =>
    match digit c with
    | some d => digitsFrom base digit (acc * base + d) cs
    | none => none

/-- The value of a string of one or more digits that is at most 255. -/
def byteLiteral (base : Nat) (digit : Char → Option Nat) (w : List Char) : Option Byte :=
  match w, digitsFrom base digit 0 w with
  | [], _ => none
  | _, some n => if n ≤ 255 then some (BitVec.ofNat 8 n) else none
  | _, none => none

/-- Whether an uppercased word is a decimal byte but for a leading `+` or leading zeros. -/
def oddDecimal : Name → Bool
  | '+' :: w => (byteLiteral 10 decDigit w).isSome
  | '0' :: c :: w => (byteLiteral 10 decDigit (c :: w)).isSome
  | _ => false

/-- R91: the uppercased word `w`, classified by the first test that holds. -/
def classify (line : Nat) (w : Name) : Except AsmError TokenKind :=
  match Op.all.find? fun o => Op.mnemonic o == w with
  | some o => .ok (.op o)
  | none =>
    match w with
    | '0' :: 'X' :: digits =>
      match byteLiteral 16 hexDigit digits with
      | some b => .ok (.int b)
      | none => .error (.invalidHex line)
    | _ =>
      if oddDecimal w then .error (.unspecifiedDecimal line)
      else
        match byteLiteral 10 decDigit w with
        | some b => .ok (.int b)
        | none => if w.getLast? = some ':' then .ok (.labelDef w.dropLast) else .ok (.labelRef w)

/-- One word of a line (R91): uppercased, then classified. -/
def token (line : Nat) (w : Name) : Except AsmError Token :=
  if w.any isOpenSpace then .error (.unspecifiedWhitespace line)
  else (classify line (w.flatMap upperChar)).map fun k => { kind := k, line := line }

/-- All the words of the source, each with its 1-based line (R90). -/
def sourceWords : Nat → List (List Char) → List (Nat × Name)
  | _, [] => []
  | n, l :: ls => (lineWords l).map (fun w => (n, w)) ++ sourceWords (n + 1) ls

/-- The tokens of a list of words; the first malformed word aborts the parse (R98). -/
def tokensOf : List (Nat × Name) → Except AsmError (List Token)
  | [] => .ok []
  | (n, w) :: ws =>
    match token n w with
    | .error e => .error e
    | .ok t => (tokensOf ws).map fun ts => t :: ts

/-- The tokenizer (R90, R91). -/
def tokenize (src : List Char) : Except AsmError (List Token) :=
  tokensOf (sourceWords 1 (splitAtChars (fun c => c = '\n') src))

/-! ## The two passes (R96 to R99) -/

/-- The label table, the latest definition first. -/
abbrev Labels := List (Name × Nat)

/-- The address of a label: the latest definition of its name (R99 `last_wins`). -/
def lookupLabel (labels : Labels) (name : Name) : Option Nat :=
  (labels.find? fun e => e.1 == name).map fun e => e.2

/-- Pass 1 (R96): the label table, from the address counter `n` on. -/
def passOne (policy : DupLabelPolicy) : Nat → Labels → List Token → Except AsmError Labels
  | _, labels, [] => .ok labels
  | n, labels, t :: ts =>
    match t.kind with
    | .labelDef name =>
      if policy = .reject ∧ (lookupLabel labels name).isSome then .error (.duplicateLabel t.line name)
      else passOne policy n ((name, n) :: labels) ts
    | .op _ | .int _ | .labelRef _ => passOne policy (n + 1) labels ts

/-- Pass 2 (R97): the byte each token emits. A label's address is truncated to one byte. -/
def passTwo (cfg : Config) (labels : Labels) : List Token → Except AsmError (List Byte)
  | [] => .ok []
  | t :: ts =>
    match t.kind with
    | .labelDef _ => passTwo cfg labels ts
    | .op o => (passTwo cfg labels ts).map fun bs => opcodeOf cfg o :: bs
    | .int b => (passTwo cfg labels ts).map fun bs => b :: bs
    | .labelRef name =>
      match lookupLabel labels name with
      | none => .error (.unknownLabel t.line name)
      | some a => (passTwo cfg labels ts).map fun bs => BitVec.ofNat 8 a :: bs

/-- The resolver (R96, R97): the header, then the bytes of the tokens. -/
def resolve (cfg : Config) (policy : DupLabelPolicy) (ts : List Token) : Except AsmError (List Byte) :=
  match passOne policy 0 [] ts with
  | .error e => .error e
  | .ok labels => (passTwo cfg labels ts).map fun bs => magicHeader ++ bs

/-- The assembler: tokenize, then resolve. -/
def assemble (cfg : Config) (policy : DupLabelPolicy) (src : List Char) : Except AsmError (List Byte) :=
  match tokenize src with
  | .error e => .error e
  | .ok ts => resolve cfg policy ts

/-- Whether a token is a label definition, which emits nothing. -/
def Token.isLabelDef (t : Token) : Bool :=
  match t.kind with
  | .labelDef _ => true
  | .op _ => false
  | .int _ => false
  | .labelRef _ => false

/-- How many bytes a list of tokens emits (R96, R97). -/
def emitted (ts : List Token) : Nat := (ts.filter fun t => !t.isLabelDef).length

end Sys2Proof.Machine
end

