-- ==== Sys2Proof/Safety.lean ====
section
/-! DEFINITION. The terms in which claims are made: runs, the invariant, the launch premises of R149, what it is
for an instruction to raise a fault, and the fault order of R235 as a table. -/

namespace Sys2Proof.Machine

/-! ## Runs -/

/-- `Run s l t`: steps, with answers the host gives between them (R143), lead from `s` to `t`, and `l` lists the
states stepped from, the latest first. -/
inductive Run (s : State) : List State → State → Prop where
  | refl : Run s [] s
  | snoc {l : List State} {t u : State} : Run s l t → step t = .next u → Run s (t :: l) u
  | input {l : List State} {t : State} (a : InAnswer) : Run s l t → Run s l (t.deliverInput a)

/-- The states of a block after a load, under steps and under the input answers the host gives between them (R143,
R260). -/
inductive Reachable : State → Prop where
  | load {cfg : Config} {ports : Ports} {image : List Byte} {s : State} :
      Machine.load cfg ports image = .accept s → Reachable s
  | step {s t : State} : Reachable s → Machine.step s = .next t → Reachable t
  | input {s : State} (a : InAnswer) : Reachable s → Reachable (s.deliverInput a)

/-- A run is safe while no fault has been raised (R236). -/
def Safe (s : State) : Prop := s.fault = none

/-! ## The state of a completed instruction -/

/-- `s` after a cycle that left `pc` at `p`: the latch holds the opcode's address and the redirect signal is
consumed (R36, R121, R124). Whatever else the instruction changes is named beside it. -/
def State.completed (s : State) (p : Nat) : State :=
  { s with pc := p, ipc := s.pc, redirect := false, waiting := false }

/-- Instruction `i` raises fault `k` with `info`: its next state holds them in the fault register (R31, R236). -/
def Raises (i : Instr) (s : State) (k : FaultKind) (info : Option Byte) : Prop :=
  ∃ t p, exec i s = .next t ∧ t.fault = some { kind := k, info := info, pc := p }

/-- Instruction `i` completes with `pc` at `p` and leaves the byte of value `n` on top of `rest`; everything else
is as before. -/
def Pushes (i : Instr) (s : State) (p : Nat) (rest : List Byte) (n : Nat) : Prop :=
  ∃ r : Byte, r.toNat = n ∧ exec i s = .next { s.completed p with stack := r :: rest }

/-- A step is enabled: the run status is RUNNING (R37, R120). -/
def Active (s : State) : Prop := s.status = .running

/-! ## The invariant -/

/-- What every state of a run satisfies. -/
structure RunInvariant (s : State) : Prop where
  /-- R25: 0 to 256 entries. -/
  stackBound : s.stack.length ≤ stackMax
  /-- R27: 0 to 256 return addresses. -/
  callsBound : s.calls.length ≤ callMax
  /-- R220: every return address is the offset of a Call's own immediate byte, so it lies in the stream. -/
  callsInStream : ∀ r ∈ s.calls, r < s.code.length
  /-- R28: the canonical form; every address is a byte. -/
  memWf : s.mem.wf
  /-- R36(b): the redirect signal is "never held across cycles". -/
  redirectConsumed : s.redirect = false
  /-- R30, R128: `exit_code` is 0 until the run halts. -/
  exitCodeZero : s.halted = false → s.exitCode = 0
  /-- R131, R74: `pc` is at most CODE_LEN, or a one-byte target beyond it. -/
  pcBound : s.pc ≤ max s.code.length 255
  /-- R37: the block waits only while the run has not ended. -/
  waitingRuns : s.waiting = true → s.status = .waiting
  /-- R143: the block waits only inside a SYSCALL with selector 0, for an answer the host has not given. -/
  waitingRead : s.waiting = true → s.inputs = [] ∧ s.stack.head? = some 0 ∧
    ∃ rest, decode s.cfg (s.code.drop s.pc) = .ok (.syscall, rest)
  /-- R31, R230: `info` is there exactly where the kind carries a byte. -/
  faultInfo : ∀ r, s.fault = some r → r.info.isSome = r.kind.carriesInfo
  /-- R233: the reported `pc` is the opcode's address or the byte after it. -/
  faultPcBound : ∀ r, s.fault = some r → r.pc ≤ s.code.length

/-! ## Launch premises (R149) -/

/-- The premises of R149, for the next `n` transactions of each port: the pending answers to `In()` are the bytes
`input` and then Eof, at least `n` of them; the output port and the sink have at least `n` answers listed,
and no port answers IoError. -/
structure LaunchPremises (input : List Byte) (n : Nat) (s : State) : Prop where
  inputs : ∃ k, s.inputs = input.map InAnswer.byte ++ List.replicate k InAnswer.eof
  enoughInputs : n ≤ s.inputs.length
  outAnswers : ∀ a ∈ s.outAnswers, a = PortAnswer.ok
  enoughOutAnswers : n ≤ s.outAnswers.length
  dumpAnswers : ∀ a ∈ s.dumpAnswers, a = PortAnswer.ok
  enoughDumpAnswers : n ≤ s.dumpAnswers.length

/-! ## Data memory as the history of its stores (R60) -/

/-- The store the step from `s` performs, as (address, value), if it performs one: STORE with its two operands on
the stack, or STOREI with its value on the stack and its immediate in the stream. -/
def storeOf (s : State) : Option (Nat × Byte) :=
  match decode s.cfg (s.code.drop s.pc), s.stack with
  | .ok (.store, _), v :: a :: _ => some (dataAddr a, v)
  | .ok (.storei (some a), _), v :: _ => some (dataAddr a, v)
  | _, _ => none

/-- The value of the latest store to address `a` among the steps from the states `l`, the latest first. -/
def latestStore (a : Nat) : List State → Option Byte
  | [] => none
  | s :: l =>
    match storeOf s with
    | some (b, v) => if b = a then some v else latestStore a l
    | none => latestStore a l

/-! ## The fault order (R235) -/

/-- A row of R235's table: when the fault applies, its kind, and the byte it carries. -/
structure FaultRow where
  applies : Bool
  kind : FaultKind
  info : Option Byte

/-- R235: "the first primitive, in the order of the instruction's pseudocode, that fails". -/
def firstFault : List FaultRow → Option (FaultKind × Option Byte)
  | [] => none
  | r :: rs => if r.applies then some (r.kind, r.info) else firstFault rs

/-- The stack holds fewer than `n` entries. -/
def FaultRow.underflow (n : Nat) (s : State) : FaultRow := ⟨s.stack.length < n, .stackUnderflow, none⟩

/-- The stack is full. -/
def FaultRow.overflow (s : State) : FaultRow := ⟨s.stack.length ≥ 256, .stackOverflow, none⟩

/-- The immediate is absent. -/
def FaultRow.exhausted (v : Option Byte) : FaultRow := ⟨v.isNone, .streamExhausted, none⟩

/-- The cell is EMPTY. -/
def FaultRow.uninitialized (a : Option Byte) (s : State) : FaultRow :=
  ⟨(a.bind fun b => s.mem.read b.toNat).isNone, .uninitializedMemory, a⟩

/-- The divisor is 0 (Div, DivI). -/
def FaultRow.zeroDivisor (b : Option Byte) : FaultRow := ⟨b = some 0, .divisionByZero, none⟩

/-- The divisor is 0 and the policy is `fault` (Mod, ModI). -/
def FaultRow.zeroModulus (b : Option Byte) (s : State) : FaultRow :=
  ⟨b = some 0 && s.cfg.modZero = .fault, .divisionByZero, none⟩

/-- The port transaction of a selector is answered IoError (selectors 0, 1, 2). -/
def portFails (sel : Byte) (s : State) : Bool :=
  match sel.toNat with
  | 0 => s.inputs.head? = some .ioError
  | 1 => s.outAnswer = .ioError
  | 2 => s.dumpAnswer = .ioError
  | _ => false

/-- R235's table, with the kinds' `info` of R230. It is written from the table, not from the meanings. -/
def faultTable (i : Instr) (s : State) : List FaultRow :=
  match i with
  | .syscall =>
    [.underflow 1 s,
     ⟨(s.stack.head?.map BitVec.toNat).any (4 ≤ ·), .unexpectedSyscall, s.stack.head?⟩,
     ⟨(s.stack.head? = some 1 || s.stack.head? = some 3) && s.stack.length < 2, .stackUnderflow, none⟩,
     ⟨s.stack.head?.any (portFails · s), .syscallIo, none⟩]
  | .push v => [.exhausted v, .overflow s]
  | .pop => [.underflow 1 s]
  | .dup => [.underflow 1 s, .overflow s]
  | .swap => [.underflow 2 s]
  | .add => [.underflow 2 s]
  | .sub => [.underflow 2 s]
  | .mul => [.underflow 2 s]
  | .div => [.underflow 2 s, .zeroDivisor s.stack.head?]
  | .mod => [.underflow 2 s, .zeroModulus s.stack.head? s]
  | .addi v => [.exhausted v, .underflow 1 s]
  | .subi v => [.exhausted v, .underflow 1 s]
  | .muli v => [.exhausted v, .underflow 1 s]
  | .divi v => [.exhausted v, .underflow 1 s, .zeroDivisor v]
  | .modi v => [.exhausted v, .underflow 1 s, .zeroModulus v s]
  | .eq => [.underflow 2 s]
  | .neq => [.underflow 2 s]
  | .lt => [.underflow 2 s]
  | .le => [.underflow 2 s]
  | .gt => [.underflow 2 s]
  | .ge => [.underflow 2 s]
  | .jz t => [.underflow 1 s, .exhausted t]
  | .jmz t => [.exhausted t]
  | .store => [.underflow 2 s]
  | .load => [.underflow 1 s, .uninitialized s.stack.head? s]
  | .storei a => [.underflow 1 s, .exhausted a]
  | .loadi a => [.exhausted a, .uninitialized a s, .overflow s]
  | .call t => [.exhausted t, ⟨s.calls.length ≥ 256, .callStackOverflow, none⟩]
  | .ret => [⟨s.calls.isEmpty, .callStackUnderflow, none⟩]
  | .fin => []

/-! ## The stack effects of R26 -/

/-- R26's table: how many entries an operation pops and pushes. For SysCall: the selector, one more for
selectors 1 and 3, and one pushed for selector 0. -/
def stackEffect (i : Instr) (s : State) : Nat × Nat :=
  match i with
  | .syscall =>
    if s.stack.head? = some 0 then (1, 1)
    else if s.stack.head? = some 1 ∨ s.stack.head? = some 3 then (2, 0)
    else (1, 0)
  | .push _ => (0, 1)
  | .pop => (1, 0)
  | .dup => (1, 2)
  | .swap => (2, 2)
  | .add => (2, 1)
  | .sub => (2, 1)
  | .mul => (2, 1)
  | .div => (2, 1)
  | .mod => (2, 1)
  | .addi _ => (1, 1)
  | .subi _ => (1, 1)
  | .muli _ => (1, 1)
  | .divi _ => (1, 1)
  | .modi _ => (1, 1)
  | .eq => (2, 1)
  | .neq => (2, 1)
  | .lt => (2, 1)
  | .le => (2, 1)
  | .gt => (2, 1)
  | .ge => (2, 1)
  | .jz _ => (1, 0)
  | .jmz _ => (0, 0)
  | .store => (2, 0)
  | .load => (1, 1)
  | .storei _ => (1, 0)
  | .loadi _ => (0, 1)
  | .call _ => (0, 0)
  | .ret => (0, 0)
  | .fin => (0, 0)

end Sys2Proof.Machine
end

