-- ==== Sys2Proof/Certificates/Slice0/Obligations.lean ====
section
/-! DEFINITION. The statements for the provers, from the spec's numbered rules. A docstring names the rule a
statement formalises, and the spec's decision (D<n>) or the log entry that a clause rests on where it
rests on one. The claims speak of the model's own record of port transactions, `State.trace`, where a rule
speaks of transactions (log entry 9). -/

open Sys2Proof Sys2Proof.Machine

/-! ## Reset and load (70_reset_and_hazards.md) -/

/-- R262 (and R39): the state after ACCEPT, whatever the image, the parameters and the ports; the first byte fetched
is the first after the header. That the state holds the parameters and the answers of the three ports the load is
given (R260, R263) is the form log entries 3 and 25 choose. -/
def Obligations.AcceptedLoadLeavesResetState : Prop :=
  ∀ cfg ports image s, load cfg ports image = .accept s →
    s.pc = 0 ∧ s.stack = [] ∧ s.calls = [] ∧ (∀ a, s.mem.read a = none) ∧ s.halted = false ∧
    s.exitCode = 0 ∧ s.fault = none ∧ s.code[s.pc]? = image[4]? ∧
    s.cfg = cfg ∧ s.inputs = ports.inputs ∧ s.outAnswers = ports.outAnswers ∧ s.dumpAnswers = ports.dumpAnswers

/-- R261: header strip, CODE_LEN, ACCEPT, and the stream fixed for the whole run. Which numbers the header's bytes
are is presumed (log entry 20) and not asserted here. -/
def Obligations.AcceptedImageIsStrippedAndFixed : Prop :=
  ∀ cfg ports (image : List Byte), image.take 4 = magicHeader →
    ∃ s, load cfg ports image = .accept s ∧ s.code.length = image.length - 4 ∧
      (∀ i, i < s.code.length → s.code[i]? = image[i + 4]?) ∧ ∀ l t, Run s l t → t.code = s.code

/-- R260 (its answer is decision D19; the header's numbers are presumed, log entry 20): an image that is too short
or has another header gives FORMAT_ERROR and no state. -/
def Obligations.BadImageIsAFormatError : Prop :=
  ∀ cfg ports (image : List Byte), image.length < 4 ∨ image.take 4 ≠ [0x00, 0x54, 0x57, 0x4E] →
    load cfg ports image = .formatError

/-! ## Encoding (30_encoding.md) -/

/-- R82 and the table of encodings, under the default parameters (D1, D2): words written out from the spec decode to
the instruction they stand for. -/
def Obligations.WrittenOutWordsDecode : Prop :=
  decode Config.default [0x00, 0x99] = .ok (.syscall, [0x99]) ∧
  decode Config.default [0x01, 0x0A, 0x99] = .ok (.push (some 10), [0x99]) ∧
  decode Config.default [0x04] = .ok (.swap, []) ∧
  decode Config.default [0x13] = .ok (.div, []) ∧
  decode Config.default [0x15, 0xFF] = .ok (.addi (some 255), []) ∧
  decode Config.default [0x1C] = .ok (.lt, []) ∧
  decode Config.default [0x20, 0x0C] = .ok (.jz (some 12), []) ∧
  decode Config.default [0x32, 0x00] = .ok (.storei (some 0), []) ∧
  decode Config.default [0x40, 0x07] = .ok (.call (some 7), []) ∧
  decode Config.default [0x41] = .ok (.ret, []) ∧
  decode Config.default [0xFF] = .ok (.fin, []) ∧
  decode Config.default [0x20] = .ok (.jz none, []) ∧
  decode Config.default [0xFE] = .error (.invalidOpcode 0xFE)

/-- The entries of R82's table as (byte, ROM word); every other entry is 0x00. -/
def Sys2Proof.Machine.romTable : List (Nat × Nat) :=
  [(0x00, 0x80), (0x01, 0xC1), (0x02, 0x82), (0x03, 0x83), (0x04, 0x84)] ++
  [(0x10, 0x85), (0x11, 0x86), (0x12, 0x87), (0x13, 0x88), (0x14, 0x89)] ++
  [(0x15, 0xCA), (0x16, 0xCB), (0x17, 0xCC), (0x18, 0xCD), (0x19, 0xCE)] ++
  [(0x1A, 0x8F), (0x1B, 0x90), (0x1C, 0x91), (0x1D, 0x92), (0x1E, 0x93), (0x1F, 0x94)] ++
  [(0x20, 0xD5), (0x21, 0xD6)] ++
  [(0x30, 0x97), (0x31, 0x98), (0x32, 0xD9), (0x33, 0xDA), (0x40, 0xDB), (0x41, 0x9C), (0xFF, 0x9D)]

/-- The entry words of R141's table, by selector; every other entry is 0x00. -/
def Sys2Proof.Machine.sysTable : List (Nat × Nat) := [(0, 0x88), (1, 0x85), (2, 0x82), (3, 0x87)]

/-- R82, R83, R141 (word layouts D14, D24; assignment D1, D2): the contents of the opcode ROM under the default
parameters and of the syscall dispatch table, all 256 entries of each. -/
def Obligations.RomAndSystabHoldTheirWords : Prop :=
  ∀ b : Byte, (rom Config.default b).toNat = (romTable.lookup b.toNat).getD 0 ∧
    (sysTab b).toNat = (sysTable.lookup b.toNat).getD 0

/-- R84: the 226 invalid bytes, the fault their fetch raises, and that any byte value is a legal immediate, for
every assignment of the two families. -/
def Obligations.UnmappedBytesRaiseInvalidOpcode : Prop :=
  ∀ c : Config, c.wf = true →
    (∀ b : Byte, opAt c b = none ↔
      (0x05 ≤ b.toNat ∧ b.toNat ≤ 0x0F) ∨ (0x22 ≤ b.toNat ∧ b.toNat ≤ 0x2F) ∨
      (0x34 ≤ b.toNat ∧ b.toNat ≤ 0x3F) ∨ (0x42 ≤ b.toNat ∧ b.toNat ≤ 0xFE)) ∧
    ((List.range 256).filter fun n => (opAt c (BitVec.ofNat 8 n)).isNone).length = 226 ∧
    (∀ s b rest, s.cfg = c → Active s → s.code.drop s.pc = b :: rest → opAt c b = none →
      ∃ t p, step s = .next t ∧ t.fault = some { kind := .invalidOpcode, info := some b, pc := p }) ∧
    ∀ (o : Op) (v : Byte) (rest : List Byte), o.isImm = true →
      decode c (opcodeOf c o :: v :: rest) = .ok (o.instr (some v), rest)

/-- R70 to R73, R75, R81: decoding an encoded instruction gives it back with the bytes after it, for every
instruction, every immediate and every assignment of the two families; the form without its immediate comes back
at the end of the stream. -/
def Obligations.DecodeOfEncodeIsTheInstruction : Prop :=
  ∀ (c : Config) (i : Instr) (rest : List Byte), c.wf = true → i.wf = true ∨ rest = [] →
    decode c (encode c i ++ rest) = .ok (i, rest)

/-- R70, R72, R85: what decodes is an encoding, so no two byte sequences stand for one instruction. -/
def Obligations.EncodeOfDecodeIsTheBytes : Prop :=
  ∀ (c : Config) (bs : List Byte) (i : Instr) (rest : List Byte), c.wf = true →
    decode c bs = .ok (i, rest) → encode c i ++ rest = bs ∧ (i.wf = true ∨ rest = [])

/-! ## The cycle (40_cycle.md) -/

/-- R120 to R124, with R37: a step that is enabled is the instruction decoded at `pc`. `Active` is RUNNING exactly, so
nothing is said of a block that waits: it takes no step (log entry 7; EndedRunTakesNoStep). The cycle's
latch and advance are part of the instruction's meaning. -/
def Obligations.StepRunsTheDecodedInstruction : Prop :=
  ∀ s i rest, Active s → decode s.cfg (s.code.drop s.pc) = .ok (i, rest) → step s = exec i s

/-- R75, R235: an `OP_IMM` opcode that is the last byte of the stream raises StreamExhausted; JZ and STOREI pop
first, so with an empty stack they raise StackUnderflow. Which of the two faults comes first with an empty stack is
decision D9 (log entry 17, a DESIGN CHOICE) for STOREI, where the pop is first, and for ADDI, SUBI, MULI, DIVI
and MODI, where the immediate is; for JZ it is R235's own row. -/
def Obligations.LastByteOpcodeExhaustsTheStream : Prop :=
  ∀ s b o, Active s → s.code.drop s.pc = [b] → opAt s.cfg b = some o → o.isImm = true →
    ∃ t p, step s = .next t ∧ t.fault = some
      { kind := if (o = .jz ∨ o = .storei) ∧ s.stack = [] then .stackUnderflow else .streamExhausted
        info := none, pc := p }

/-- R120, R37, R129, R128 (D12): a step is taken exactly in RUNNING. That an ended run shows as a stop with its result
is log entry 5, and that a block which waits for its host stops by name too is log entry 7. -/
def Obligations.EndedRunTakesNoStep : Prop :=
  ∀ s : State,
    (∀ c, s.status = .done c → step s = .fault (.runDone c)) ∧
    (∀ r, s.status = .faulted r → step s = .fault (.runFaulted r)) ∧
    (s.status = .waiting → step s = .fault .runWaits) ∧
    (Active s → ∃ t, step s = .next t)

/-- R131: `pc` after a step that neither faulted nor waits (for FIN and selector 3 decision D13). -/
def Obligations.PcAfterACompletedInstruction : Prop :=
  ∀ i s t, s.fault = none → exec i s = .next t → t.fault = none → t.waiting = false →
    (i.op.isImm = false → i ≠ .ret → t.pc = s.pc + 1) ∧
    (i.op.isImm = true → i.op ∉ [Op.jz, Op.jmz, Op.call] → t.pc = s.pc + 2) ∧
    (∀ d, i = .jz (some d) → t.pc = if s.stack.head? = some 0 then d.toNat else s.pc + 2) ∧
    (∀ d, i = .jmz (some d) ∨ i = .call (some d) → t.pc = d.toNat) ∧
    (i = .ret → ∃ r rest, s.calls = r :: rest ∧ t.pc = r + 1)

/-- R130: a JMZ to its own address runs forever. A read that is never answered waits forever: the step that begins it
leaves WAITING, from which no step leads on (D16; that it shows as a stop is log entry 7). -/
def Obligations.NothingEndsALoopOrAWait : Prop :=
  (∀ s d rest, s.status = .running → s.code.drop s.pc = 0x21 :: d :: rest → d.toNat = s.pc →
    ∀ k, ∃ l t, Run s l t ∧ l.length = k ∧ t.status = .running ∧ t.pc = s.pc) ∧
  (∀ s rest st, Active s → s.code.drop s.pc = 0x00 :: rest → s.stack = 0 :: st → s.inputs = [] →
    ∃ t, step s = .next t ∧ t.status = .waiting ∧ t.stack = s.stack ∧ step t = .fault .runWaits)

/-! ## Stack operations (42_stack.md) -/

/-- R160: PUSH. The order of its two faults is that of the source's steps, as the spec's decision D9 keeps it. -/
def Obligations.PushPutsTheImmediateOnTop : Prop :=
  ∀ s : State,
    (∀ v, s.stack.length < 256 →
      exec (.push (some v)) s = .next { s.completed (s.pc + 2) with stack := v :: s.stack }) ∧
    (∀ v, 256 ≤ s.stack.length → Raises (.push (some v)) s .stackOverflow none) ∧
    Raises (.push none) s .streamExhausted none ∧
    ∀ c v, encode c (.push (some v)) = [0x01, v]

/-- R161: POP. -/
def Obligations.PopDiscardsTheTop : Prop :=
  ∀ s : State,
    (∀ v rest, s.stack = v :: rest → exec .pop s = .next { s.completed (s.pc + 1) with stack := rest }) ∧
    (s.stack = [] → Raises .pop s .stackUnderflow none) ∧
    ∀ c, encode c .pop = [0x02]

/-- R162: DUP (its overflow is the spec's own inference from the pseudocode, C2). -/
def Obligations.DupDoublesTheTop : Prop :=
  ∀ s : State,
    (∀ a rest, s.stack = a :: rest → s.stack.length < 256 →
      exec .dup s = .next { s.completed (s.pc + 1) with stack := a :: a :: rest }) ∧
    (s.stack = [] → Raises .dup s .stackUnderflow none) ∧
    (256 ≤ s.stack.length → Raises .dup s .stackOverflow none) ∧
    ∀ c, encode c .dup = [0x03]

/-- R163: SWAP. The bound of R25 is the premise that rules out stacks no run reaches. -/
def Obligations.SwapExchangesTheTopTwo : Prop :=
  ∀ s : State, s.stack.length ≤ 256 →
    (∀ a b rest, s.stack = a :: b :: rest →
      exec .swap s = .next { s.completed (s.pc + 1) with stack := b :: a :: rest }) ∧
    (s.stack.length < 2 → Raises .swap s .stackUnderflow none) ∧
    ∀ c, encode c .swap = [0x04]

/-! ## Arithmetic (43_arithmetic.md) -/

/-- R170: the laws of the family, on the two-operand forms: computed exactly on unbounded integers and narrowed,
with no wrap-around and nothing else changed; the column for a zero right operand too, where the table gives a
result. -/
def Obligations.ArithmeticSaturates : Prop :=
  ∀ (s : State) (a b : Byte) (rest : List Byte), s.stack = b :: a :: rest → s.stack.length ≤ 256 →
    Pushes .add s (s.pc + 1) rest (min (a.toNat + b.toNat) 255) ∧
    Pushes .sub s (s.pc + 1) rest (max ((a.toNat : Int) - b.toNat) 0).toNat ∧
    Pushes .mul s (s.pc + 1) rest (min (a.toNat * b.toNat) 255) ∧
    (b ≠ 0 → Pushes .div s (s.pc + 1) rest (a.toNat / b.toNat)) ∧
    (b ≠ 0 → Pushes .mod s (s.pc + 1) rest (a.toNat % b.toNat)) ∧
    (b = 0 → Pushes .add s (s.pc + 1) rest a.toNat ∧ Pushes .sub s (s.pc + 1) rest a.toNat ∧
      Pushes .mul s (s.pc + 1) rest 0 ∧ Raises .div s .divisionByZero none)

/-- R171: zero divisors. `MOD_ZERO_POLICY` is decision D3, the test after both operands decision D10; under
`result` the value is the free function of log entry 4. -/
def Obligations.ZeroDivisorsFaultOrFollowThePolicy : Prop :=
  ∀ (s : State) (a : Byte) (rest : List Byte), s.stack.length ≤ 256 →
    (s.stack = 0 :: a :: rest →
      Raises .div s .divisionByZero none ∧
      (s.cfg.modZero = .fault → Raises .mod s .divisionByZero none) ∧
      (s.cfg.modZero = .result → exec .mod s =
        .next { s.completed (s.pc + 1) with stack := Config.modZeroResult a :: rest })) ∧
    (s.stack = a :: rest →
      Raises (.divi (some 0)) s .divisionByZero none ∧
      (s.cfg.modZero = .fault → Raises (.modi (some 0)) s .divisionByZero none) ∧
      (s.cfg.modZero = .result → exec (.modi (some 0)) s =
        .next { s.completed (s.pc + 2) with stack := Config.modZeroResult a :: rest }))

/-- R177 to R181: the immediate forms (the immediate takes the place of the first pop, decision D9; their opcode
bytes are decision D1). -/
def Obligations.ImmediateArithmeticUsesTheImmediateAsRightOperand : Prop :=
  ∀ (s : State) (a b : Byte) (rest : List Byte), s.stack = a :: rest → s.stack.length ≤ 256 →
    Pushes (.addi (some b)) s (s.pc + 2) rest (min (a.toNat + b.toNat) 255) ∧
    Pushes (.subi (some b)) s (s.pc + 2) rest (max ((a.toNat : Int) - b.toNat) 0).toNat ∧
    Pushes (.muli (some b)) s (s.pc + 2) rest (min (a.toNat * b.toNat) 255) ∧
    (b ≠ 0 → Pushes (.divi (some b)) s (s.pc + 2) rest (a.toNat / b.toNat)) ∧
    (b ≠ 0 → Pushes (.modi (some b)) s (s.pc + 2) rest (a.toNat % b.toNat)) ∧
    encode Config.default (.addi (some b)) = [0x15, b] ∧ encode Config.default (.subi (some b)) = [0x16, b] ∧
    encode Config.default (.muli (some b)) = [0x17, b] ∧ encode Config.default (.divi (some b)) = [0x18, b] ∧
    encode Config.default (.modi (some b)) = [0x19, b]

/-! ## Comparisons (44_compare.md) -/

/-- R190: the comparison law, for the six comparisons: unsigned, 0 for true and 1 for false, StackUnderflow below
two entries, no flag written, no immediate form. -/
def Obligations.ComparisonsPushZeroForTrue : Prop :=
  (∀ (s : State) (a b : Byte) (rest : List Byte), s.stack = b :: a :: rest → s.stack.length ≤ 256 →
    Pushes .eq s (s.pc + 1) rest (if a.toNat = b.toNat then 0 else 1) ∧
    Pushes .neq s (s.pc + 1) rest (if a.toNat ≠ b.toNat then 0 else 1) ∧
    Pushes .lt s (s.pc + 1) rest (if a.toNat < b.toNat then 0 else 1) ∧
    Pushes .le s (s.pc + 1) rest (if a.toNat ≤ b.toNat then 0 else 1) ∧
    Pushes .gt s (s.pc + 1) rest (if a.toNat > b.toNat then 0 else 1) ∧
    Pushes .ge s (s.pc + 1) rest (if a.toNat ≥ b.toNat then 0 else 1)) ∧
  (∀ (i : Instr) (s : State), i.op ∈ Op.cmpOps → s.stack.length < 2 → Raises i s .stackUnderflow none) ∧
  ∀ o ∈ Op.cmpOps, o.isImm = false

/-! ## Jumps (45_branch.md) -/

/-- R200: JZ: only 0 jumps, the immediate is read whether or not the jump is taken, the flag is popped first, and a
target at or beyond CODE_LEN ends the run (D11). -/
def Obligations.JzJumpsOnZeroOnly : Prop :=
  ∀ s : State,
    (∀ flag rest d, s.stack = flag :: rest → exec (.jz (some d)) s =
      .next { s.completed (if flag = 0 then d.toNat else s.pc + 2) with stack := rest }) ∧
    (∀ v, s.stack = [] → Raises (.jz v) s .stackUnderflow none) ∧
    (s.stack ≠ [] → Raises (.jz none) s .streamExhausted none) ∧
    (∀ rest d t, s.stack = 0 :: rest → s.fault = none → exec (.jz (some d)) s = .next t →
      s.code.length ≤ d.toNat → t.status = .done s.exitCode) ∧
    ∀ c d, encode c (.jz (some d)) = [0x20, d]

/-- R201: JMZ is unconditional and touches no stack; to its own address it stays where it is; a target at or beyond
CODE_LEN ends the run (D11). -/
def Obligations.JmzJumpsAlways : Prop :=
  ∀ s : State,
    (∀ d, exec (.jmz (some d)) s = .next (s.completed d.toNat)) ∧
    Raises (.jmz none) s .streamExhausted none ∧
    (∀ d t, s.fault = none → exec (.jmz (some d)) s = .next t → s.code.length ≤ d.toNat →
      t.status = .done s.exitCode) ∧
    ∀ c d, encode c (.jmz (some d)) = [0x21, d]

/-! ## Memory operations (46_memory_ops.md) -/

/-- R210: STORE: the value is popped before the address; the cell holds the value, every other cell is as before, and
nothing else changes. -/
def Obligations.StoreWritesTheCell : Prop :=
  ∀ s : State,
    (∀ v a rest, s.stack = v :: a :: rest →
      ∃ m, exec .store s = .next { s.completed (s.pc + 1) with stack := rest, mem := m } ∧
        m.read (dataAddr a) = some v ∧ ∀ b, b ≠ dataAddr a → m.read b = s.mem.read b) ∧
    (s.stack.length < 2 → Raises .store s .stackUnderflow none) ∧
    ∀ c, encode c .store = [0x30]

/-- R211: LOAD: the byte the cell holds, or UninitializedMemory with the address where it is EMPTY (that the
fault carries the address is the spec's reading, log entry 16). -/
def Obligations.LoadPushesTheCell : Prop :=
  ∀ s : State, s.stack.length ≤ 256 →
    (∀ a rest v, s.stack = a :: rest → s.mem.read a.toNat = some v →
      exec .load s = .next { s.completed (s.pc + 1) with stack := v :: rest }) ∧
    (∀ a rest, s.stack = a :: rest → s.mem.read a.toNat = none →
      Raises .load s .uninitializedMemory (some a)) ∧
    (s.stack = [] → Raises .load s .stackUnderflow none) ∧
    ∀ c, encode c .load = [0x31]

/-- R212: STOREI; StackUnderflow before StreamExhausted is decision D9. -/
def Obligations.StoreiWritesTheImmediateCell : Prop :=
  ∀ s : State,
    (∀ v rest a, s.stack = v :: rest →
      ∃ m, exec (.storei (some a)) s = .next { s.completed (s.pc + 2) with stack := rest, mem := m } ∧
        m.read (dataAddr a) = some v ∧ ∀ b, b ≠ dataAddr a → m.read b = s.mem.read b) ∧
    (∀ a, s.stack = [] → Raises (.storei a) s .stackUnderflow none) ∧
    (s.stack ≠ [] → Raises (.storei none) s .streamExhausted none) ∧
    ∀ c a, encode c (.storei (some a)) = [0x32, a]

/-- R213: LOADI; the order of its three faults is the spec's own inference from the pseudocode. -/
def Obligations.LoadiPushesTheImmediateCell : Prop :=
  ∀ s : State,
    (∀ a v, s.mem.read a.toNat = some v → s.stack.length < 256 →
      exec (.loadi (some a)) s = .next { s.completed (s.pc + 2) with stack := v :: s.stack }) ∧
    Raises (.loadi none) s .streamExhausted none ∧
    (∀ a, s.mem.read a.toNat = none → Raises (.loadi (some a)) s .uninitializedMemory (some a)) ∧
    (∀ a v, s.mem.read a.toNat = some v → 256 ≤ s.stack.length →
      Raises (.loadi (some a)) s .stackOverflow none) ∧
    ∀ c a, encode c (.loadi (some a)) = [0x33, a]

/-- R60: at every point of a run from a load, LOAD and LOADI of an address give the byte of the most recent STORE or
STOREI to it in program order, and raise UninitializedMemory if there is none. That the host may answer its input
port in between, and how, is log entry 7; and the point after a fault, which R60 does not speak of, rests on
decision D7 (log entry 6): the memory is the one before the faulting instruction. -/
def Obligations.MemoryHoldsTheMostRecentStore : Prop :=
  ∀ cfg ports image s l t, load cfg ports image = .accept s → Run s l t →
    (∀ a, t.mem.read a = latestStore a l) ∧
    ∀ a : Byte,
      (∀ v, latestStore a.toNat l = some v →
        (∀ rest, t.stack = a :: rest →
          exec .load t = .next { t.completed (t.pc + 1) with stack := v :: rest }) ∧
        (t.stack.length < 256 →
          exec (.loadi (some a)) t = .next { t.completed (t.pc + 2) with stack := v :: t.stack })) ∧
      (latestStore a.toNat l = none →
        (∀ rest, t.stack = a :: rest → ∃ info, Raises .load t .uninitializedMemory info) ∧
        ∃ info, Raises (.loadi (some a)) t .uninitializedMemory info)

/-- R60 as a rule of one step, from any state: if every cell holds the latest store of a history `l` to it, then after
the step every cell holds the latest store of that history with the step added. A step that faults or waits adds a
state that stores nothing (after a fault that is D7, log entry 6). -/
def Obligations.StepKeepsTheStoreHistory : Prop :=
  ∀ s t l, (∀ a, s.mem.read a = latestStore a l) → step s = .next t →
    ∀ a, t.mem.read a = latestStore a (s :: l)

/-- R28: no operation turns a written cell back to EMPTY, and only STORE and STOREI change a cell (after a step that faults
that is D7, log entry 6). -/
def Obligations.WrittenCellsStayWritten : Prop :=
  ∀ s t a, step s = .next t →
    (s.mem.read a ≠ none → t.mem.read a ≠ none) ∧
    (t.mem.read a ≠ s.mem.read a → ∃ v, storeOf s = some (a, v))

/-! ## Call, return and halt (47_call_return_halt.md) -/

/-- R220: CALL pushes the address of its own immediate byte and jumps; the operand stack is untouched; the missing
immediate is noticed before a full call stack; a target at or beyond CODE_LEN ends the run, with DONE (decision D11,
log entry 19), with the return address pushed. -/
def Obligations.CallPushesItsImmediateAddress : Prop :=
  ∀ s : State,
    (∀ d, s.calls.length < 256 → exec (.call (some d)) s =
      .next { s.completed d.toNat with calls := (s.pc + 1) :: s.calls }) ∧
    (∀ d, 256 ≤ s.calls.length → Raises (.call (some d)) s .callStackOverflow none) ∧
    Raises (.call none) s .streamExhausted none ∧
    (∀ d t, s.calls.length < 256 → s.fault = none → exec (.call (some d)) s = .next t →
      s.code.length ≤ d.toNat → t.status = .done s.exitCode ∧ t.calls = (s.pc + 1) :: s.calls) ∧
    ∀ c d, encode c (.call (some d)) = [0x40, d]

/-- R221: RET: the cycle's advance follows, so `pc` is the popped address plus 1 (C1); the operand stack is untouched;
if that is at or beyond CODE_LEN the run ends with DONE (decision D11, log entry 19). -/
def Obligations.RetResumesAfterTheCall : Prop :=
  ∀ s : State,
    (∀ r rest, s.calls = r :: rest → exec .ret s = .next { s.completed (r + 1) with calls := rest }) ∧
    (s.calls = [] → Raises .ret s .callStackUnderflow none) ∧
    (∀ r rest t, s.calls = r :: rest → s.fault = none → exec .ret s = .next t → s.code.length ≤ r + 1 →
      t.status = .done s.exitCode) ∧
    ∀ c, encode c .ret = [0x41]

/-- R220, R221, R223 together: a Call, then a Ret once the callee has left the call stack as the Call made it,
resumes at the instruction after the Call. -/
def Obligations.CallThenRetComesBack : Prop :=
  ∀ (s : State) (d : Byte), s.calls.length < 256 →
    ∃ t, exec (.call (some d)) s = .next t ∧ t.pc = d.toNat ∧
      ∀ u : State, u.calls = t.calls → ∃ w, exec .ret u = .next w ∧ w.pc = s.pc + 2 ∧ w.calls = s.calls

/-- R222: FIN never fails; that `pc` ends one byte on is decision D13. -/
def Obligations.FinHaltsWithCodeZero : Prop :=
  ∀ s : State, exec .fin s = .next { s.completed (s.pc + 1) with halted := true, exitCode := 0 } ∧
    ∀ c, encode c .fin = [0xFF]

/-! ## SysCall (41_syscall.md) -/

/-- R142, selector 0: the byte read, or 0 at end of input; an I/O failure raises SyscallIo. That the answer is the next
of the pending ones is log entry 7, and the record of the transaction is log entry 9, both the model's choice. -/
def Obligations.SyscallReadPushesTheInput : Prop :=
  ∀ (s : State) (rest : List Byte), s.stack = 0 :: rest → s.stack.length ≤ 256 →
    (∀ b more, s.inputs = .byte b :: more → exec .syscall s = .next
      { s.completed (s.pc + 1) with
        stack := b :: rest, inputs := more, trace := s.trace ++ [.input (.byte b)] }) ∧
    (∀ more, s.inputs = .eof :: more → exec .syscall s = .next
      { s.completed (s.pc + 1) with stack := 0 :: rest, inputs := more, trace := s.trace ++ [.input .eof] }) ∧
    (∀ more, s.inputs = .ioError :: more → Raises .syscall s .syscallIo none)

/-- R143, R37 (D16; how the model holds an outstanding transaction is log entry 7): with no answer pending the block goes
to WAITING with its state unchanged and takes no step there; and any answer the host then gives leaves the state that
SYSCALL leaves where that answer was pending when it began. -/
def Obligations.SyscallReadWaitsForAnAnswer : Prop :=
  ∀ (s : State) (rest : List Byte), s.stack = 0 :: rest → s.inputs = [] →
    exec .syscall s = .next { s with ipc := s.pc, redirect := false, waiting := true } ∧
    ∀ t, exec .syscall s = .next t → Active s →
      t.status = .waiting ∧ step t = .fault .runWaits ∧
      ∀ a, exec .syscall (s.queueInput a) = .next (t.deliverInput a)

/-- R144, selector 1 (that a write may fail is D17): one output transaction carrying the byte unchanged. -/
def Obligations.SyscallWriteSendsTheByte : Prop :=
  ∀ s : State,
    (∀ b rest, s.stack = 1 :: b :: rest → s.outAnswer = .ok → exec .syscall s = .next
      { s.completed (s.pc + 1) with
        stack := rest, outAnswers := s.outAnswers.tail, trace := s.trace ++ [.output b .ok] }) ∧
    (∀ b rest, s.stack = 1 :: b :: rest → s.outAnswer = .ioError → ∃ t p, exec .syscall s = .next t ∧
      t.fault = some { kind := .syscallIo, info := none, pc := p } ∧
      t.trace = s.trace ++ [.output b .ioError]) ∧
    (s.stack = [1] → ∃ t p, exec .syscall s = .next t ∧
      t.fault = some { kind := .stackUnderflow, info := none, pc := p } ∧ t.trace = s.trace)

/-- R145, selector 2 (what a snapshot holds and that it may fail is D18): the snapshot is the stack after the selector's
pop, from bottom to top, and the memory; nothing else changes. -/
def Obligations.SyscallDumpSendsTheSnapshot : Prop :=
  ∀ (s : State) (rest : List Byte), s.stack = 2 :: rest →
    (s.dumpAnswer = .ok → exec .syscall s = .next
      { s.completed (s.pc + 1) with
        stack := rest, dumpAnswers := s.dumpAnswers.tail
        trace := s.trace ++ [.dump rest.reverse s.mem .ok] }) ∧
    (s.dumpAnswer = .ioError → Raises .syscall s .syscallIo none)

/-- R147, selector 3: the exit code, the halted flag, and the end of the run; that `pc` ends one byte on is D13. -/
def Obligations.SyscallExitHaltsWithTheByte : Prop :=
  ∀ s : State,
    (∀ b rest, s.stack = 3 :: b :: rest → exec .syscall s = .next
      { s.completed (s.pc + 1) with stack := rest, halted := true, exitCode := b }) ∧
    (∀ b rest t, s.stack = 3 :: b :: rest → s.fault = none → exec .syscall s = .next t →
      t.status = .done b ∧ step t = .fault (.runDone b)) ∧
    (s.stack = [3] → Raises .syscall s .stackUnderflow none)

/-- R148 and R140's first fault: any other selector raises UnexpectedSyscall carrying it, whatever lies below it (so
nothing further is popped) and with no port transaction. -/
def Obligations.OtherSelectorsAreUnexpected : Prop :=
  ∀ s : State,
    (∀ sel rest, s.stack = sel :: rest → 4 ≤ sel.toNat → ∃ t p, exec .syscall s = .next t ∧
      t.fault = some { kind := .unexpectedSyscall, info := some sel, pc := p } ∧ t.trace = s.trace) ∧
    (s.stack = [] → Raises .syscall s .stackUnderflow none)

/-- R61: port transactions happen in program order, at most one per step, only in a SYSCALL, and each with the
selector's own content; they take the host's answers in order. An answer the host gives to a block that waits ends
its one outstanding input transaction, and any other answer is kept after those before it (log entry 7). -/
def Obligations.PortTransactionsAreInProgramOrder : Prop :=
  (∀ s t, step s = .next t →
    (t.trace = s.trace ∧ t.inputs = s.inputs ∧ t.outAnswers = s.outAnswers ∧ t.dumpAnswers = s.dumpAnswers) ∨
    ∃ more sel rest, decode s.cfg (s.code.drop s.pc) = .ok (.syscall, more) ∧ s.stack = sel :: rest ∧
      ((sel = 0 ∧ ∃ a, s.inputs = a :: t.inputs ∧ t.trace = s.trace ++ [.input a] ∧
          t.outAnswers = s.outAnswers ∧ t.dumpAnswers = s.dumpAnswers) ∨
       (sel = 1 ∧ ∃ b below, rest = b :: below ∧ t.trace = s.trace ++ [.output b s.outAnswer] ∧
          t.inputs = s.inputs ∧ t.outAnswers = s.outAnswers.tail ∧ t.dumpAnswers = s.dumpAnswers) ∨
       (sel = 2 ∧ t.trace = s.trace ++ [.dump rest.reverse s.mem s.dumpAnswer] ∧
          t.inputs = s.inputs ∧ t.outAnswers = s.outAnswers ∧ t.dumpAnswers = s.dumpAnswers.tail))) ∧
  (∀ (s : State) a rest, s.status = .waiting → s.stack = 0 :: rest → s.inputs = [] →
    (s.deliverInput a).trace = s.trace ++ [.input a] ∧ (s.deliverInput a).inputs = [] ∧
    (s.deliverInput a).outAnswers = s.outAnswers ∧ (s.deliverInput a).dumpAnswers = s.dumpAnswers) ∧
  ∀ (s : State) a, s.status ≠ .waiting → s.deliverInput a = { s with inputs := s.inputs ++ [a] }

/-! ## Faults (60_exceptions.md) -/

/-- R235, with the kinds and `info` of R230 (the order for the immediate forms is D9, log entry 17, the zero test
after the operands D10; that UninitializedMemory carries the address and UnexpectedSyscall the selector is the spec's
own reading, log entry 16): the fault an instruction raises is the first row of its table that applies, and it raises
none if no row does; the fetch's InvalidOpcode precedes everything. -/
def Obligations.FirstApplicableFaultIsRaised : Prop :=
  (∀ i s t, s.stack.length ≤ 256 → s.fault = none → exec i s = .next t →
    (t.fault.map fun r => (r.kind, r.info)) = firstFault (faultTable i s)) ∧
  ∀ s b rest t, s.code.drop s.pc = b :: rest → opAt s.cfg b = none → step s = .next t →
    (t.fault.map fun r => (r.kind, r.info)) = some (.invalidOpcode, some b)

/-- R236, R126, R146 (that the state is precise after a fault is D7): a faulting step changes the fault register and the
cycle's latches, and the ports and their record only where a port answered IoError. R25's bound rules out stacks no
run reaches. -/
def Obligations.FaultEntryRestoresTheState : Prop :=
  ∀ s t r, s.stack.length ≤ 256 → step s = .next t → t.fault = some r →
    t = { s with
      ipc := s.pc, redirect := false, waiting := false, fault := some r
      inputs := t.inputs, outAnswers := t.outAnswers, dumpAnswers := t.dumpAnswers, trace := t.trace } ∧
    (r.kind ≠ .syscallIo → t.inputs = s.inputs ∧ t.outAnswers = s.outAnswers ∧
      t.dumpAnswers = s.dumpAnswers ∧ t.trace = s.trace) ∧
    t.status = .faulted r

/-- R233, R234 (the modes are D6): the reported `pc` is the opcode's address; under `current` it is one more where the
fault is raised after `imm()`, which is every fault of an `OP_IMM` instruction but the underflow of JZ and STOREI,
which pop first. -/
def Obligations.ReportedPcFollowsTheMode : Prop :=
  ∀ s t r, step s = .next t → t.fault = some r →
    (∀ b, decode s.cfg (s.code.drop s.pc) = .error (.invalidOpcode b) → r.pc = s.pc) ∧
    ∀ i rest, decode s.cfg (s.code.drop s.pc) = .ok (i, rest) →
      r.pc = match s.cfg.faultPcMode with
        | .opcode => s.pc
        | .current =>
          if i.op.isImm = true ∧ ¬(r.kind = .stackUnderflow ∧ (i.op = .jz ∨ i.op = .storei)) then s.pc + 1
          else s.pc

/-! ## Rules of the whole machine -/

/-- R26, with R25's "no operation reads or writes an entry below the top two": what an instruction that neither faults
nor waits pops and pushes; the entries below are the ones that were there. -/
def Obligations.StackEffectsAreThoseOfTheTable : Prop :=
  ∀ i s t, s.fault = none → exec i s = .next t → t.fault = none → t.waiting = false →
    (stackEffect i s).1 ≤ s.stack.length ∧
    t.stack.length + (stackEffect i s).1 = s.stack.length + (stackEffect i s).2 ∧
    t.stack.drop (stackEffect i s).2 = s.stack.drop (stackEffect i s).1

/-- R25: an instruction does not see the entries below those it works on: it does the same above any `base`. SYSCALL is
left out, since selector 2 sends the whole stack to the sink (R145). -/
def Obligations.EntriesBelowAreNotSeen : Prop :=
  ∀ i s t (base : List Byte), i ≠ .syscall → s.fault = none → exec i s = .next t → t.fault = none →
    s.stack.length + base.length ≤ 256 → t.stack.length + base.length ≤ 256 →
    exec i { s with stack := s.stack ++ base } = .next { t with stack := t.stack ++ base }

/-- R29, R30: the two flags: their reset values, their only writers (the last clause but two is the fetch of an
unmapped byte), what they end the run with, and that no instruction reads them. That an ended run stops `step` is log
entry 5, that `pc` at or beyond CODE_LEN is DONE is D11 (log entry 19) where a jump or a return leads there, and
that an instruction that faults leaves both flags is D7 (log entry 6). -/
def Obligations.HaltedAndExitCodeHaveTwoWriters : Prop :=
  (∀ cfg ports image s, load cfg ports image = .accept s → s.halted = false ∧ s.exitCode = 0) ∧
  (∀ i s t, exec i s = .next t →
    (i = .fin → t.halted = true ∧ t.exitCode = 0) ∧
    (∀ b rest, i = .syscall → s.stack = 3 :: b :: rest → t.halted = true ∧ t.exitCode = b) ∧
    (i ≠ .fin → ¬(i = .syscall ∧ ∃ b rest, s.stack = 3 :: b :: rest) →
      t.halted = s.halted ∧ t.exitCode = s.exitCode)) ∧
  (∀ s b rest t, s.code.drop s.pc = b :: rest → opAt s.cfg b = none → step s = .next t →
    t.halted = s.halted ∧ t.exitCode = s.exitCode) ∧
  (∀ s : State, s.fault = none → s.halted = true ∨ s.code.length ≤ s.pc →
    s.status = .done s.exitCode ∧ step s = .fault (.runDone s.exitCode)) ∧
  ∀ i s t h e, exec i s = .next t → ∃ u, exec i { s with halted := h, exitCode := e } = .next u ∧
    t = { u with halted := t.halted, exitCode := t.exitCode }

/-- R34, R35, R64, R9: no step and no answer of the host changes the instruction stream or the parameters. -/
def Obligations.CodeAndParametersAreReadOnly : Prop :=
  ∀ s l t, Run s l t → t.code = s.code ∧ t.cfg = s.cfg

/-- R31, R238: the fault register is written at most once: only a step from NONE writes it, and after it is written no
step follows; what a host may still answer is kept and does nothing else (log entry 7). -/
def Obligations.FaultRegisterIsWrittenAtMostOnce : Prop :=
  (∀ s t, step s = .next t → s.fault = none) ∧
  ∀ s l t r, Run s l t → s.fault = some r → l = [] ∧ t = { s with inputs := t.inputs }

/-! ## Frames -/

/-- The operations that work on the operand stack alone. -/
def Sys2Proof.Machine.stackOps : List Op := [.push, .pop, .dup, .swap] ++ Op.arithOps ++ Op.cmpOps

/-- The state outside `pc`, the operand stack, the call stack, the memory, the flags, the fault register and the
cycle's latches is the same. -/
def Sys2Proof.Machine.SamePorts (s t : State) : Prop :=
  t.code = s.code ∧ t.cfg = s.cfg ∧ t.inputs = s.inputs ∧ t.outAnswers = s.outAnswers ∧
  t.dumpAnswers = s.dumpAnswers ∧ t.trace = s.trace

/-- The fault register is unchanged, or it holds the fault the instruction raised and the stacks are as they were
(after a fault that is decision D7, log entry 6). -/
def Sys2Proof.Machine.FaultOrSame (s t : State) : Prop :=
  t.fault = s.fault ∨ (t.fault.isSome = true ∧ t.pc = s.pc ∧ t.stack = s.stack ∧ t.calls = s.calls)

/-- R21, R26, R32: PUSH, POP, DUP, SWAP, the arithmetic and the comparisons change only `pc`, the operand stack, the
latches, and the fault register where they raise. -/
def Obligations.StackOperationsFrame : Prop :=
  ∀ i s t, i.op ∈ stackOps → exec i s = .next t →
    t.calls = s.calls ∧ (∀ a, t.mem.read a = s.mem.read a) ∧ t.halted = s.halted ∧ t.exitCode = s.exitCode ∧
    t.ipc = s.pc ∧ t.redirect = false ∧ t.waiting = false ∧ SamePorts s t ∧ FaultOrSame s t

/-- R200, R201, R220, R221, R223: the jumps, CALL and RET: no cell, flag or port changes; JZ alone pops the operand
stack, CALL and RET alone change the call stack. -/
def Obligations.ControlTransferFrame : Prop :=
  ∀ i s t, i.op ∈ [Op.jz, Op.jmz, Op.call, Op.ret] → exec i s = .next t →
    (∀ a, t.mem.read a = s.mem.read a) ∧ t.halted = s.halted ∧ t.exitCode = s.exitCode ∧
    t.ipc = s.pc ∧ t.redirect = false ∧ t.waiting = false ∧ SamePorts s t ∧ FaultOrSame s t ∧
    (i.op = .jz → t.calls = s.calls ∧ (t.stack = s.stack ∨ t.stack = s.stack.tail)) ∧
    (i.op = .jmz → t.calls = s.calls ∧ t.stack = s.stack) ∧
    (i.op = .call → t.stack = s.stack ∧ (t.calls = s.calls ∨ t.calls = (s.pc + 1) :: s.calls)) ∧
    (i.op = .ret → t.stack = s.stack ∧ (t.calls = s.calls ∨ t.calls = s.calls.tail))

/-- R210, R212: STORE and STOREI change only `pc`, the operand stack, the latches, the fault register where they raise,
and the one cell whose address they compute; a form that raises stores nothing. -/
def Obligations.StoresFrame : Prop :=
  ∀ i s t, i.op = .store ∨ i.op = .storei → exec i s = .next t →
    t.calls = s.calls ∧ t.halted = s.halted ∧ t.exitCode = s.exitCode ∧
    t.ipc = s.pc ∧ t.redirect = false ∧ t.waiting = false ∧ SamePorts s t ∧ FaultOrSame s t ∧
    (∀ v a rest, i = .store → s.stack = v :: a :: rest →
      ∀ b, b ≠ dataAddr a → t.mem.read b = s.mem.read b) ∧
    (∀ a, i = .storei (some a) → ∀ b, b ≠ dataAddr a → t.mem.read b = s.mem.read b) ∧
    (i = .store → s.stack.length < 2 → ∀ b, t.mem.read b = s.mem.read b) ∧
    (i = .storei none ∨ (i.op = .storei ∧ s.stack = []) → ∀ b, t.mem.read b = s.mem.read b)

/-- R211, R213: LOAD and LOADI change only `pc`, the operand stack, the latches, and the fault register where they
raise. -/
def Obligations.LoadsFrame : Prop :=
  ∀ i s t, i.op = .load ∨ i.op = .loadi → exec i s = .next t →
    t.calls = s.calls ∧ (∀ a, t.mem.read a = s.mem.read a) ∧ t.halted = s.halted ∧ t.exitCode = s.exitCode ∧
    t.ipc = s.pc ∧ t.redirect = false ∧ t.waiting = false ∧ SamePorts s t ∧ FaultOrSame s t

/-- R222, R140 to R148: FIN changes `pc`, the latches and the two flags; SYSCALL changes no cell, no return address and,
where it completes, nothing of the stack below the entries R26 gives its selector, and where it waits nothing of the
stack; and each selector changes only its own port or the two flags. -/
def Obligations.FinAndSyscallFrame : Prop :=
  ∀ i s t, i = .fin ∨ i = .syscall → exec i s = .next t →
    t.calls = s.calls ∧ (∀ a, t.mem.read a = s.mem.read a) ∧ t.code = s.code ∧ t.cfg = s.cfg ∧
    t.ipc = s.pc ∧ t.redirect = false ∧
    (i = .fin → t.stack = s.stack ∧ t.fault = s.fault ∧ t.waiting = false ∧ SamePorts s t) ∧
    (i = .syscall → FaultOrSame s t ∧
      (s.fault = none → t.fault = none → t.waiting = false →
        (stackEffect .syscall s).1 ≤ s.stack.length ∧
        t.stack.length + (stackEffect .syscall s).1 = s.stack.length + (stackEffect .syscall s).2 ∧
        t.stack.drop (stackEffect .syscall s).2 = s.stack.drop (stackEffect .syscall s).1) ∧
      (t.waiting = true → t.stack = s.stack) ∧
      (s.stack.head? ≠ some 0 → t.inputs = s.inputs ∧ t.waiting = false) ∧
      (s.stack.head? ≠ some 1 → t.outAnswers = s.outAnswers) ∧
      (s.stack.head? ≠ some 2 → t.dumpAnswers = s.dumpAnswers) ∧
      (s.stack.head? ≠ some 3 → t.halted = s.halted ∧ t.exitCode = s.exitCode) ∧
      (∀ sel, s.stack.head? = some sel → 3 ≤ sel.toNat → SamePorts s t))

/-! ## Invariants -/

/-- The invariant holds at reset (R39, R262). It reads `redirect` and `waiting` in State.reset too, whose values there
the spec does not state: they are the DESIGN CHOICE of log entry 11. -/
def Obligations.ResetMeetsTheInvariant : Prop := RunInvariant State.reset

/-- R25, R27, R28, R30, R31, R36, R37, R74, R220: every step keeps the invariant: the stacks within their bounds, the
return addresses in the stream, the memory in canonical form, the redirect signal consumed, `exit_code` 0 until the
run halts, `pc` within reach, an outstanding input transaction only inside a SYSCALL with selector 0 that has no answer,
and a fault record with `info` where its kind carries one. It rests on log entries 6 (the state a fault
leaves, D7), 1 (`pc` is not cut at CODE_LEN, so a one-byte target may leave it up to 255 where R23 speaks of
CODE_LEN), 7 (how a wait is held) and 16 (which kinds carry `info`). -/
def Obligations.StepKeepsTheInvariant : Prop :=
  ∀ s t, RunInvariant s → step s = .next t → RunInvariant t

/-- R127, R128: every state of a run, with the host answering in between, meets the invariant; so a run that ends at
the end of the stream answers DONE(0). It rests on log entries 6 (the state a fault leaves, D7), 7 (a wait and the
host's answer) and 11 (the latches after a load), as the invariant does. -/
def Obligations.ReachableStatesMeetTheInvariant : Prop :=
  ∀ s, Reachable s → RunInvariant s ∧ ∀ c, s.status = .done c → s.halted = false → c = 0

/-- R149 (D26): under the launch premises a step neither waits nor raises SyscallIo, and the premises hold after it,
with the input advanced by at most one byte. -/
def Obligations.LaunchPremisesRuleOutPortFaults : Prop :=
  ∀ input n s t, LaunchPremises input (n + 1) s → step s = .next t →
    t.waiting = false ∧ (∀ r, t.fault = some r → r.kind ≠ .syscallIo) ∧
    ∃ input', (input' = input ∨ ∃ b, input = b :: input') ∧ LaunchPremises input' n t

/-! ## The assembler (30_encoding.md, toolchain) -/

/-- R97, R86, R98: an image the resolver gives is the magic header and one byte for each token that is no label
definition; the loader accepts it; and a reference to a label nobody defines gives no image. -/
def Obligations.ResolvedImageHasOneByteATokenAndLoads : Prop :=
  ∀ cfg policy ts image, resolve cfg policy ts = .ok image →
    image.length = 4 + emitted ts ∧ image.take 4 = [0x00, 0x54, 0x57, 0x4E] ∧
    (∀ cfg' ports, ∃ s, load cfg' ports image = .accept s ∧ s.code.length = emitted ts) ∧
    ∀ t ∈ ts, ∀ name, t.kind = .labelRef name → ∃ d ∈ ts, d.kind = .labelDef name

/-- R96, R97, R99 (last wins, D22), R101: a label reference emits the address of the label's last definition modulo 256,
whether the definition stands before or after the reference. -/
def Obligations.LabelReferenceEmitsTheLabelAddress : Prop :=
  ∀ cfg ts image before after line name, resolve cfg .lastWins ts = .ok image →
    ts = before ++ { kind := .labelRef name, line := line } :: after →
    ∃ upTo line' beyond, ts = upTo ++ { kind := .labelDef name, line := line' } :: beyond ∧
      (∀ d ∈ beyond, d.kind ≠ .labelDef name) ∧
      image[4 + emitted before]? = some (BitVec.ofNat 8 (emitted upTo))
end

