-- ==== Sys2Proof/Laws/Decode.lean ====
section
/-! SUPPORT. The laws of the opcode ROM, the decoder and the encoder. -/

namespace Sys2Proof

@[simp] theorem Op.op_instr (o : Op) (v : Option Byte) : (o.instr v).op = o := by cases o <;> rfl

theorem Op.ofId_id (o : Op) : Op.ofId o.id = some o := by cases o <;> rfl

theorem Op.id_lt (o : Op) : o.id < 30 := by cases o <;> decide

@[simp] theorem romValid_romWord_some (o : Op) : romValid (romWord (some o)) = true := by cases o <;> decide

@[simp] theorem romHasImm_romWord_some (o : Op) : romHasImm (romWord (some o)) = o.isImm := by
  cases o <;> decide

@[simp] theorem romOpId_romWord_some (o : Op) : romOpId (romWord (some o)) = o.id := by cases o <;> decide

@[simp] theorem romValid_romWord_none : romValid (romWord none) = false := by decide

/-- The instruction built from an operation and its immediate, taken apart. -/
theorem Instr.instr_op (i : Instr) : i.op.instr i.immediate = i := by cases i <;> rfl

theorem Op.immediate_instr (o : Op) (v : Option Byte) :
    (o.instr v).immediate = if o.isImm then v else none := by cases o <;> rfl

/-- A whole instruction carries an immediate exactly if its format has one. -/
theorem Instr.wf_iff (i : Instr) : i.wf = (i.op.isImm == i.immediate.isSome) := by
  cases i <;> simp [Instr.wf, Instr.op, Op.isImm, Instr.immediate]

/-- The decoder by the operation of the opcode byte (R72, R75, R84). -/
theorem decode_cons (c : Config) (b : Byte) (rest : List Byte) :
    decode c (b :: rest) =
      match opAt c b with
      | none => .error (.invalidOpcode b)
      | some o => if o.isImm then .ok (o.instr rest.head?, rest.tail) else .ok (o.instr none, rest) := by
  cases h : opAt c b with
  | none => simp [decode, rom, h]
  | some o => simp [decode, rom, h, Op.ofId_id]

/-- The decoder reads no more than an instruction has. -/
theorem decode_take (c : Config) (bs : List Byte) (i : Instr) (rest : List Byte)
    (h : decode c bs = .ok (i, rest)) : ∃ r, decode c (bs.take maxLength) = .ok (i, r) := by
  cases bs with
  | nil => simp [decode] at h
  | cons b bs =>
    rw [decode_cons] at h
    simp only [maxLength, List.take_succ_cons, decode_cons]
    cases ho : opAt c b with
    | none => simp [ho] at h
    | some o =>
      simp only [ho] at h ⊢
      cases bs with
      | nil => split at h <;> simp_all
      | cons v bs => split at h <;> simp_all

/-- `ARITH_CODES` and `CMP_CODES` of a well-formed record list the two families without repeats. -/
theorem Config.wf_iff (c : Config) :
    c.wf = true ↔ c.arithCodes.Perm Op.arithOps ∧ c.cmpCodes.Perm Op.cmpOps := by
  simp [Config.wf, List.isPerm_iff]

theorem Config.default_wf : Config.default.wf = true := by decide

end Sys2Proof
end

