-- ==== Sys2Proof/Laws/Memory.lean ====
section
/-! SUPPORT. The laws of the data memory: a read after a write, and the canonical form. -/

namespace Sys2Proof.Machine

theorem Memory.read_write (m : Memory) (a b : Nat) (v : Byte) :
    (m.write a v).read b = if a = b then some v else m.read b := by
  induction m with
  | nil => simp [Memory.write, Memory.read]
  | cons c m ih =>
    obtain ⟨k, w⟩ := c
    by_cases h1 : a < k
    · simp [Memory.write, Memory.read, h1]
    · by_cases h2 : a = k
      · subst h2
        simp [Memory.write, Memory.read]
        split <;> simp_all
      · simp only [Memory.write, h1, h2, if_false, Memory.read, ih]
        split <;> split <;> simp_all

/-- The addresses listed after a write are the written one and those listed before. -/
theorem Memory.mem_keys_write (m : Memory) (a b : Nat) (v : Byte) :
    b ∈ List.map Prod.fst (m.write a v) → b = a ∨ b ∈ List.map Prod.fst m := by
  induction m with
  | nil => simp [Memory.write]
  | cons c m ih =>
    obtain ⟨k, w⟩ := c
    simp only [Memory.write]
    split
    · simp
    · split
      · rename_i h; subst h; simp only [List.map_cons, List.mem_cons]; exact fun h => h.elim .inl fun h => .inr (.inr h)
      · simp only [List.map_cons, List.mem_cons]
        rintro (h | h)
        · exact .inr (.inl h)
        · rcases ih h with h | h <;> simp [h]

/-- Every write keeps the canonical form. -/
theorem Memory.wf_write {m : Memory} (h : m.wf) {a : Nat} (ha : a < memCells) (v : Byte) :
    (m.write a v).wf := by
  refine ⟨?_, fun b hb => ?_⟩
  · obtain ⟨h1, -⟩ := h
    induction m with
    | nil => simp [Memory.write]
    | cons c m ih =>
      obtain ⟨k, w⟩ := c
      simp only [List.map_cons, List.pairwise_cons] at h1
      simp only [Memory.write]
      split
      · rename_i hlt
        simp only [List.map_cons, List.pairwise_cons, List.mem_cons]
        exact ⟨fun x hx => hx.elim (fun e => e ▸ hlt) fun hx => Nat.lt_trans hlt (h1.1 x hx), h1⟩
      · split
        · rename_i he; subst he; simpa using h1
        · rename_i hn he
          simp only [List.map_cons, List.pairwise_cons]
          refine ⟨fun x hx => ?_, ih h1.2⟩
          rcases Memory.mem_keys_write m a x v hx with rfl | hx
          · omega
          · exact h1.1 x hx
  · rcases Memory.mem_keys_write m a b v hb with rfl | hb
    · exact ha
    · exact h.2 b hb

theorem Memory.wf_nil : Memory.wf [] := by decide

end Sys2Proof.Machine
end

