-- ==== Sys2Proof/Laws/State.lean ====
section
/-! SUPPORT. What each update of the state does to each field: one lemma per field per update. -/

namespace Sys2Proof.Machine

/-! ### setPc -/

@[simp] theorem State.setPc_pc (p : Nat) (s : State) : (s.setPc p).pc = p := by rfl
@[simp] theorem State.setPc_ipc (p : Nat) (s : State) : (s.setPc p).ipc = s.ipc := by rfl
@[simp] theorem State.setPc_redirect (p : Nat) (s : State) : (s.setPc p).redirect = s.redirect := by rfl
@[simp] theorem State.setPc_stack (p : Nat) (s : State) : (s.setPc p).stack = s.stack := by rfl
@[simp] theorem State.setPc_calls (p : Nat) (s : State) : (s.setPc p).calls = s.calls := by rfl
@[simp] theorem State.setPc_mem (p : Nat) (s : State) : (s.setPc p).mem = s.mem := by rfl
@[simp] theorem State.setPc_halted (p : Nat) (s : State) : (s.setPc p).halted = s.halted := by rfl
@[simp] theorem State.setPc_exitCode (p : Nat) (s : State) : (s.setPc p).exitCode = s.exitCode := by rfl
@[simp] theorem State.setPc_fault (p : Nat) (s : State) : (s.setPc p).fault = s.fault := by rfl
@[simp] theorem State.setPc_waiting (p : Nat) (s : State) : (s.setPc p).waiting = s.waiting := by rfl
@[simp] theorem State.setPc_code (p : Nat) (s : State) : (s.setPc p).code = s.code := by rfl
@[simp] theorem State.setPc_cfg (p : Nat) (s : State) : (s.setPc p).cfg = s.cfg := by rfl
@[simp] theorem State.setPc_inputs (p : Nat) (s : State) : (s.setPc p).inputs = s.inputs := by rfl
@[simp] theorem State.setPc_outAnswers (p : Nat) (s : State) : (s.setPc p).outAnswers = s.outAnswers := by rfl
@[simp] theorem State.setPc_dumpAnswers (p : Nat) (s : State) : (s.setPc p).dumpAnswers = s.dumpAnswers := by rfl
@[simp] theorem State.setPc_trace (p : Nat) (s : State) : (s.setPc p).trace = s.trace := by rfl

/-! ### jumpTo -/

@[simp] theorem State.jumpTo_pc (t : Nat) (s : State) : (s.jumpTo t).pc = t := by rfl
@[simp] theorem State.jumpTo_ipc (t : Nat) (s : State) : (s.jumpTo t).ipc = s.ipc := by rfl
@[simp] theorem State.jumpTo_redirect (t : Nat) (s : State) : (s.jumpTo t).redirect = true := by rfl
@[simp] theorem State.jumpTo_stack (t : Nat) (s : State) : (s.jumpTo t).stack = s.stack := by rfl
@[simp] theorem State.jumpTo_calls (t : Nat) (s : State) : (s.jumpTo t).calls = s.calls := by rfl
@[simp] theorem State.jumpTo_mem (t : Nat) (s : State) : (s.jumpTo t).mem = s.mem := by rfl
@[simp] theorem State.jumpTo_halted (t : Nat) (s : State) : (s.jumpTo t).halted = s.halted := by rfl
@[simp] theorem State.jumpTo_exitCode (t : Nat) (s : State) : (s.jumpTo t).exitCode = s.exitCode := by rfl
@[simp] theorem State.jumpTo_fault (t : Nat) (s : State) : (s.jumpTo t).fault = s.fault := by rfl
@[simp] theorem State.jumpTo_waiting (t : Nat) (s : State) : (s.jumpTo t).waiting = s.waiting := by rfl
@[simp] theorem State.jumpTo_code (t : Nat) (s : State) : (s.jumpTo t).code = s.code := by rfl
@[simp] theorem State.jumpTo_cfg (t : Nat) (s : State) : (s.jumpTo t).cfg = s.cfg := by rfl
@[simp] theorem State.jumpTo_inputs (t : Nat) (s : State) : (s.jumpTo t).inputs = s.inputs := by rfl
@[simp] theorem State.jumpTo_outAnswers (t : Nat) (s : State) : (s.jumpTo t).outAnswers = s.outAnswers := by rfl
@[simp] theorem State.jumpTo_dumpAnswers (t : Nat) (s : State) : (s.jumpTo t).dumpAnswers = s.dumpAnswers := by rfl
@[simp] theorem State.jumpTo_trace (t : Nat) (s : State) : (s.jumpTo t).trace = s.trace := by rfl

/-! ### setStack -/

@[simp] theorem State.setStack_pc (l : List Byte) (s : State) : (s.setStack l).pc = s.pc := by rfl
@[simp] theorem State.setStack_ipc (l : List Byte) (s : State) : (s.setStack l).ipc = s.ipc := by rfl
@[simp] theorem State.setStack_redirect (l : List Byte) (s : State) : (s.setStack l).redirect = s.redirect := by rfl
@[simp] theorem State.setStack_stack (l : List Byte) (s : State) : (s.setStack l).stack = l := by rfl
@[simp] theorem State.setStack_calls (l : List Byte) (s : State) : (s.setStack l).calls = s.calls := by rfl
@[simp] theorem State.setStack_mem (l : List Byte) (s : State) : (s.setStack l).mem = s.mem := by rfl
@[simp] theorem State.setStack_halted (l : List Byte) (s : State) : (s.setStack l).halted = s.halted := by rfl
@[simp] theorem State.setStack_exitCode (l : List Byte) (s : State) : (s.setStack l).exitCode = s.exitCode := by rfl
@[simp] theorem State.setStack_fault (l : List Byte) (s : State) : (s.setStack l).fault = s.fault := by rfl
@[simp] theorem State.setStack_waiting (l : List Byte) (s : State) : (s.setStack l).waiting = s.waiting := by rfl
@[simp] theorem State.setStack_code (l : List Byte) (s : State) : (s.setStack l).code = s.code := by rfl
@[simp] theorem State.setStack_cfg (l : List Byte) (s : State) : (s.setStack l).cfg = s.cfg := by rfl
@[simp] theorem State.setStack_inputs (l : List Byte) (s : State) : (s.setStack l).inputs = s.inputs := by rfl
@[simp] theorem State.setStack_outAnswers (l : List Byte) (s : State) : (s.setStack l).outAnswers = s.outAnswers := by rfl
@[simp] theorem State.setStack_dumpAnswers (l : List Byte) (s : State) : (s.setStack l).dumpAnswers = s.dumpAnswers := by rfl
@[simp] theorem State.setStack_trace (l : List Byte) (s : State) : (s.setStack l).trace = s.trace := by rfl

/-! ### setCalls -/

@[simp] theorem State.setCalls_pc (l : List Nat) (s : State) : (s.setCalls l).pc = s.pc := by rfl
@[simp] theorem State.setCalls_ipc (l : List Nat) (s : State) : (s.setCalls l).ipc = s.ipc := by rfl
@[simp] theorem State.setCalls_redirect (l : List Nat) (s : State) : (s.setCalls l).redirect = s.redirect := by rfl
@[simp] theorem State.setCalls_stack (l : List Nat) (s : State) : (s.setCalls l).stack = s.stack := by rfl
@[simp] theorem State.setCalls_calls (l : List Nat) (s : State) : (s.setCalls l).calls = l := by rfl
@[simp] theorem State.setCalls_mem (l : List Nat) (s : State) : (s.setCalls l).mem = s.mem := by rfl
@[simp] theorem State.setCalls_halted (l : List Nat) (s : State) : (s.setCalls l).halted = s.halted := by rfl
@[simp] theorem State.setCalls_exitCode (l : List Nat) (s : State) : (s.setCalls l).exitCode = s.exitCode := by rfl
@[simp] theorem State.setCalls_fault (l : List Nat) (s : State) : (s.setCalls l).fault = s.fault := by rfl
@[simp] theorem State.setCalls_waiting (l : List Nat) (s : State) : (s.setCalls l).waiting = s.waiting := by rfl
@[simp] theorem State.setCalls_code (l : List Nat) (s : State) : (s.setCalls l).code = s.code := by rfl
@[simp] theorem State.setCalls_cfg (l : List Nat) (s : State) : (s.setCalls l).cfg = s.cfg := by rfl
@[simp] theorem State.setCalls_inputs (l : List Nat) (s : State) : (s.setCalls l).inputs = s.inputs := by rfl
@[simp] theorem State.setCalls_outAnswers (l : List Nat) (s : State) : (s.setCalls l).outAnswers = s.outAnswers := by rfl
@[simp] theorem State.setCalls_dumpAnswers (l : List Nat) (s : State) : (s.setCalls l).dumpAnswers = s.dumpAnswers := by rfl
@[simp] theorem State.setCalls_trace (l : List Nat) (s : State) : (s.setCalls l).trace = s.trace := by rfl

/-! ### writeCell -/

@[simp] theorem State.writeCell_pc (a : Nat) (v : Byte) (s : State) : (s.writeCell a v).pc = s.pc := by rfl
@[simp] theorem State.writeCell_ipc (a : Nat) (v : Byte) (s : State) : (s.writeCell a v).ipc = s.ipc := by rfl
@[simp] theorem State.writeCell_redirect (a : Nat) (v : Byte) (s : State) : (s.writeCell a v).redirect = s.redirect := by rfl
@[simp] theorem State.writeCell_stack (a : Nat) (v : Byte) (s : State) : (s.writeCell a v).stack = s.stack := by rfl
@[simp] theorem State.writeCell_calls (a : Nat) (v : Byte) (s : State) : (s.writeCell a v).calls = s.calls := by rfl
@[simp] theorem State.writeCell_mem (a : Nat) (v : Byte) (s : State) : (s.writeCell a v).mem = s.mem.write a v := by rfl
@[simp] theorem State.writeCell_halted (a : Nat) (v : Byte) (s : State) : (s.writeCell a v).halted = s.halted := by rfl
@[simp] theorem State.writeCell_exitCode (a : Nat) (v : Byte) (s : State) : (s.writeCell a v).exitCode = s.exitCode := by rfl
@[simp] theorem State.writeCell_fault (a : Nat) (v : Byte) (s : State) : (s.writeCell a v).fault = s.fault := by rfl
@[simp] theorem State.writeCell_waiting (a : Nat) (v : Byte) (s : State) : (s.writeCell a v).waiting = s.waiting := by rfl
@[simp] theorem State.writeCell_code (a : Nat) (v : Byte) (s : State) : (s.writeCell a v).code = s.code := by rfl
@[simp] theorem State.writeCell_cfg (a : Nat) (v : Byte) (s : State) : (s.writeCell a v).cfg = s.cfg := by rfl
@[simp] theorem State.writeCell_inputs (a : Nat) (v : Byte) (s : State) : (s.writeCell a v).inputs = s.inputs := by rfl
@[simp] theorem State.writeCell_outAnswers (a : Nat) (v : Byte) (s : State) : (s.writeCell a v).outAnswers = s.outAnswers := by rfl
@[simp] theorem State.writeCell_dumpAnswers (a : Nat) (v : Byte) (s : State) : (s.writeCell a v).dumpAnswers = s.dumpAnswers := by rfl
@[simp] theorem State.writeCell_trace (a : Nat) (v : Byte) (s : State) : (s.writeCell a v).trace = s.trace := by rfl

/-! ### halt -/

@[simp] theorem State.halt_pc (b : Byte) (s : State) : (s.halt b).pc = s.pc := by rfl
@[simp] theorem State.halt_ipc (b : Byte) (s : State) : (s.halt b).ipc = s.ipc := by rfl
@[simp] theorem State.halt_redirect (b : Byte) (s : State) : (s.halt b).redirect = s.redirect := by rfl
@[simp] theorem State.halt_stack (b : Byte) (s : State) : (s.halt b).stack = s.stack := by rfl
@[simp] theorem State.halt_calls (b : Byte) (s : State) : (s.halt b).calls = s.calls := by rfl
@[simp] theorem State.halt_mem (b : Byte) (s : State) : (s.halt b).mem = s.mem := by rfl
@[simp] theorem State.halt_halted (b : Byte) (s : State) : (s.halt b).halted = true := by rfl
@[simp] theorem State.halt_exitCode (b : Byte) (s : State) : (s.halt b).exitCode = b := by rfl
@[simp] theorem State.halt_fault (b : Byte) (s : State) : (s.halt b).fault = s.fault := by rfl
@[simp] theorem State.halt_waiting (b : Byte) (s : State) : (s.halt b).waiting = s.waiting := by rfl
@[simp] theorem State.halt_code (b : Byte) (s : State) : (s.halt b).code = s.code := by rfl
@[simp] theorem State.halt_cfg (b : Byte) (s : State) : (s.halt b).cfg = s.cfg := by rfl
@[simp] theorem State.halt_inputs (b : Byte) (s : State) : (s.halt b).inputs = s.inputs := by rfl
@[simp] theorem State.halt_outAnswers (b : Byte) (s : State) : (s.halt b).outAnswers = s.outAnswers := by rfl
@[simp] theorem State.halt_dumpAnswers (b : Byte) (s : State) : (s.halt b).dumpAnswers = s.dumpAnswers := by rfl
@[simp] theorem State.halt_trace (b : Byte) (s : State) : (s.halt b).trace = s.trace := by rfl

/-! ### latch -/

@[simp] theorem State.latch_pc (s : State) : s.latch.pc = s.pc := by rfl
@[simp] theorem State.latch_ipc (s : State) : s.latch.ipc = s.pc := by rfl
@[simp] theorem State.latch_redirect (s : State) : s.latch.redirect = false := by rfl
@[simp] theorem State.latch_stack (s : State) : s.latch.stack = s.stack := by rfl
@[simp] theorem State.latch_calls (s : State) : s.latch.calls = s.calls := by rfl
@[simp] theorem State.latch_mem (s : State) : s.latch.mem = s.mem := by rfl
@[simp] theorem State.latch_halted (s : State) : s.latch.halted = s.halted := by rfl
@[simp] theorem State.latch_exitCode (s : State) : s.latch.exitCode = s.exitCode := by rfl
@[simp] theorem State.latch_fault (s : State) : s.latch.fault = s.fault := by rfl
@[simp] theorem State.latch_waiting (s : State) : s.latch.waiting = false := by rfl
@[simp] theorem State.latch_code (s : State) : s.latch.code = s.code := by rfl
@[simp] theorem State.latch_cfg (s : State) : s.latch.cfg = s.cfg := by rfl
@[simp] theorem State.latch_inputs (s : State) : s.latch.inputs = s.inputs := by rfl
@[simp] theorem State.latch_outAnswers (s : State) : s.latch.outAnswers = s.outAnswers := by rfl
@[simp] theorem State.latch_dumpAnswers (s : State) : s.latch.dumpAnswers = s.dumpAnswers := by rfl
@[simp] theorem State.latch_trace (s : State) : s.latch.trace = s.trace := by rfl

/-! ### advance -/

@[simp] theorem State.advance_pc (s : State) : s.advance.pc = if s.redirect then s.pc else s.pc + 1 := by rfl
@[simp] theorem State.advance_ipc (s : State) : s.advance.ipc = s.ipc := by rfl
@[simp] theorem State.advance_redirect (s : State) : s.advance.redirect = false := by rfl
@[simp] theorem State.advance_stack (s : State) : s.advance.stack = s.stack := by rfl
@[simp] theorem State.advance_calls (s : State) : s.advance.calls = s.calls := by rfl
@[simp] theorem State.advance_mem (s : State) : s.advance.mem = s.mem := by rfl
@[simp] theorem State.advance_halted (s : State) : s.advance.halted = s.halted := by rfl
@[simp] theorem State.advance_exitCode (s : State) : s.advance.exitCode = s.exitCode := by rfl
@[simp] theorem State.advance_fault (s : State) : s.advance.fault = s.fault := by rfl
@[simp] theorem State.advance_waiting (s : State) : s.advance.waiting = s.waiting := by rfl
@[simp] theorem State.advance_code (s : State) : s.advance.code = s.code := by rfl
@[simp] theorem State.advance_cfg (s : State) : s.advance.cfg = s.cfg := by rfl
@[simp] theorem State.advance_inputs (s : State) : s.advance.inputs = s.inputs := by rfl
@[simp] theorem State.advance_outAnswers (s : State) : s.advance.outAnswers = s.outAnswers := by rfl
@[simp] theorem State.advance_dumpAnswers (s : State) : s.advance.dumpAnswers = s.dumpAnswers := by rfl
@[simp] theorem State.advance_trace (s : State) : s.advance.trace = s.trace := by rfl

/-! ### awaitInput -/

@[simp] theorem State.awaitInput_pc (s : State) : s.awaitInput.pc = s.pc := by rfl
@[simp] theorem State.awaitInput_ipc (s : State) : s.awaitInput.ipc = s.pc := by rfl
@[simp] theorem State.awaitInput_redirect (s : State) : s.awaitInput.redirect = false := by rfl
@[simp] theorem State.awaitInput_stack (s : State) : s.awaitInput.stack = s.stack := by rfl
@[simp] theorem State.awaitInput_calls (s : State) : s.awaitInput.calls = s.calls := by rfl
@[simp] theorem State.awaitInput_mem (s : State) : s.awaitInput.mem = s.mem := by rfl
@[simp] theorem State.awaitInput_halted (s : State) : s.awaitInput.halted = s.halted := by rfl
@[simp] theorem State.awaitInput_exitCode (s : State) : s.awaitInput.exitCode = s.exitCode := by rfl
@[simp] theorem State.awaitInput_fault (s : State) : s.awaitInput.fault = s.fault := by rfl
@[simp] theorem State.awaitInput_waiting (s : State) : s.awaitInput.waiting = true := by rfl
@[simp] theorem State.awaitInput_code (s : State) : s.awaitInput.code = s.code := by rfl
@[simp] theorem State.awaitInput_cfg (s : State) : s.awaitInput.cfg = s.cfg := by rfl
@[simp] theorem State.awaitInput_inputs (s : State) : s.awaitInput.inputs = s.inputs := by rfl
@[simp] theorem State.awaitInput_outAnswers (s : State) : s.awaitInput.outAnswers = s.outAnswers := by rfl
@[simp] theorem State.awaitInput_dumpAnswers (s : State) : s.awaitInput.dumpAnswers = s.dumpAnswers := by rfl
@[simp] theorem State.awaitInput_trace (s : State) : s.awaitInput.trace = s.trace := by rfl

/-! ### takeFault -/

@[simp] theorem takeFault_pc (s : State) (k : FaultKind) (info : Option Byte) (t : State) : (takeFault s k info t).pc = s.pc := by rfl
@[simp] theorem takeFault_ipc (s : State) (k : FaultKind) (info : Option Byte) (t : State) : (takeFault s k info t).ipc = t.ipc := by rfl
@[simp] theorem takeFault_redirect (s : State) (k : FaultKind) (info : Option Byte) (t : State) : (takeFault s k info t).redirect = false := by rfl
@[simp] theorem takeFault_stack (s : State) (k : FaultKind) (info : Option Byte) (t : State) : (takeFault s k info t).stack = s.stack := by rfl
@[simp] theorem takeFault_calls (s : State) (k : FaultKind) (info : Option Byte) (t : State) : (takeFault s k info t).calls = s.calls := by rfl
@[simp] theorem takeFault_mem (s : State) (k : FaultKind) (info : Option Byte) (t : State) : (takeFault s k info t).mem = s.mem := by rfl
@[simp] theorem takeFault_halted (s : State) (k : FaultKind) (info : Option Byte) (t : State) : (takeFault s k info t).halted = s.halted := by rfl
@[simp] theorem takeFault_exitCode (s : State) (k : FaultKind) (info : Option Byte) (t : State) : (takeFault s k info t).exitCode = s.exitCode := by rfl
@[simp] theorem takeFault_fault (s : State) (k : FaultKind) (info : Option Byte) (t : State) : (takeFault s k info t).fault = some { kind := k, info := info, pc := faultPc t.cfg.faultPcMode t.ipc t.pc } := by rfl
@[simp] theorem takeFault_waiting (s : State) (k : FaultKind) (info : Option Byte) (t : State) : (takeFault s k info t).waiting = t.waiting := by rfl
@[simp] theorem takeFault_code (s : State) (k : FaultKind) (info : Option Byte) (t : State) : (takeFault s k info t).code = t.code := by rfl
@[simp] theorem takeFault_cfg (s : State) (k : FaultKind) (info : Option Byte) (t : State) : (takeFault s k info t).cfg = t.cfg := by rfl
@[simp] theorem takeFault_inputs (s : State) (k : FaultKind) (info : Option Byte) (t : State) : (takeFault s k info t).inputs = t.inputs := by rfl
@[simp] theorem takeFault_outAnswers (s : State) (k : FaultKind) (info : Option Byte) (t : State) : (takeFault s k info t).outAnswers = t.outAnswers := by rfl
@[simp] theorem takeFault_dumpAnswers (s : State) (k : FaultKind) (info : Option Byte) (t : State) : (takeFault s k info t).dumpAnswers = t.dumpAnswers := by rfl
@[simp] theorem takeFault_trace (s : State) (k : FaultKind) (info : Option Byte) (t : State) : (takeFault s k info t).trace = t.trace := by rfl

/-! ### recordInput -/

@[simp] theorem State.recordInput_pc (a : InAnswer) (s : State) : (s.recordInput a).pc = s.pc := by rfl
@[simp] theorem State.recordInput_ipc (a : InAnswer) (s : State) : (s.recordInput a).ipc = s.ipc := by rfl
@[simp] theorem State.recordInput_redirect (a : InAnswer) (s : State) : (s.recordInput a).redirect = s.redirect := by rfl
@[simp] theorem State.recordInput_stack (a : InAnswer) (s : State) : (s.recordInput a).stack = s.stack := by rfl
@[simp] theorem State.recordInput_calls (a : InAnswer) (s : State) : (s.recordInput a).calls = s.calls := by rfl
@[simp] theorem State.recordInput_mem (a : InAnswer) (s : State) : (s.recordInput a).mem = s.mem := by rfl
@[simp] theorem State.recordInput_halted (a : InAnswer) (s : State) : (s.recordInput a).halted = s.halted := by rfl
@[simp] theorem State.recordInput_exitCode (a : InAnswer) (s : State) : (s.recordInput a).exitCode = s.exitCode := by rfl
@[simp] theorem State.recordInput_fault (a : InAnswer) (s : State) : (s.recordInput a).fault = s.fault := by rfl
@[simp] theorem State.recordInput_waiting (a : InAnswer) (s : State) : (s.recordInput a).waiting = s.waiting := by rfl
@[simp] theorem State.recordInput_code (a : InAnswer) (s : State) : (s.recordInput a).code = s.code := by rfl
@[simp] theorem State.recordInput_cfg (a : InAnswer) (s : State) : (s.recordInput a).cfg = s.cfg := by rfl
@[simp] theorem State.recordInput_inputs (a : InAnswer) (s : State) : (s.recordInput a).inputs = s.inputs.tail := by rfl
@[simp] theorem State.recordInput_outAnswers (a : InAnswer) (s : State) : (s.recordInput a).outAnswers = s.outAnswers := by rfl
@[simp] theorem State.recordInput_dumpAnswers (a : InAnswer) (s : State) : (s.recordInput a).dumpAnswers = s.dumpAnswers := by rfl
@[simp] theorem State.recordInput_trace (a : InAnswer) (s : State) : (s.recordInput a).trace = s.trace ++ [.input a] := by rfl

/-! ### recordOutput -/

@[simp] theorem State.recordOutput_pc (b : Byte) (s : State) : (s.recordOutput b).pc = s.pc := by rfl
@[simp] theorem State.recordOutput_ipc (b : Byte) (s : State) : (s.recordOutput b).ipc = s.ipc := by rfl
@[simp] theorem State.recordOutput_redirect (b : Byte) (s : State) : (s.recordOutput b).redirect = s.redirect := by rfl
@[simp] theorem State.recordOutput_stack (b : Byte) (s : State) : (s.recordOutput b).stack = s.stack := by rfl
@[simp] theorem State.recordOutput_calls (b : Byte) (s : State) : (s.recordOutput b).calls = s.calls := by rfl
@[simp] theorem State.recordOutput_mem (b : Byte) (s : State) : (s.recordOutput b).mem = s.mem := by rfl
@[simp] theorem State.recordOutput_halted (b : Byte) (s : State) : (s.recordOutput b).halted = s.halted := by rfl
@[simp] theorem State.recordOutput_exitCode (b : Byte) (s : State) : (s.recordOutput b).exitCode = s.exitCode := by rfl
@[simp] theorem State.recordOutput_fault (b : Byte) (s : State) : (s.recordOutput b).fault = s.fault := by rfl
@[simp] theorem State.recordOutput_waiting (b : Byte) (s : State) : (s.recordOutput b).waiting = s.waiting := by rfl
@[simp] theorem State.recordOutput_code (b : Byte) (s : State) : (s.recordOutput b).code = s.code := by rfl
@[simp] theorem State.recordOutput_cfg (b : Byte) (s : State) : (s.recordOutput b).cfg = s.cfg := by rfl
@[simp] theorem State.recordOutput_inputs (b : Byte) (s : State) : (s.recordOutput b).inputs = s.inputs := by rfl
@[simp] theorem State.recordOutput_outAnswers (b : Byte) (s : State) : (s.recordOutput b).outAnswers = s.outAnswers.tail := by rfl
@[simp] theorem State.recordOutput_dumpAnswers (b : Byte) (s : State) : (s.recordOutput b).dumpAnswers = s.dumpAnswers := by rfl
@[simp] theorem State.recordOutput_trace (b : Byte) (s : State) : (s.recordOutput b).trace = s.trace ++ [.output b s.outAnswer] := by rfl

/-! ### recordDump -/

@[simp] theorem State.recordDump_pc (s : State) : s.recordDump.pc = s.pc := by rfl
@[simp] theorem State.recordDump_ipc (s : State) : s.recordDump.ipc = s.ipc := by rfl
@[simp] theorem State.recordDump_redirect (s : State) : s.recordDump.redirect = s.redirect := by rfl
@[simp] theorem State.recordDump_stack (s : State) : s.recordDump.stack = s.stack := by rfl
@[simp] theorem State.recordDump_calls (s : State) : s.recordDump.calls = s.calls := by rfl
@[simp] theorem State.recordDump_mem (s : State) : s.recordDump.mem = s.mem := by rfl
@[simp] theorem State.recordDump_halted (s : State) : s.recordDump.halted = s.halted := by rfl
@[simp] theorem State.recordDump_exitCode (s : State) : s.recordDump.exitCode = s.exitCode := by rfl
@[simp] theorem State.recordDump_fault (s : State) : s.recordDump.fault = s.fault := by rfl
@[simp] theorem State.recordDump_waiting (s : State) : s.recordDump.waiting = s.waiting := by rfl
@[simp] theorem State.recordDump_code (s : State) : s.recordDump.code = s.code := by rfl
@[simp] theorem State.recordDump_cfg (s : State) : s.recordDump.cfg = s.cfg := by rfl
@[simp] theorem State.recordDump_inputs (s : State) : s.recordDump.inputs = s.inputs := by rfl
@[simp] theorem State.recordDump_outAnswers (s : State) : s.recordDump.outAnswers = s.outAnswers := by rfl
@[simp] theorem State.recordDump_dumpAnswers (s : State) : s.recordDump.dumpAnswers = s.dumpAnswers.tail := by rfl
@[simp] theorem State.recordDump_trace (s : State) : s.recordDump.trace = s.trace ++ [.dump s.stack.reverse s.mem s.dumpAnswer] := by rfl

/-! ### queueInput -/

@[simp] theorem State.queueInput_pc (a : InAnswer) (s : State) : (s.queueInput a).pc = s.pc := by rfl
@[simp] theorem State.queueInput_ipc (a : InAnswer) (s : State) : (s.queueInput a).ipc = s.ipc := by rfl
@[simp] theorem State.queueInput_redirect (a : InAnswer) (s : State) : (s.queueInput a).redirect = s.redirect := by rfl
@[simp] theorem State.queueInput_stack (a : InAnswer) (s : State) : (s.queueInput a).stack = s.stack := by rfl
@[simp] theorem State.queueInput_calls (a : InAnswer) (s : State) : (s.queueInput a).calls = s.calls := by rfl
@[simp] theorem State.queueInput_mem (a : InAnswer) (s : State) : (s.queueInput a).mem = s.mem := by rfl
@[simp] theorem State.queueInput_halted (a : InAnswer) (s : State) : (s.queueInput a).halted = s.halted := by rfl
@[simp] theorem State.queueInput_exitCode (a : InAnswer) (s : State) : (s.queueInput a).exitCode = s.exitCode := by rfl
@[simp] theorem State.queueInput_fault (a : InAnswer) (s : State) : (s.queueInput a).fault = s.fault := by rfl
@[simp] theorem State.queueInput_waiting (a : InAnswer) (s : State) : (s.queueInput a).waiting = s.waiting := by rfl
@[simp] theorem State.queueInput_code (a : InAnswer) (s : State) : (s.queueInput a).code = s.code := by rfl
@[simp] theorem State.queueInput_cfg (a : InAnswer) (s : State) : (s.queueInput a).cfg = s.cfg := by rfl
@[simp] theorem State.queueInput_inputs (a : InAnswer) (s : State) : (s.queueInput a).inputs = s.inputs ++ [a] := by rfl
@[simp] theorem State.queueInput_outAnswers (a : InAnswer) (s : State) : (s.queueInput a).outAnswers = s.outAnswers := by rfl
@[simp] theorem State.queueInput_dumpAnswers (a : InAnswer) (s : State) : (s.queueInput a).dumpAnswers = s.dumpAnswers := by rfl
@[simp] theorem State.queueInput_trace (a : InAnswer) (s : State) : (s.queueInput a).trace = s.trace := by rfl

/-! ### The host's next answers see only the ports -/

@[simp] theorem State.outAnswer_latch (s : State) : s.latch.outAnswer = s.outAnswer := by rfl
@[simp] theorem State.outAnswer_setStack (l : List Byte) (s : State) : (s.setStack l).outAnswer = s.outAnswer := by rfl
@[simp] theorem State.dumpAnswer_latch (s : State) : s.latch.dumpAnswer = s.dumpAnswer := by rfl
@[simp] theorem State.dumpAnswer_setStack (l : List Byte) (s : State) :
    (s.setStack l).dumpAnswer = s.dumpAnswer := by rfl

end Sys2Proof.Machine
end

