-- ==== Sys2Proof/Laws/Ops.lean ====
section
/-! SUPPORT. What each shared operation does: the primitives case by case, and the cycle around an operation. -/

namespace Sys2Proof.Machine

/-! ### Sequence -/

@[simp] theorem Result.bind_ok {α β : Type} (a : α) (s : State) (f : α → State → Result β) :
    (Result.ok a s).bind f = f a s := rfl

@[simp] theorem Result.bind_raised {α β : Type} (k : FaultKind) (info : Option Byte) (s : State)
    (f : α → State → Result β) : (Result.raised k info s).bind f = .raised k info s := rfl

@[simp] theorem Result.bind_waits {α β : Type} (f : α → State → Result β) :
    (Result.waits : Result α).bind f = .waits := rfl

@[simp] theorem raise_eq {α : Type} (k : FaultKind) (info : Option Byte) (s : State) :
    (raise k info s : Result α) = .raised k info s := rfl

/-! ### Stacks -/

theorem push_of_lt {s : State} (h : s.stack.length < 256) (v : Byte) :
    push v s = .ok () (s.setStack (v :: s.stack)) := by
  simp [push, stackMax, Nat.not_le.2 h]

theorem push_of_ge {s : State} (h : 256 ≤ s.stack.length) (v : Byte) :
    push v s = .raised .stackOverflow none s := by
  simp [push, stackMax, h, raise]

theorem pop_nil {s : State} (h : s.stack = []) : pop s = .raised .stackUnderflow none s := by
  simp [pop, h, raise]

theorem pop_cons {s : State} {v : Byte} {rest : List Byte} (h : s.stack = v :: rest) :
    pop s = .ok v (s.setStack rest) := by
  simp [pop, h]

theorem cpush_of_lt {s : State} (h : s.calls.length < 256) (r : Nat) :
    cpush r s = .ok () (s.setCalls (r :: s.calls)) := by
  simp [cpush, callMax, Nat.not_le.2 h]

theorem cpush_of_ge {s : State} (h : 256 ≤ s.calls.length) (r : Nat) :
    cpush r s = .raised .callStackOverflow none s := by
  simp [cpush, callMax, h, raise]

theorem cpop_nil {s : State} (h : s.calls = []) : cpop s = .raised .callStackUnderflow none s := by
  simp [cpop, h, raise]

theorem cpop_cons {s : State} {r : Nat} {rest : List Nat} (h : s.calls = r :: rest) :
    cpop s = .ok r (s.setCalls rest) := by
  simp [cpop, h]

/-! ### Immediate and data memory -/

@[simp] theorem imm_some (b : Byte) (s : State) : imm (some b) s = .ok b (s.setPc (s.pc + 1)) := rfl

@[simp] theorem imm_none (s : State) :
    imm none s = .raised .streamExhausted none (s.setPc (s.pc + 1)) := rfl

theorem memRead_some {s : State} {a v : Byte} (h : s.mem.read a.toNat = some v) :
    memRead a s = .ok v s := by
  simp [memRead, dataAddr, h]

theorem memRead_none {s : State} {a : Byte} (h : s.mem.read a.toNat = none) :
    memRead a s = .raised .uninitializedMemory (some a) s := by
  simp [memRead, dataAddr, h, raise]

/-! ### The cycle -/

@[simp] theorem finish_ok (s : State) (t : State) : finish s (.ok () t) = t.advance := rfl

@[simp] theorem finish_raised (s : State) (k : FaultKind) (info : Option Byte) (t : State) :
    finish s (.raised k info t) = takeFault s k info t := rfl

@[simp] theorem finish_waits (s : State) : finish s .waits = s.awaitInput := rfl

/-- Everything a cycle can do: complete and advance, take a fault, or wait. -/
theorem finish_cases (s : State) (r : Result Unit) :
    (∃ u, r = .ok () u ∧ finish s r = u.advance) ∨
    (∃ k info u, r = .raised k info u ∧ finish s r = takeFault s k info u) ∨
    (r = .waits ∧ finish s r = s.awaitInput) := by
  match r with
  | .ok () u => exact .inl ⟨u, rfl, rfl⟩
  | .raised k info u => exact .inr (.inl ⟨k, info, u, rfl, rfl⟩)
  | .waits => exact .inr (.inr ⟨rfl, rfl⟩)

/-! ### The operations behind the arms -/

/-- The operation each arm of `exec` performs. -/
def operation : Instr → State → Result Unit
  | .syscall => opSyscall
  | .push v => opPush v
  | .pop => opPop
  | .dup => opDup
  | .swap => opSwap
  | .add => binary addSat
  | .sub => binary subSat
  | .mul => binary mulSat
  | .div => binary divSat
  | .mod => binary modTrunc
  | .addi v => binaryImm addSat v
  | .subi v => binaryImm subSat v
  | .muli v => binaryImm mulSat v
  | .divi v => binaryImm divSat v
  | .modi v => binaryImm modTrunc v
  | .eq => binary (compareBytes fun a b => a = b)
  | .neq => binary (compareBytes fun a b => a ≠ b)
  | .lt => binary (compareBytes fun a b => a < b)
  | .le => binary (compareBytes fun a b => a ≤ b)
  | .gt => binary (compareBytes fun a b => a > b)
  | .ge => binary (compareBytes fun a b => a ≥ b)
  | .jz v => opJz v
  | .jmz v => opJmz v
  | .store => opStore
  | .load => opLoad
  | .storei v => opStorei v
  | .loadi v => opLoadi v
  | .call v => opCall v
  | .ret => opRet
  | .fin => opFin

/-- Every instruction ends in a next state, the end of its cycle; none stops the machine and none is refused. -/
theorem exec_eq_finish (i : Instr) (s : State) : exec i s = .next (finish s (operation i s.latch)) := by
  cases i <;> rfl

/-- What `exec` answers, taken apart once for every instruction. -/
theorem exec_next_iff (i : Instr) (s t : State) :
    exec i s = .next t ↔ t = finish s (operation i s.latch) := by
  rw [exec_eq_finish]
  exact ⟨fun h => by cases h; rfl, fun h => by rw [h]⟩

theorem exec_of_ok {i : Instr} {s u : State} (h : operation i s.latch = .ok () u) :
    exec i s = .next u.advance := by
  rw [exec_eq_finish, h, finish_ok]

theorem exec_of_raised {i : Instr} {s u : State} {k : FaultKind} {info : Option Byte}
    (h : operation i s.latch = .raised k info u) : exec i s = .next (takeFault s k info u) := by
  rw [exec_eq_finish, h, finish_raised]

end Sys2Proof.Machine
end

