-- ==== Sys2Proof/Laws/Frame.lean ====
section
/-! SUPPORT. What an operation leaves alone and what it may raise, said once for every instruction: a part of the
state that none of the primitives' updates touches is fixed by every operation built from them. -/

namespace Sys2Proof.Machine

/-! ### Parts of the state an operation fixes -/

/-- The part `f` of the state is the same in every state `x` ends in as it is in `s`. -/
def Result.Fixes {α β : Type} (f : State → β) (s : State) : Result α → Prop
  | .ok _ u => f u = f s
  | .raised _ _ u => f u = f s
  | .waits => True

theorem Result.Fixes.bind {α β γ : Type} {f : State → β} {s : State} {x : Result α} {g : α → State → Result γ}
    (hx : x.Fixes f s) (hg : ∀ a u, (g a u).Fixes f u) : (x.bind g).Fixes f s := by
  match x, hx with
  | .ok a u, hx =>
    have h := hg a u
    simp only [Result.bind_ok]
    revert h
    match g a u with
    | .ok _ v => exact fun h => h.trans hx
    | .raised _ _ v => exact fun h => h.trans hx
    | .waits => exact fun _ => trivial
  | .raised _ _ u, hx => exact hx
  | .waits, _ => trivial

section
variable {β : Type} {f : State → β}

theorem push_fixes (h : ∀ l s, f (State.setStack l s) = f s) (v : Byte) (s : State) : (push v s).Fixes f s := by
  unfold push; split
  · exact rfl
  · exact h _ _

theorem pop_fixes (h : ∀ l s, f (State.setStack l s) = f s) (s : State) : (pop s).Fixes f s := by
  unfold pop; split
  · exact rfl
  · exact h _ _

theorem cpush_fixes (h : ∀ l s, f (State.setCalls l s) = f s) (r : Nat) (s : State) : (cpush r s).Fixes f s := by
  unfold cpush; split
  · exact rfl
  · exact h _ _

theorem cpop_fixes (h : ∀ l s, f (State.setCalls l s) = f s) (s : State) : (cpop s).Fixes f s := by
  unfold cpop; split
  · exact rfl
  · exact h _ _

theorem imm_fixes (h : ∀ p s, f (State.setPc p s) = f s) (v : Option Byte) (s : State) : (imm v s).Fixes f s := by
  cases v <;> exact h _ _

theorem memRead_fixes (a : Byte) (s : State) : (memRead a s).Fixes f s := by
  unfold memRead; split <;> exact rfl

theorem divSat_fixes (a b : Byte) (s : State) : (divSat a b s).Fixes f s := by
  unfold divSat; split <;> exact rfl

theorem modTrunc_fixes (a b : Byte) (s : State) : (modTrunc a b s).Fixes f s := by
  unfold modTrunc; split
  · split <;> exact rfl
  · exact rfl

theorem binary_fixes (h : ∀ l s, f (State.setStack l s) = f s) {g : Byte → Byte → State → Result Byte}
    (hg : ∀ a b s, (g a b s).Fixes f s) (s : State) : (binary g s).Fixes f s :=
  (pop_fixes h s).bind fun _ u => (pop_fixes h u).bind fun _ u => (hg _ _ u).bind fun _ u => push_fixes h _ u

theorem binaryImm_fixes (h : ∀ l s, f (State.setStack l s) = f s) (hp : ∀ p s, f (State.setPc p s) = f s)
    {g : Byte → Byte → State → Result Byte} (hg : ∀ a b s, (g a b s).Fixes f s) (v : Option Byte) (s : State) :
    (binaryImm g v s).Fixes f s :=
  (imm_fixes hp v s).bind fun _ u => (pop_fixes h u).bind fun _ u => (hg _ _ u).bind fun _ u => push_fixes h _ u

/-- A part of the state that the operand stack, `pc` and a jump do not touch is fixed by every instruction but
SYSCALL, provided the call stack does not touch it (CALL, RET), a cell does not (STORE, STOREI), and the flags do not
(FIN). -/
theorem operation_fixes (i : Instr) (hi : i ≠ .syscall)
    (hs : ∀ l s, f (State.setStack l s) = f s) (hp : ∀ p s, f (State.setPc p s) = f s)
    (hj : ∀ t s, f (State.jumpTo t s) = f s)
    (hc : i.op = .call ∨ i.op = .ret → ∀ l s, f (State.setCalls l s) = f s)
    (hm : i.op = .store ∨ i.op = .storei → ∀ a v s, f (State.writeCell a v s) = f s)
    (hh : i = .fin → ∀ b s, f (State.halt b s) = f s) (s : State) : (operation i s).Fixes f s := by
  cases i with
  | syscall => exact absurd rfl hi
  | push v => exact (imm_fixes hp v s).bind fun _ u => push_fixes hs _ u
  | pop => exact (pop_fixes hs s).bind fun _ _ => rfl
  | dup => exact (pop_fixes hs s).bind fun _ u => (push_fixes hs _ u).bind fun _ u => push_fixes hs _ u
  | swap =>
    exact (pop_fixes hs s).bind fun _ u => (pop_fixes hs u).bind fun _ u =>
      (push_fixes hs _ u).bind fun _ u => push_fixes hs _ u
  | add => exact binary_fixes (g := addSat) hs (fun _ _ _ => rfl) s
  | sub => exact binary_fixes (g := subSat) hs (fun _ _ _ => rfl) s
  | mul => exact binary_fixes (g := mulSat) hs (fun _ _ _ => rfl) s
  | div => exact binary_fixes hs divSat_fixes s
  | mod => exact binary_fixes hs modTrunc_fixes s
  | addi v => exact binaryImm_fixes (g := addSat) hs hp (fun _ _ _ => rfl) v s
  | subi v => exact binaryImm_fixes (g := subSat) hs hp (fun _ _ _ => rfl) v s
  | muli v => exact binaryImm_fixes (g := mulSat) hs hp (fun _ _ _ => rfl) v s
  | divi v => exact binaryImm_fixes hs hp divSat_fixes v s
  | modi v => exact binaryImm_fixes hs hp modTrunc_fixes v s
  | eq => exact binary_fixes (g := (compareBytes _)) hs (fun _ _ _ => rfl) s
  | neq => exact binary_fixes (g := (compareBytes _)) hs (fun _ _ _ => rfl) s
  | lt => exact binary_fixes (g := (compareBytes _)) hs (fun _ _ _ => rfl) s
  | le => exact binary_fixes (g := (compareBytes _)) hs (fun _ _ _ => rfl) s
  | gt => exact binary_fixes (g := (compareBytes _)) hs (fun _ _ _ => rfl) s
  | ge => exact binary_fixes (g := (compareBytes _)) hs (fun _ _ _ => rfl) s
  | jz v =>
    refine (pop_fixes hs s).bind fun _ u => (imm_fixes hp v u).bind fun _ u => ?_
    split
    · exact hj _ _
    · exact rfl
  | jmz v => exact (imm_fixes hp v s).bind fun _ u => hj _ _
  | store => exact (pop_fixes hs s).bind fun _ u => (pop_fixes hs u).bind fun _ u => hm (.inl rfl) _ _ _
  | load => exact (pop_fixes hs s).bind fun _ u => (memRead_fixes _ u).bind fun _ u => push_fixes hs _ u
  | storei v => exact (pop_fixes hs s).bind fun _ u => (imm_fixes hp v u).bind fun _ u => hm (.inr rfl) _ _ _
  | loadi v => exact (imm_fixes hp v s).bind fun _ u => (memRead_fixes _ u).bind fun _ u => push_fixes hs _ u
  | call v =>
    exact (imm_fixes hp v s).bind fun _ u => (cpush_fixes (hc (.inl rfl)) _ u).bind fun _ u => hj _ _
  | ret => exact (cpop_fixes (hc (.inr rfl)) s).bind fun _ u => hp _ _
  | fin => exact hh rfl _ _

end

/-- Outside SYSCALL no operation touches the stream, the parameters, the ports, their record, the latched address,
the fault register or the waiting bit. -/
theorem operation_fixes_ports (i : Instr) (hi : i ≠ .syscall) (s : State) :
    (operation i s).Fixes
      (fun u => (u.code, u.cfg, u.inputs, u.outAnswers, u.dumpAnswers, u.trace, u.ipc, u.fault, u.waiting)) s :=
  operation_fixes i hi (fun _ _ => rfl) (fun _ _ => rfl) (fun _ _ => rfl) (fun _ _ _ => rfl)
    (fun _ _ _ _ => rfl) (fun _ _ _ => rfl) s

/-! ### Faults an operation may raise -/

/-- `x` does not wait, and what it raises satisfies `P`. -/
def Result.RaisesOnly {α : Type} (P : FaultKind → Option Byte → Prop) : Result α → Prop
  | .ok _ _ => True
  | .raised k info _ => P k info
  | .waits => False

theorem Result.RaisesOnly.bind {α γ : Type} {P : FaultKind → Option Byte → Prop} {x : Result α}
    {g : α → State → Result γ} (hx : x.RaisesOnly P) (hg : ∀ a u, (g a u).RaisesOnly P) :
    (x.bind g).RaisesOnly P := by
  match x, hx with
  | .ok a u, _ => exact hg a u
  | .raised _ _ _, hx => exact hx

/-- A fault that no port raises, with `info` where its kind carries a byte (R230). -/
def InnerFault (k : FaultKind) (info : Option Byte) : Prop := k ≠ .syscallIo ∧ info.isSome = k.carriesInfo

theorem push_raises (v : Byte) (s : State) : (push v s).RaisesOnly InnerFault := by
  unfold push; split
  · exact ⟨by decide, rfl⟩
  · trivial

theorem pop_raises (s : State) : (pop s).RaisesOnly InnerFault := by
  unfold pop; split
  · exact ⟨by decide, rfl⟩
  · trivial

theorem cpush_raises (r : Nat) (s : State) : (cpush r s).RaisesOnly InnerFault := by
  unfold cpush; split
  · exact ⟨by decide, rfl⟩
  · trivial

theorem cpop_raises (s : State) : (cpop s).RaisesOnly InnerFault := by
  unfold cpop; split
  · exact ⟨by decide, rfl⟩
  · trivial

theorem imm_raises (v : Option Byte) (s : State) : (imm v s).RaisesOnly InnerFault := by
  cases v with
  | none => exact ⟨by decide, rfl⟩
  | some b => trivial

theorem memRead_raises (a : Byte) (s : State) : (memRead a s).RaisesOnly InnerFault := by
  unfold memRead; split
  · exact ⟨by decide, rfl⟩
  · trivial

theorem divSat_raises (a b : Byte) (s : State) : (divSat a b s).RaisesOnly InnerFault := by
  unfold divSat; split
  · exact ⟨by decide, rfl⟩
  · trivial

theorem modTrunc_raises (a b : Byte) (s : State) : (modTrunc a b s).RaisesOnly InnerFault := by
  unfold modTrunc; split
  · split
    · exact ⟨by decide, rfl⟩
    · trivial
  · trivial

theorem binary_raises {g : Byte → Byte → State → Result Byte} (hg : ∀ a b s, (g a b s).RaisesOnly InnerFault)
    (s : State) : (binary g s).RaisesOnly InnerFault :=
  (pop_raises s).bind fun _ u => (pop_raises u).bind fun _ u => (hg _ _ u).bind fun _ u => push_raises _ u

theorem binaryImm_raises {g : Byte → Byte → State → Result Byte} (hg : ∀ a b s, (g a b s).RaisesOnly InnerFault)
    (v : Option Byte) (s : State) : (binaryImm g v s).RaisesOnly InnerFault :=
  (imm_raises v s).bind fun _ u => (pop_raises u).bind fun _ u => (hg _ _ u).bind fun _ u => push_raises _ u

/-- Outside SYSCALL no operation waits, and none raises SyscallIo. -/
theorem operation_raises (i : Instr) (hi : i ≠ .syscall) (s : State) : (operation i s).RaisesOnly InnerFault := by
  cases i with
  | syscall => exact absurd rfl hi
  | push v => exact (imm_raises v s).bind fun _ u => push_raises _ u
  | pop => exact (pop_raises s).bind fun _ _ => trivial
  | dup => exact (pop_raises s).bind fun _ u => (push_raises _ u).bind fun _ u => push_raises _ u
  | swap =>
    exact (pop_raises s).bind fun _ u => (pop_raises u).bind fun _ u =>
      (push_raises _ u).bind fun _ u => push_raises _ u
  | add => exact binary_raises (g := addSat) (fun _ _ _ => trivial) s
  | sub => exact binary_raises (g := subSat) (fun _ _ _ => trivial) s
  | mul => exact binary_raises (g := mulSat) (fun _ _ _ => trivial) s
  | div => exact binary_raises divSat_raises s
  | mod => exact binary_raises modTrunc_raises s
  | addi v => exact binaryImm_raises (g := addSat) (fun _ _ _ => trivial) v s
  | subi v => exact binaryImm_raises (g := subSat) (fun _ _ _ => trivial) v s
  | muli v => exact binaryImm_raises (g := mulSat) (fun _ _ _ => trivial) v s
  | divi v => exact binaryImm_raises divSat_raises v s
  | modi v => exact binaryImm_raises modTrunc_raises v s
  | eq => exact binary_raises (g := (compareBytes _)) (fun _ _ _ => trivial) s
  | neq => exact binary_raises (g := (compareBytes _)) (fun _ _ _ => trivial) s
  | lt => exact binary_raises (g := (compareBytes _)) (fun _ _ _ => trivial) s
  | le => exact binary_raises (g := (compareBytes _)) (fun _ _ _ => trivial) s
  | gt => exact binary_raises (g := (compareBytes _)) (fun _ _ _ => trivial) s
  | ge => exact binary_raises (g := (compareBytes _)) (fun _ _ _ => trivial) s
  | jz v =>
    refine (pop_raises s).bind fun _ u => (imm_raises v u).bind fun _ u => ?_
    split <;> trivial
  | jmz v => exact (imm_raises v s).bind fun _ _ => trivial
  | store => exact (pop_raises s).bind fun _ u => (pop_raises u).bind fun _ _ => trivial
  | load => exact (pop_raises s).bind fun _ u => (memRead_raises _ u).bind fun _ u => push_raises _ u
  | storei v => exact (pop_raises s).bind fun _ u => (imm_raises v u).bind fun _ _ => trivial
  | loadi v => exact (imm_raises v s).bind fun _ u => (memRead_raises _ u).bind fun _ u => push_raises _ u
  | call v => exact (imm_raises v s).bind fun _ u => (cpush_raises _ u).bind fun _ _ => trivial
  | ret => exact (cpop_raises s).bind fun _ _ => trivial
  | fin => trivial

/-- What a cycle of an instruction other than SYSCALL does, taken apart once: it completes, or the fault register is
written and nothing else changes but the latches. -/
theorem exec_cases {i : Instr} {s t : State} (hi : i ≠ .syscall) (h : exec i s = .next t) :
    (∃ u, operation i s.latch = .ok () u ∧ t = u.advance ∧
      (u.code, u.cfg, u.inputs, u.outAnswers, u.dumpAnswers, u.trace, u.ipc, u.fault, u.waiting) =
        (s.code, s.cfg, s.inputs, s.outAnswers, s.dumpAnswers, s.trace, s.pc, s.fault, false)) ∨
    ∃ k info u, operation i s.latch = .raised k info u ∧ InnerFault k info ∧
      t = { s with
        ipc := s.pc, redirect := false, waiting := false
        fault := some { kind := k, info := info, pc := faultPc s.cfg.faultPcMode s.pc u.pc } } := by
  have hf := operation_fixes_ports i hi s.latch
  have hr := operation_raises i hi s.latch
  rw [exec_next_iff] at h
  subst h
  revert hf hr
  match operation i s.latch with
  | .ok () u => exact fun hf _ => .inl ⟨u, rfl, rfl, hf⟩
  | .raised k info u =>
    intro hf hr
    refine .inr ⟨k, info, u, rfl, hr, ?_⟩
    simp only [Result.Fixes, Prod.mk.injEq] at hf
    obtain ⟨h1, h2, h3, h4, h5, h6, h7, h8, h9⟩ := hf
    simp [finish, takeFault, h1, h2, h3, h4, h5, h6, h7, h9]
  | .waits => exact fun _ hr => hr.elim

end Sys2Proof.Machine
end

