-- ==== Sys2Proof/Laws/PerInstr.lean ====
section
/-! SUPPORT. Statements about every instruction as syntax, one lemma for each constructor. -/

namespace Sys2Proof.Laws

/-- R70, R71, R82: a whole instruction is as long as its format says, only format `OP_IMM` has an immediate, and the
entry of the opcode ROM at its opcode byte, under the default parameters, is the word of its operation. -/
def Format.Statement (i : Instr) : Prop :=
  (∀ c, i.wf = true → (encode c i).length = if i.op.isImm then 2 else 1) ∧
  (i.op.isImm = false → i.immediate = none) ∧
  rom Config.default (opcodeOf Config.default i.op) = romWord (some i.op)

/-- The opcode ROM of R82 maps an operation's opcode byte to the operation's word. -/
theorem rom_opcodeOf_default (o : Op) : rom Config.default (opcodeOf Config.default o) = romWord (some o) := by
  cases o <;> decide

theorem Format.syscall : Format.Statement .syscall := ⟨fun _ _ => rfl, fun _ => rfl, rom_opcodeOf_default _⟩

theorem Format.push (v : Option Byte) : Format.Statement (.push v) := by
  refine ⟨fun c h => ?_, fun h => absurd h (by simp [Instr.op, Op.isImm]), rom_opcodeOf_default _⟩
  cases v with
  | none => exact absurd h (by decide)
  | some b => rfl

theorem Format.pop : Format.Statement .pop := ⟨fun _ _ => rfl, fun _ => rfl, rom_opcodeOf_default _⟩

theorem Format.dup : Format.Statement .dup := ⟨fun _ _ => rfl, fun _ => rfl, rom_opcodeOf_default _⟩

theorem Format.swap : Format.Statement .swap := ⟨fun _ _ => rfl, fun _ => rfl, rom_opcodeOf_default _⟩

theorem Format.add : Format.Statement .add := ⟨fun _ _ => rfl, fun _ => rfl, rom_opcodeOf_default _⟩

theorem Format.sub : Format.Statement .sub := ⟨fun _ _ => rfl, fun _ => rfl, rom_opcodeOf_default _⟩

theorem Format.mul : Format.Statement .mul := ⟨fun _ _ => rfl, fun _ => rfl, rom_opcodeOf_default _⟩

theorem Format.div : Format.Statement .div := ⟨fun _ _ => rfl, fun _ => rfl, rom_opcodeOf_default _⟩

theorem Format.mod : Format.Statement .mod := ⟨fun _ _ => rfl, fun _ => rfl, rom_opcodeOf_default _⟩

theorem Format.addi (v : Option Byte) : Format.Statement (.addi v) := by
  refine ⟨fun c h => ?_, fun h => absurd h (by simp [Instr.op, Op.isImm]), rom_opcodeOf_default _⟩
  cases v with
  | none => exact absurd h (by decide)
  | some b => rfl

theorem Format.subi (v : Option Byte) : Format.Statement (.subi v) := by
  refine ⟨fun c h => ?_, fun h => absurd h (by simp [Instr.op, Op.isImm]), rom_opcodeOf_default _⟩
  cases v with
  | none => exact absurd h (by decide)
  | some b => rfl

theorem Format.muli (v : Option Byte) : Format.Statement (.muli v) := by
  refine ⟨fun c h => ?_, fun h => absurd h (by simp [Instr.op, Op.isImm]), rom_opcodeOf_default _⟩
  cases v with
  | none => exact absurd h (by decide)
  | some b => rfl

theorem Format.divi (v : Option Byte) : Format.Statement (.divi v) := by
  refine ⟨fun c h => ?_, fun h => absurd h (by simp [Instr.op, Op.isImm]), rom_opcodeOf_default _⟩
  cases v with
  | none => exact absurd h (by decide)
  | some b => rfl

theorem Format.modi (v : Option Byte) : Format.Statement (.modi v) := by
  refine ⟨fun c h => ?_, fun h => absurd h (by simp [Instr.op, Op.isImm]), rom_opcodeOf_default _⟩
  cases v with
  | none => exact absurd h (by decide)
  | some b => rfl

theorem Format.eq : Format.Statement .eq := ⟨fun _ _ => rfl, fun _ => rfl, rom_opcodeOf_default _⟩

theorem Format.neq : Format.Statement .neq := ⟨fun _ _ => rfl, fun _ => rfl, rom_opcodeOf_default _⟩

theorem Format.lt : Format.Statement .lt := ⟨fun _ _ => rfl, fun _ => rfl, rom_opcodeOf_default _⟩

theorem Format.le : Format.Statement .le := ⟨fun _ _ => rfl, fun _ => rfl, rom_opcodeOf_default _⟩

theorem Format.gt : Format.Statement .gt := ⟨fun _ _ => rfl, fun _ => rfl, rom_opcodeOf_default _⟩

theorem Format.ge : Format.Statement .ge := ⟨fun _ _ => rfl, fun _ => rfl, rom_opcodeOf_default _⟩

theorem Format.jz (v : Option Byte) : Format.Statement (.jz v) := by
  refine ⟨fun c h => ?_, fun h => absurd h (by simp [Instr.op, Op.isImm]), rom_opcodeOf_default _⟩
  cases v with
  | none => exact absurd h (by decide)
  | some b => rfl

theorem Format.jmz (v : Option Byte) : Format.Statement (.jmz v) := by
  refine ⟨fun c h => ?_, fun h => absurd h (by simp [Instr.op, Op.isImm]), rom_opcodeOf_default _⟩
  cases v with
  | none => exact absurd h (by decide)
  | some b => rfl

theorem Format.store : Format.Statement .store := ⟨fun _ _ => rfl, fun _ => rfl, rom_opcodeOf_default _⟩

theorem Format.load : Format.Statement .load := ⟨fun _ _ => rfl, fun _ => rfl, rom_opcodeOf_default _⟩

theorem Format.storei (v : Option Byte) : Format.Statement (.storei v) := by
  refine ⟨fun c h => ?_, fun h => absurd h (by simp [Instr.op, Op.isImm]), rom_opcodeOf_default _⟩
  cases v with
  | none => exact absurd h (by decide)
  | some b => rfl

theorem Format.loadi (v : Option Byte) : Format.Statement (.loadi v) := by
  refine ⟨fun c h => ?_, fun h => absurd h (by simp [Instr.op, Op.isImm]), rom_opcodeOf_default _⟩
  cases v with
  | none => exact absurd h (by decide)
  | some b => rfl

theorem Format.call (v : Option Byte) : Format.Statement (.call v) := by
  refine ⟨fun c h => ?_, fun h => absurd h (by simp [Instr.op, Op.isImm]), rom_opcodeOf_default _⟩
  cases v with
  | none => exact absurd h (by decide)
  | some b => rfl

theorem Format.ret : Format.Statement .ret := ⟨fun _ _ => rfl, fun _ => rfl, rom_opcodeOf_default _⟩

theorem Format.fin : Format.Statement .fin := ⟨fun _ _ => rfl, fun _ => rfl, rom_opcodeOf_default _⟩

end Sys2Proof.Laws
end

