-- ==== Sys2Proof/Laws/Step.lean ====
section
/-! SUPPORT. What one step does, taken apart once. -/

namespace Sys2Proof.Machine

/-- A step is enabled exactly while no fault is registered, the halted flag is 0, `pc` is in the stream and no input
transaction is outstanding (R37, R120). -/
theorem active_iff (s : State) :
    Active s ↔ s.fault = none ∧ s.halted = false ∧ s.pc < s.code.length ∧ s.waiting = false := by
  unfold Active State.status
  cases hf : s.fault with
  | some r => simp
  | none =>
    by_cases h : s.halted = true ∨ s.code.length ≤ s.pc
    · simp only [h, if_true]
      rcases h with h | h
      · simp [h]
      · simp [Nat.not_lt.2 h]
    · simp only [h, if_false]
      simp only [not_or, Bool.not_eq_true, Nat.not_le] at h
      cases s.waiting <;> simp [h]

/-- The block waits exactly where it would step if the outstanding transaction were not there (R37). -/
theorem waiting_iff (s : State) :
    s.status = .waiting ↔ s.fault = none ∧ s.halted = false ∧ s.pc < s.code.length ∧ s.waiting = true := by
  unfold State.status
  cases hf : s.fault with
  | some r => simp
  | none =>
    by_cases h : s.halted = true ∨ s.code.length ≤ s.pc
    · simp only [h, if_true]
      rcases h with h | h
      · simp [h]
      · simp [Nat.not_lt.2 h]
    · simp only [h, if_false]
      simp only [not_or, Bool.not_eq_true, Nat.not_le] at h
      cases s.waiting <;> simp [h]

theorem step_of_active {s : State} (h : Active s) :
    step s = match decode s.cfg s.fetchBytes with
      | .ok (i, _) => exec i s
      | .error (.invalidOpcode b) => .next (raiseInvalidOpcode b s)
      | .error .noByte => .fault (.runDone s.exitCode) := by
  unfold Active at h
  unfold step
  rw [h] <;> rfl

/-- A block that waits takes no step (R120, R37). -/
theorem step_of_waiting {s : State} (h : s.status = .waiting) : step s = .fault .runWaits := by
  unfold step
  rw [h] <;> rfl

theorem step_of_decode {s : State} {i : Instr} {rest : List Byte} (ha : Active s)
    (h : decode s.cfg (s.code.drop s.pc) = .ok (i, rest)) : step s = exec i s := by
  obtain ⟨r, hr⟩ := decode_take _ _ _ _ h
  rw [step_of_active ha, State.fetchBytes, hr]

theorem step_of_invalid {s : State} {b : Byte} {rest : List Byte} (ha : Active s)
    (h : s.code.drop s.pc = b :: rest) (ho : opAt s.cfg b = none) : step s = .next (raiseInvalidOpcode b s) := by
  rw [step_of_active ha]
  simp [State.fetchBytes, h, maxLength, decode_cons, ho]

/-- Everything a step can be: the run has not ended, and it is the cycle of the decoded instruction or the fault of an
unmapped byte. -/
theorem step_cases {s t : State} (h : step s = .next t) :
    Active s ∧
    ((∃ i rest, decode s.cfg (s.code.drop s.pc) = .ok (i, rest) ∧ exec i s = .next t) ∨
     ∃ b rest, s.code.drop s.pc = b :: rest ∧ opAt s.cfg b = none ∧ t = raiseInvalidOpcode b s) := by
  have ha : Active s := by
    unfold step at h
    split at h
    · cases h
    · cases h
    · cases h
    · rename_i h'; exact h'
  refine ⟨ha, ?_⟩
  have hpc := ((active_iff s).1 ha).2.2.1
  rcases e : s.code.drop s.pc with _ | ⟨b, rest⟩
  · simp only [List.drop_eq_nil_iff] at e; omega
  · cases ho : opAt s.cfg b with
    | none =>
      rw [step_of_invalid ha e ho] at h
      cases h
      exact .inr ⟨b, rest, rfl, ho, rfl⟩
    | some o =>
      have hd : ∃ i r, decode s.cfg (b :: rest) = .ok (i, r) := by
        rw [decode_cons, ho]
        dsimp only
        split <;> exact ⟨_, _, rfl⟩
      obtain ⟨i, r, hi⟩ := hd
      refine .inl ⟨i, r, hi, ?_⟩
      rw [← h, step_of_decode ha (by rw [e]; exact hi)]

/-- The state an unmapped byte leaves: the fault register and the latches change, and nothing else. -/
theorem raiseInvalidOpcode_eq (b : Byte) (s : State) :
    raiseInvalidOpcode b s =
      { s with
        ipc := s.pc, redirect := false, waiting := false
        fault := some { kind := .invalidOpcode, info := some b, pc := s.pc } } := by
  simp only [raiseInvalidOpcode, takeFault, State.latch]
  cases s.cfg.faultPcMode <;> rfl

/-- What every step and every answer of the host keeps holds along a run. -/
theorem Run.induct {P : State → Prop} (hs : ∀ s t, P s → step s = .next t → P t)
    (hi : ∀ s a, P s → P (s.deliverInput a)) {s t : State} {l : List State} (h : Run s l t) (h0 : P s) : P t := by
  induction h with
  | refl => exact h0
  | snoc _ h ih => exact hs _ _ ih h
  | input a _ ih => exact hi _ a ih

end Sys2Proof.Machine
end

