-- ==== Sys2Proof/Laws/SysCall.lean ====
section
/-! SUPPORT. What SYSCALL does: the dispatch by selector, and every way its cycle can end. -/

namespace Sys2Proof.Machine

/-- The five cases of a selector (R140 to R148). -/
theorem selector_cases (sel : Byte) :
    sel = 0 ∨ sel = 1 ∨ sel = 2 ∨ sel = 3 ∨ (4 ≤ sel.toNat ∧ sel ≠ 0 ∧ sel ≠ 1 ∧ sel ≠ 2 ∧ sel ≠ 3) := by
  revert sel; decide

/-- An entry of the dispatch table is valid for the selectors 0 to 3 alone. -/
theorem sysValid_iff (sel : Byte) : sysValid (sysTab sel) = true ↔ sel.toNat < 4 := by
  revert sel; decide

/-- `fn` of a valid entry is the selector (R141). -/
theorem sysFn_sysTab (sel : Byte) (h : sel.toNat < 4) : (sysFn (sysTab sel)).toNat = sel.toNat := by
  revert sel; decide

theorem opSyscall_nil {s : State} (h : s.stack = []) : opSyscall s = .raised .stackUnderflow none s := by
  simp [opSyscall, pop_nil h]

theorem opSyscall_cons {s : State} {sel : Byte} {rest : List Byte} (h : s.stack = sel :: rest) :
    opSyscall s =
      if sel = 0 then sysRead (s.setStack rest)
      else if sel = 1 then sysWrite (s.setStack rest)
      else if sel = 2 then sysDump (s.setStack rest)
      else if sel = 3 then sysExit (s.setStack rest)
      else .raised .unexpectedSyscall (some sel) (s.setStack rest) := by
  simp only [opSyscall, pop_cons h, Result.bind_ok]
  rcases selector_cases sel with rfl | rfl | rfl | rfl | ⟨h4, n0, n1, n2, n3⟩
  · rfl
  · rfl
  · rfl
  · rfl
  · have hv : ¬ sysValid (sysTab sel) = true := by rw [sysValid_iff]; omega
    rw [if_neg hv, if_neg n0, if_neg n1, if_neg n2, if_neg n3]
    rfl

/-- Every way a cycle of SYSCALL ends (R140 to R148). -/
theorem exec_syscall_cases {s t : State} (h : exec .syscall s = .next t) :
    (s.stack = [] ∧ t = takeFault s .stackUnderflow none s.latch) ∨
    (∃ rest, s.stack = 0 :: rest ∧ s.inputs = [] ∧ t = s.awaitInput) ∨
    (∃ rest a more v, s.stack = 0 :: rest ∧ s.inputs = a :: more ∧ (a = .byte v ∨ (a = .eof ∧ v = 0)) ∧
      rest.length < 256 ∧
      t = { s.completed (s.pc + 1) with
        stack := v :: rest, inputs := more, trace := s.trace ++ [.input a] }) ∨
    (∃ rest a more, s.stack = 0 :: rest ∧ s.inputs = a :: more ∧ a ≠ .ioError ∧ 256 ≤ rest.length ∧
      t = takeFault s .stackOverflow none ((s.latch.setStack rest).recordInput a)) ∨
    (∃ rest more, s.stack = 0 :: rest ∧ s.inputs = .ioError :: more ∧
      t = takeFault s .syscallIo none ((s.latch.setStack rest).recordInput .ioError)) ∨
    (s.stack = [1] ∧ t = takeFault s .stackUnderflow none (s.latch.setStack [])) ∨
    (∃ b rest, s.stack = 1 :: b :: rest ∧ s.outAnswer = .ok ∧
      t = { s.completed (s.pc + 1) with
        stack := rest, outAnswers := s.outAnswers.tail, trace := s.trace ++ [.output b .ok] }) ∨
    (∃ b rest, s.stack = 1 :: b :: rest ∧ s.outAnswer = .ioError ∧
      t = takeFault s .syscallIo none ((s.latch.setStack rest).recordOutput b)) ∨
    (∃ rest, s.stack = 2 :: rest ∧ s.dumpAnswer = .ok ∧
      t = { s.completed (s.pc + 1) with
        stack := rest, dumpAnswers := s.dumpAnswers.tail
        trace := s.trace ++ [.dump rest.reverse s.mem .ok] }) ∨
    (∃ rest, s.stack = 2 :: rest ∧ s.dumpAnswer = .ioError ∧
      t = takeFault s .syscallIo none (s.latch.setStack rest).recordDump) ∨
    (s.stack = [3] ∧ t = takeFault s .stackUnderflow none (s.latch.setStack [])) ∨
    (∃ b rest, s.stack = 3 :: b :: rest ∧
      t = { s.completed (s.pc + 1) with stack := rest, halted := true, exitCode := b }) ∨
    (∃ sel rest, s.stack = sel :: rest ∧ 4 ≤ sel.toNat ∧
      t = takeFault s .unexpectedSyscall (some sel) (s.latch.setStack rest)) := by
  rw [exec_next_iff] at h
  subst h
  rw [show operation .syscall = opSyscall from rfl]
  rcases e : s.stack with _ | ⟨sel, rest⟩
  · rw [opSyscall_nil (by simpa using e)]
    exact .inl ⟨rfl, rfl⟩
  · rw [opSyscall_cons (by simpa using e)]
    right
    rcases selector_cases sel with rfl | rfl | rfl | rfl | ⟨h4, n0, n1, n2, n3⟩
    · rcases hin : s.inputs with _ | ⟨a, more⟩
      · exact .inl ⟨rest, rfl, rfl, by simp [sysRead, portIn, hin]⟩
      · right
        by_cases hr : 256 ≤ rest.length
        · right
          cases a with
          | byte b => exact .inl ⟨rest, _, more, rfl, rfl, by simp, hr, by simp [sysRead, portIn, hin, push_of_ge, hr]⟩
          | eof => exact .inl ⟨rest, _, more, rfl, rfl, by simp, hr, by simp [sysRead, portIn, hin, push_of_ge, hr]⟩
          | ioError => exact .inr (.inl ⟨rest, more, rfl, rfl, by simp [sysRead, portIn, hin]⟩)
        · have hl : rest.length < 256 := Nat.lt_of_not_le hr
          cases a with
          | byte b =>
            refine .inl ⟨rest, _, more, b, rfl, rfl, by simp, hl, ?_⟩
            simp only [if_true, sysRead, portIn, State.setStack_inputs, State.latch_inputs, hin, Result.bind_ok]
            rw [push_of_lt (by simpa using hl)]
            simp [State.advance, State.setStack, State.recordInput, State.latch, State.completed, hin]
          | eof =>
            refine .inl ⟨rest, _, more, 0, rfl, rfl, by simp, hl, ?_⟩
            simp only [if_true, sysRead, portIn, State.setStack_inputs, State.latch_inputs, hin, Result.bind_ok]
            rw [push_of_lt (by simpa using hl)]
            simp [State.advance, State.setStack, State.recordInput, State.latch, State.completed, hin]
          | ioError => exact .inr (.inr (.inl ⟨rest, more, rfl, rfl, by simp [sysRead, portIn, hin]⟩))
    · iterate 4 right
      rcases rest with _ | ⟨b, r⟩
      · exact .inl ⟨rfl, by simp [sysWrite, pop]⟩
      · right
        cases ho : s.outAnswer
        · refine .inl ⟨b, r, rfl, rfl, ?_⟩
          simp [sysWrite, pop, portOut, checkPort, ho]
          simp [State.advance, State.setStack, State.recordOutput, State.latch, State.completed]
          exact ho
        · refine .inr (.inl ⟨b, r, rfl, rfl, ?_⟩)
          simp [sysWrite, pop, portOut, checkPort, ho]
          rfl
    · iterate 7 right
      cases hd : s.dumpAnswer
      · refine .inl ⟨rest, rfl, rfl, ?_⟩
        simp [sysDump, portDump, checkPort, hd]
        simp [State.advance, State.setStack, State.recordDump, State.latch, State.completed]
        exact hd
      · refine .inr (.inl ⟨rest, rfl, rfl, ?_⟩)
        simp [sysDump, portDump, checkPort, hd]
    · iterate 9 right
      rcases rest with _ | ⟨b, r⟩
      · exact .inl ⟨rfl, by simp [sysExit, pop]⟩
      · refine .inr (.inl ⟨b, r, rfl, ?_⟩)
        simp [sysExit, pop]
        rfl
    · iterate 11 right
      refine ⟨sel, rest, rfl, h4, ?_⟩
      rw [if_neg n0, if_neg n1, if_neg n2, if_neg n3]
      rfl

/-- What no cycle of SYSCALL changes: the stream, the parameters, the call stack and the memory. -/
theorem exec_syscall_keeps {s t : State} (h : exec .syscall s = .next t) :
    t.code = s.code ∧ t.cfg = s.cfg ∧ t.calls = s.calls ∧ t.mem = s.mem := by
  rcases exec_syscall_cases h with ⟨-, rfl⟩ | ⟨_, -, -, rfl⟩ | ⟨_, _, _, _, -, -, -, -, rfl⟩ |
    ⟨_, _, _, -, -, -, -, rfl⟩ | ⟨_, _, -, -, rfl⟩ | ⟨-, rfl⟩ | ⟨_, _, -, -, rfl⟩ | ⟨_, _, -, -, rfl⟩ |
    ⟨_, -, -, rfl⟩ | ⟨_, -, -, rfl⟩ | ⟨-, rfl⟩ | ⟨_, _, -, rfl⟩ | ⟨_, _, -, -, rfl⟩ <;>
    exact ⟨rfl, rfl, rfl, rfl⟩

/-! ### The host's answer -/

/-- An answer with no transaction outstanding is kept (R143). -/
theorem deliverInput_of_not_waiting {s : State} (h : s.status ≠ .waiting) (a : InAnswer) :
    s.deliverInput a = s.queueInput a := if_neg h

/-- An answer to an outstanding transaction ends the cycle of the SYSCALL that waits, as if the host had answered it at
once (R143). -/
theorem exec_syscall_of_waiting {s : State} (h : s.status = .waiting) (a : InAnswer) :
    exec .syscall (s.queueInput a) = .next (s.deliverInput a) := by
  rw [exec_eq_finish, State.deliverInput, if_pos h]
  rfl

/-- Everything an answer of the host can do: it is kept, or it ends the cycle that waits. -/
theorem deliverInput_cases (s : State) (a : InAnswer) :
    (s.status ≠ .waiting ∧ s.deliverInput a = s.queueInput a) ∨
    (s.status = .waiting ∧ exec .syscall (s.queueInput a) = .next (s.deliverInput a)) := by
  by_cases h : s.status = .waiting
  · exact .inr ⟨h, exec_syscall_of_waiting h a⟩
  · exact .inl ⟨h, deliverInput_of_not_waiting h a⟩

/-- What no answer of the host changes. -/
theorem deliverInput_keeps (s : State) (a : InAnswer) :
    (s.deliverInput a).code = s.code ∧ (s.deliverInput a).cfg = s.cfg ∧ (s.deliverInput a).calls = s.calls ∧
      (s.deliverInput a).mem = s.mem := by
  obtain ⟨-, h⟩ | ⟨-, h⟩ := deliverInput_cases s a
  · rw [h]; exact ⟨rfl, rfl, rfl, rfl⟩
  · obtain ⟨h1, h2, h3, h4⟩ := exec_syscall_keeps h
    exact ⟨h1, h2, h3, h4⟩

/-- An answer ends the wait (R37, R143): the status is WAITING no more. -/
theorem deliverInput_not_waiting {s : State} (h : s.status = .waiting) (a : InAnswer) :
    (s.deliverInput a).waiting = false := by
  rcases exec_syscall_cases (exec_syscall_of_waiting h a) with
    ⟨-, e⟩ | ⟨_, -, hi, -⟩ | ⟨_, _, _, _, -, -, -, -, e⟩ | ⟨_, _, _, -, -, -, -, e⟩ | ⟨_, _, -, -, e⟩ | ⟨-, e⟩ |
    ⟨_, _, -, -, e⟩ | ⟨_, _, -, -, e⟩ | ⟨_, -, -, e⟩ | ⟨_, -, -, e⟩ | ⟨-, e⟩ | ⟨_, _, -, e⟩ | ⟨_, _, -, -, e⟩
  case inr.inl => exact absurd hi (by simp [State.queueInput])
  all_goals rw [e]; rfl

end Sys2Proof.Machine
end

