-- ==== Sys2Proof/Tests/Slice0.lean ====
section
/-! SUPPORT. Small tests: the checks of WellFormed, the decoding of words written out from the spec's table of
encodings (30_encoding.md R82), one step per vector of 95_test_vectors.md, and a witness for the hypotheses of every
obligation that has some. The stacks below are written top first; the spec writes them bottom first. -/

namespace Sys2Proof.Tests

open Sys2Proof.Machine

/-! ## Helpers -/

/-- The next state of an outcome. -/
def after : Host.Outcome State Fault Refusal → Option State
  | .next t => some t
  | .fault _ => none
  | .refused _ => none

/-- A machine right after the load of a stream, with an operand stack. -/
def st (code stack : List Byte) : State := { State.reset with code := code, stack := stack }

/-- The operand stack and `pc` after one step. -/
def ran (s : State) : Option (List Byte × Nat) := (after (step s)).map fun t => (t.stack, t.pc)

/-- The fault register after one step. -/
def faulted (s : State) : Option (Option FaultRecord) := (after (step s)).map fun t => t.fault

/-- A full operand stack with `v` on top. -/
def full (v : Byte) : List Byte := v :: List.replicate 255 7

/-! ## WellFormed -/

theorem test_wf_push_without_immediate : Instr.wf (.push none) = false := by decide
theorem test_wf_addi_without_immediate : Instr.wf (.addi none) = false := by decide
theorem test_wf_subi_without_immediate : Instr.wf (.subi none) = false := by decide
theorem test_wf_muli_without_immediate : Instr.wf (.muli none) = false := by decide
theorem test_wf_divi_without_immediate : Instr.wf (.divi none) = false := by decide
theorem test_wf_modi_without_immediate : Instr.wf (.modi none) = false := by decide
theorem test_wf_jz_without_immediate : Instr.wf (.jz none) = false := by decide
theorem test_wf_jmz_without_immediate : Instr.wf (.jmz none) = false := by decide
theorem test_wf_storei_without_immediate : Instr.wf (.storei none) = false := by decide
theorem test_wf_loadi_without_immediate : Instr.wf (.loadi none) = false := by decide
theorem test_wf_call_without_immediate : Instr.wf (.call none) = false := by decide

/-- An operation may not stand at two bytes of its family, and none may be missing (R81). -/
theorem test_wf_config_repeated :
    Config.wf { Config.default with cmpCodes := [.eq, .eq, .lt, .le, .gt, .ge] } = false := by decide

theorem test_wf_config_missing :
    Config.wf { Config.default with arithCodes := [.add, .sub, .mul, .div, .mod, .addi, .subi, .muli, .divi] } =
      false := by decide

theorem test_wf_config_foreign :
    Config.wf { Config.default with cmpCodes := [.eq, .neq, .lt, .le, .gt, .fin] } = false := by decide

theorem test_wf_config_other_order :
    Config.wf { Config.default with cmpCodes := [.ge, .gt, .le, .lt, .neq, .eq] } = true := by decide

/-! ## Decoding: the bytes are those of R82's table -/

theorem test_decode_syscall : decode Config.default [0b00000000, 0xA5] = .ok (.syscall, [0xA5]) := by rfl
theorem test_decode_push :
    decode Config.default [0b00000001, 0xA5, 0xFF] = .ok (.push (some 0xA5), [0xFF]) := by rfl
theorem test_decode_pop : decode Config.default [0b00000010, 0xA5] = .ok (.pop, [0xA5]) := by rfl
theorem test_decode_dup : decode Config.default [0b00000011, 0xA5] = .ok (.dup, [0xA5]) := by rfl
theorem test_decode_swap : decode Config.default [0b00000100, 0xA5] = .ok (.swap, [0xA5]) := by rfl
theorem test_decode_add : decode Config.default [0b00010000, 0xA5] = .ok (.add, [0xA5]) := by rfl
theorem test_decode_sub : decode Config.default [0b00010001, 0xA5] = .ok (.sub, [0xA5]) := by rfl
theorem test_decode_mul : decode Config.default [0b00010010, 0xA5] = .ok (.mul, [0xA5]) := by rfl
theorem test_decode_div : decode Config.default [0b00010011, 0xA5] = .ok (.div, [0xA5]) := by rfl
theorem test_decode_mod : decode Config.default [0b00010100, 0xA5] = .ok (.mod, [0xA5]) := by rfl
theorem test_decode_addi :
    decode Config.default [0b00010101, 0xA5, 0xFF] = .ok (.addi (some 0xA5), [0xFF]) := by rfl
theorem test_decode_subi :
    decode Config.default [0b00010110, 0xA5, 0xFF] = .ok (.subi (some 0xA5), [0xFF]) := by rfl
theorem test_decode_muli :
    decode Config.default [0b00010111, 0xA5, 0xFF] = .ok (.muli (some 0xA5), [0xFF]) := by rfl
theorem test_decode_divi :
    decode Config.default [0b00011000, 0xA5, 0xFF] = .ok (.divi (some 0xA5), [0xFF]) := by rfl
theorem test_decode_modi :
    decode Config.default [0b00011001, 0xA5, 0xFF] = .ok (.modi (some 0xA5), [0xFF]) := by rfl
theorem test_decode_eq : decode Config.default [0b00011010, 0xA5] = .ok (.eq, [0xA5]) := by rfl
theorem test_decode_neq : decode Config.default [0b00011011, 0xA5] = .ok (.neq, [0xA5]) := by rfl
theorem test_decode_lt : decode Config.default [0b00011100, 0xA5] = .ok (.lt, [0xA5]) := by rfl
theorem test_decode_le : decode Config.default [0b00011101, 0xA5] = .ok (.le, [0xA5]) := by rfl
theorem test_decode_gt : decode Config.default [0b00011110, 0xA5] = .ok (.gt, [0xA5]) := by rfl
theorem test_decode_ge : decode Config.default [0b00011111, 0xA5] = .ok (.ge, [0xA5]) := by rfl
theorem test_decode_jz :
    decode Config.default [0b00100000, 0xA5, 0xFF] = .ok (.jz (some 0xA5), [0xFF]) := by rfl
theorem test_decode_jmz :
    decode Config.default [0b00100001, 0xA5, 0xFF] = .ok (.jmz (some 0xA5), [0xFF]) := by rfl
theorem test_decode_store : decode Config.default [0b00110000, 0xA5] = .ok (.store, [0xA5]) := by rfl
theorem test_decode_load : decode Config.default [0b00110001, 0xA5] = .ok (.load, [0xA5]) := by rfl
theorem test_decode_storei :
    decode Config.default [0b00110010, 0xA5, 0xFF] = .ok (.storei (some 0xA5), [0xFF]) := by rfl
theorem test_decode_loadi :
    decode Config.default [0b00110011, 0xA5, 0xFF] = .ok (.loadi (some 0xA5), [0xFF]) := by rfl
theorem test_decode_call :
    decode Config.default [0b01000000, 0xA5, 0xFF] = .ok (.call (some 0xA5), [0xFF]) := by rfl
theorem test_decode_ret : decode Config.default [0b01000001, 0xA5] = .ok (.ret, [0xA5]) := by rfl
theorem test_decode_fin : decode Config.default [0b11111111, 0xA5] = .ok (.fin, [0xA5]) := by rfl

/-- The second word of opcode_table.json's numbering is the immediate. -/
theorem test_table_word : decodeTableWord 16 0x0A01 = some (.push (some 0x0A)) := by decide

/-- With the bits above `nbits` 0. -/
theorem test_table_word_short : decodeTableWord 8 0x0A40 = some (.call (some 0)) := by decide

theorem test_table_word_invalid : decodeTableWord 8 0x05 = none := by decide

/-- A word placed at a `pc` beyond the stream is the one that runs. -/
theorem test_with_fetch_word :
    ran (State.withFetchWord { st [] [] with pc := 3, halted := true } 16 0x0A01) = some ([0x0A], 5) := by decide

/-! ## One step, from the vectors of 95_test_vectors.md -/

/-- V9. -/
theorem test_invalid_opcode :
    faulted (st [0x05] [9]) = some (some { kind := .invalidOpcode, info := some 0x05, pc := 0 }) := by decide

/-- V22. -/
theorem test_push : ran (st [0x01, 0xFF] []) = some ([255], 2) := by decide

/-- V24. -/
theorem test_push_exhausted_before_overflow :
    faulted (st [0x01] (full 7)) = some (some { kind := .streamExhausted, info := none, pc := 0 }) := by decide

/-- V26. -/
theorem test_pop : ran (st [0x02] [4, 3]) = some ([3], 1) := by decide

/-- V30. -/
theorem test_dup_overflow :
    faulted (st [0x03] (full 7)) = some (some { kind := .stackOverflow, info := none, pc := 0 }) := by decide +kernel

/-- V28. -/
theorem test_dup : ran (st [0x03] [9]) = some ([9, 9], 1) := by decide

/-- V33. -/
theorem test_swap : ran (st [0x04] [2, 1, 7]) = some ([1, 2, 7], 1) := by decide

/-- V41. -/
theorem test_add_saturates : ran (st [0x10] [100, 200]) = some ([255], 1) := by decide

/-- V47. -/
theorem test_sub_saturates : ran (st [0x11] [10, 3]) = some ([0], 1) := by decide

/-- V46. -/
theorem test_sub_order : ran (st [0x11] [3, 10]) = some ([7], 1) := by decide

/-- V51. -/
theorem test_mul : ran (st [0x12] [15, 16]) = some ([240], 1) := by decide

/-- V52. -/
theorem test_mul_saturates : ran (st [0x12] [16, 16]) = some ([255], 1) := by decide

/-- V55. -/
theorem test_div_floor : ran (st [0x13] [3, 10]) = some ([3], 1) := by decide

/-- V61. -/
theorem test_div_needs_both_operands :
    faulted (st [0x13] [0]) = some (some { kind := .stackUnderflow, info := none, pc := 0 }) := by decide

/-- V65. -/
theorem test_mod : ran (st [0x14] [16, 255]) = some ([15], 1) := by decide

/-- V67. -/
theorem test_mod_zero :
    faulted (st [0x14] [0, 7]) = some (some { kind := .divisionByZero, info := none, pc := 0 }) := by decide

/-- V68. -/
theorem test_addi_saturates : ran (st [0x15, 0x0A] [250]) = some ([255], 2) := by decide

/-- V71. -/
theorem test_addi_exhausted_first :
    faulted (st [0x15] []) = some (some { kind := .streamExhausted, info := none, pc := 0 }) := by decide

/-- V72. -/
theorem test_subi : ran (st [0x16, 0x01] [5]) = some ([4], 2) := by decide

/-- V76. -/
theorem test_muli_saturates : ran (st [0x17, 0x02] [200]) = some ([255], 2) := by decide

/-- V78. -/
theorem test_divi : ran (st [0x18, 0x07] [100]) = some ([14], 2) := by decide

/-- V82. -/
theorem test_modi : ran (st [0x19, 0x07] [100]) = some ([2], 2) := by decide

/-- V84. -/
theorem test_modi_zero :
    faulted (st [0x19, 0x00] [10]) = some (some { kind := .divisionByZero, info := none, pc := 0 }) := by decide

/-- V106. -/
theorem test_eq_true : ran (st [0x1A] [4, 4, 9]) = some ([0, 9], 1) := by decide

/-- V93. -/
theorem test_neq_false : ran (st [0x1B] [4, 4]) = some ([1], 1) := by decide

/-- V97. -/
theorem test_lt_unsigned : ran (st [0x1C] [255, 0]) = some ([0], 1) := by decide

/-- V96. -/
theorem test_lt_equal : ran (st [0x1C] [5, 5]) = some ([1], 1) := by decide

/-- V98. -/
theorem test_le_equal : ran (st [0x1D] [5, 5]) = some ([0], 1) := by decide

/-- V103. -/
theorem test_gt_unsigned : ran (st [0x1E] [0, 255]) = some ([0], 1) := by decide

/-- V105. -/
theorem test_ge_less : ran (st [0x1F] [7, 6]) = some ([1], 1) := by decide

/-- V113. -/
theorem test_jz_taken : ran (st [0x20, 0x09] [0, 7]) = some ([7], 9) := by decide

/-- V112. -/
theorem test_jz_not_taken : ran (st [0x20, 0x09] [255]) = some ([], 2) := by decide

/-- V120. -/
theorem test_jmz : ran (st [0x21, 0xC8] []) = some ([], 200) := by decide

/-- V135: the top is the value, the entry below it the address. -/
theorem test_store :
    (after (step (st [0x30] [7, 8, 9]))).map (fun t => (t.mem, t.stack)) = some ([(8, 7)], [9]) := by decide

/-- V136. -/
theorem test_load : ran { st [0x31] [5] with mem := [(5, 42)] } = some ([42], 1) := by decide

/-- V150. -/
theorem test_load_empty :
    faulted { st [0x31] [0x20] with mem := [(0x21, 5)] } =
      some (some { kind := .uninitializedMemory, info := some 0x20, pc := 0 }) := by decide

/-- V141. -/
theorem test_storei :
    (after (step (st [0x32, 0x00] [3]))).map (fun t => (t.mem, t.pc)) = some ([(0, 3)], 2) := by decide

/-- V144. -/
theorem test_storei_pops_first :
    faulted (st [0x32] []) = some (some { kind := .stackUnderflow, info := none, pc := 0 }) := by decide

/-- V145. -/
theorem test_loadi : ran { st [0x33, 0x00] [] with mem := [(0, 3)] } = some ([3], 2) := by decide

/-- V148. -/
theorem test_loadi_empty_before_overflow :
    faulted (st [0x33, 0x10] (full 7)) =
      some (some { kind := .uninitializedMemory, info := some 0x10, pc := 0 }) := by decide

/-- V160. -/
theorem test_call :
    (after (step { st [0x00, 0x00, 0x40, 0x07] [] with pc := 2 })).map (fun t => (t.calls, t.pc)) =
      some ([3], 7) := by decide

/-- V162. -/
theorem test_call_overflow :
    faulted { st [0x40, 0x05] [] with calls := List.replicate 256 1 } =
      some (some { kind := .callStackOverflow, info := none, pc := 0 }) := by decide +kernel

/-- V165. -/
theorem test_ret :
    (after (step { st [0x41] [] with calls := [9, 1] })).map (fun t => (t.calls, t.pc)) = some ([1], 10) := by decide

/-- V166. -/
theorem test_ret_underflow :
    faulted (st [0x41] []) = some (some { kind := .callStackUnderflow, info := none, pc := 0 }) := by decide

/-- V168. -/
theorem test_fin :
    (after (step { st [0xFF] [30] with calls := [5] })).map (fun t => (t.status, t.stack, t.calls)) =
      some (.done 0, [30], [5]) := by decide

/-- V180. -/
theorem test_syscall_read : ran { st [0x00] [0] with inputs := [.byte 0x41] } = some ([0x41], 1) := by decide

/-- V183: WAITING, with the stack as it was, and no step from there. -/
theorem test_syscall_waits :
    (after (step (st [0x00] [0]))).map (fun t => (t.status, t.stack, step t)) =
      some (.waiting, [0], .fault .runWaits) := rfl

/-- V180 with the answer given after V183's wait: it completes the SYSCALL with no further step. -/
theorem test_answer_completes_the_syscall :
    (after (step (st [0x00, 0xFF] [0]))).map (fun t =>
      ((t.deliverInput (.byte 0x41)).status, (t.deliverInput (.byte 0x41)).stack, (t.deliverInput (.byte 0x41)).pc)) =
      some (.running, [0x41], 1) := by decide

/-! V192 and V197 are two of the witnesses below. -/

/-! ## Reset and load -/

/-- V220. -/
theorem test_load_accepts :
    (match load Config.default ⟨[], [], []⟩ [0x00, 0x54, 0x57, 0x4E, 0x01, 0x0A, 0x01, 0x14, 0x10, 0xFF] with
      | .accept s => some (s.code.length, s.pc)
      | .formatError => none) = some (6, 0) := by decide

/-- V225. -/
theorem test_load_rejects :
    load Config.default ⟨[], [], []⟩ [0x00, 0x74, 0x77, 0x6E, 0xFF] = .formatError := by decide

/-- R230: the ten codes. -/
theorem test_fault_codes :
    [FaultKind.stackOverflow, .stackUnderflow, .callStackOverflow, .callStackUnderflow, .divisionByZero, .invalidOpcode,
      .uninitializedMemory, .unexpectedSyscall, .streamExhausted, .syscallIo].map FaultKind.code =
      [1, 2, 3, 4, 5, 6, 7, 8, 9, 10] := by decide

/-- R141: the two bits of an entry word that tell what a selector pops and pushes. -/
theorem test_systab_bits :
    ([0, 1, 2, 3].map fun sel => (sysPopsArg (sysTab sel), sysPushes (sysTab sel))) =
      [(false, true), (true, false), (false, false), (true, false)] := by decide

/-- V189: M all EMPTY, and one cell written. -/
theorem test_dump_shows_every_cell :
    Memory.cells [] = List.replicate 256 none ∧ (Memory.cells [(255, 1)])[255]? = some (some 1) := by decide +kernel

/-- V221. -/
theorem test_reset_ends_at_once : State.reset.status = .done 0 := by decide

/-! ## The assembler -/

/-- R91, R95, R97: `jz` to a label defined after it, the label in another case. -/
theorem test_assemble_forward_label :
    (assemble Config.default .lastWins "jz End ; loop\nfin end: 0x1f".toList).toOption =
      some [0x00, 0x54, 0x57, 0x4E, 0x20, 0x03, 0xFF, 0x1F] := by decide

/-- R91, R95: any word that fails the earlier tests is a label, whatever characters it has. -/
theorem test_assemble_any_word_is_a_label :
    (assemble Config.default .lastWins ['J', 'M', 'Z', ' ', '#', '\x7F', '\n', '#', '\x7F', ':']).toOption =
      some [0x00, 0x54, 0x57, 0x4E, 0x21, 0x02] := by decide

/-- 93_implementation_defined.md section 2: a no-break space is white space beyond ASCII. -/
theorem test_assemble_refuses_other_white_space :
    assemble Config.default .lastWins ['F', 'I', 'N', '\u00A0', 'F', 'I', 'N'] = .error (.unspecifiedWhitespace 1) := by
  rfl

/-- R94, R98: 256 is no decimal byte, so it is a reference to a label that nothing defines. -/
theorem test_assemble_unknown_label :
    assemble Config.default .lastWins "PUSH 256".toList = .error (.unknownLabel 1 ['2', '5', '6']) := by rfl

/-! ## Witnesses: concrete states and operands that meet the hypotheses of an obligation, clause by clause -/

/-- The magic header and one FIN. -/
def tiny : List Byte := [0x00, 0x54, 0x57, 0x4E, 0xFF]

/-- The machine after the load of a program that stores 9 in cell 255. -/
def storing : State := st [0x01, 0x09, 0x32, 0xFF, 0xFF] []

theorem witness_AcceptedLoadLeavesResetState :
    ∃ s, load Config.default ⟨[], [], []⟩ tiny = .accept s := ⟨_, rfl⟩

theorem witness_AcceptedImageIsStrippedAndFixed :
    tiny.take 4 = [0x00, 0x54, 0x57, 0x4E] ∧
    ∃ s t, load Config.default ⟨[], [], []⟩ tiny = .accept s ∧ 0 < s.code.length ∧ Run s [s] t :=
  ⟨rfl, _, _, rfl, by decide, .snoc .refl rfl⟩

theorem witness_BadImageIsAFormatError :
    ([0x00, 0x54, 0x57] : List Byte).length < 4 ∧
    ([0x00, 0x54, 0x57, 0x4F] : List Byte).take 4 ≠ [0x00, 0x54, 0x57, 0x4E] := by decide

theorem witness_UnmappedBytesRaiseInvalidOpcode :
    Config.default.wf = true ∧ Active (st [0x05] []) ∧ (st [0x05] []).code.drop 0 = [0x05] ∧
    opAt Config.default 0x05 = none ∧ opAt Config.default 0x42 = none ∧ opAt Config.default 0xFE = none ∧
    Op.isImm .push = true := ⟨by decide, rfl, rfl, rfl, rfl, rfl, rfl⟩

theorem witness_DecodeOfEncodeIsTheInstruction :
    Config.default.wf = true ∧ Instr.wf (.push (some 255)) = true ∧ Instr.wf .fin = true ∧
    Instr.wf (.call none) = false := by decide

theorem witness_EncodeOfDecodeIsTheBytes :
    Config.default.wf = true ∧ decode Config.default [0x01, 0xFF, 0x02] = .ok (.push (some 255), [0x02]) ∧
    decode Config.default [0x40] = .ok (.call none, []) := ⟨by decide, rfl, rfl⟩

theorem witness_StepRunsTheDecodedInstruction :
    Active (st [0x02] [7]) ∧
    decode (st [0x02] [7]).cfg ((st [0x02] [7]).code.drop (st [0x02] [7]).pc) = .ok (.pop, []) :=
  ⟨rfl, rfl⟩

theorem witness_LastByteOpcodeExhaustsTheStream :
    (Active (st [0x20] []) ∧ (st [0x20] []).code.drop 0 = [0x20] ∧ opAt Config.default 0x20 = some .jz) ∧
    (Active (st [0x32] [1]) ∧ opAt Config.default 0x32 = some .storei) ∧
    (Active (st [0x01] []) ∧ opAt Config.default 0x01 = some .push) :=
  ⟨⟨rfl, rfl, rfl⟩, ⟨rfl, rfl⟩, rfl, rfl⟩

theorem witness_EndedRunTakesNoStep :
    (st [] []).status = .done 0 ∧
    State.status { st [0xFF] [] with fault := some { kind := .streamExhausted, info := none, pc := 0 } } =
      .faulted { kind := .streamExhausted, info := none, pc := 0 } ∧
    State.status { st [0x00] [0] with waiting := true } = .waiting ∧ Active (st [0xFF] []) := ⟨rfl, rfl, rfl, rfl⟩

theorem witness_PcAfterACompletedInstruction :
    (∃ t, exec .add (st [] [1, 2]) = .next t ∧ t.fault = none ∧ t.waiting = false) ∧
    (∃ t, exec (.push (some 1)) (st [] []) = .next t ∧ t.fault = none ∧ t.waiting = false) ∧
    (∃ t, exec (.jz (some 255)) (st [] [0]) = .next t ∧ t.fault = none ∧ t.waiting = false) ∧
    (∃ t, exec (.jz (some 255)) (st [] [1]) = .next t ∧ t.fault = none ∧ t.waiting = false) ∧
    (∃ t, exec (.jmz (some 0)) (st [] []) = .next t ∧ t.fault = none ∧ t.waiting = false) ∧
    (∃ t, exec (.call (some 0)) (st [] []) = .next t ∧ t.fault = none ∧ t.waiting = false) ∧
    ∃ t, exec .ret { st [] [] with calls := [1] } = .next t ∧ t.fault = none ∧ t.waiting = false :=
  ⟨⟨_, rfl, rfl, rfl⟩, ⟨_, rfl, rfl, rfl⟩, ⟨_, rfl, rfl, rfl⟩, ⟨_, rfl, rfl, rfl⟩, ⟨_, rfl, rfl, rfl⟩,
    ⟨_, rfl, rfl, rfl⟩, _, rfl, rfl, rfl⟩

theorem witness_NothingEndsALoopOrAWait :
    ((st [0x21, 0x00] []).status = .running ∧ (st [0x21, 0x00] []).code.drop 0 = [0x21, 0x00]) ∧
    Active (st [0x00] [0]) ∧ (st [0x00] [0]).stack = [0] ∧ (st [0x00] [0]).inputs = [] :=
  ⟨⟨rfl, rfl⟩, rfl, rfl, rfl⟩

/-- The clauses of PushPutsTheImmediateOnTop, PopDiscardsTheTop, DupDoublesTheTop and SwapExchangesTheTopTwo: depth 255 is the deepest that takes one more entry. -/
theorem witness_StackOperations :
    (st [] (List.replicate 255 7)).stack.length < 256 ∧ 256 ≤ (st [] (full 7)).stack.length ∧
    (st [] (full 7)).stack.length ≤ 256 ∧ (st [] [9]).stack = 9 :: [] ∧ (st [] []).stack = [] ∧
    (st [] [9]).stack.length < 2 ∧ (st [] [2, 1]).stack = 2 :: 1 :: [] := by decide +kernel

theorem witness_ArithmeticSaturates :
    (st [] (full 3)).stack = 3 :: 7 :: List.replicate 254 7 ∧ (st [] (full 3)).stack.length ≤ 256 ∧
    (3 : Byte) ≠ 0 ∧ (st [] [0, 9]).stack = 0 :: 9 :: [] := by decide +kernel

theorem witness_ZeroDivisorsFaultOrFollowThePolicy :
    (st [] [0, 9]).stack = 0 :: 9 :: [] ∧ (st [] [0, 9]).cfg.modZero = .fault ∧ (st [] [9]).stack = 9 :: [] ∧
    State.cfg { st [] [0, 9] with cfg := { Config.default with modZero := .result } } =
      { Config.default with modZero := .result } ∧
    (st [] [0, 9]).stack.length ≤ 256 := by decide

theorem witness_ImmediateArithmeticUsesTheImmediateAsRightOperand :
    (st [] (full 3)).stack = 3 :: List.replicate 255 7 ∧ (st [] (full 3)).stack.length ≤ 256 ∧ (255 : Byte) ≠ 0 := by
  decide +kernel

theorem witness_ComparisonsPushZeroForTrue :
    (st [] (full 3)).stack = 3 :: 7 :: List.replicate 254 7 ∧ (st [] (full 3)).stack.length ≤ 256 ∧
    Instr.op .ge ∈ Op.cmpOps ∧ (st [] [1]).stack.length < 2 := by decide +kernel

theorem witness_JzJumpsOnZeroOnly :
    (st [] [0, 5]).stack = 0 :: [5] ∧ (st [] [255]).stack = 255 :: [] ∧ (st [] []).stack = [] ∧
    (st [] [0]).stack ≠ [] ∧
    ∃ t, exec (.jz (some 2)) (st [0x20, 0x02] [0]) = .next t ∧ (st [0x20, 0x02] [0]).code.length ≤ (2 : Byte).toNat :=
  ⟨rfl, rfl, rfl, by decide, _, rfl, by decide⟩

theorem witness_JmzJumpsAlways :
    ∃ t, exec (.jmz (some 2)) (st [0x21, 0x02] []) = .next t ∧ (st [0x21, 0x02] []).fault = none ∧
      (st [0x21, 0x02] []).code.length ≤ (2 : Byte).toNat := ⟨_, rfl, rfl, by decide⟩

/-- The clauses of StoreWritesTheCell, LoadPushesTheCell, StoreiWritesTheImmediateCell and
LoadiPushesTheImmediateCell, at the first and the last cell. -/
theorem witness_MemoryOperations :
    (st [] [7, 255]).stack = 7 :: 255 :: [] ∧ (st [] [255]).stack = 255 :: [] ∧ (st [] [1]).stack.length < 2 ∧
    (st [] []).stack = [] ∧ (st [] [1]).stack ≠ [] ∧
    (State.mem { st [] [] with mem := [(0, 1), (255, 42)] }).read (255 : Byte).toNat = some 42 ∧
    (st [] [0]).mem.read (0 : Byte).toNat = none ∧ (st [] (full 0)).stack.length ≤ 256 ∧
    256 ≤ (st [] (full 0)).stack.length := by decide +kernel

/-- A cell that was stored to, and one that was not, with an answer the host gives in between. -/
theorem witness_MemoryHoldsTheMostRecentStore :
    ∃ s t u, load Config.default ⟨[], [], []⟩ ([0x00, 0x54, 0x57, 0x4E] ++ storing.code) = .accept s ∧
      Run s [t, s] u ∧ latestStore 255 [t, s] = some 9 ∧ latestStore 254 [t, s] = none ∧
      u.stack.length < 256 :=
  ⟨_, _, _, rfl, .snoc (.input .eof (.snoc .refl rfl)) rfl, rfl, rfl, by decide⟩

/-- The step that is the second store to a cell: its history holds the first. -/
theorem witness_StepKeepsTheStoreHistory :
    ∃ s t u, step s = .next t ∧ step t = .next u ∧ (∀ a, t.mem.read a = latestStore a [s]) ∧
      storeOf s = some (7, 1) ∧ storeOf t = some (7, 2) :=
  ⟨st [0x30, 0x30] [1, 7, 2, 7], _, _, rfl, rfl, fun _ => rfl, rfl, rfl⟩

theorem witness_WrittenCellsStayWritten :
    ∃ s t, step s = .next t ∧ s.mem.read 255 ≠ none ∧ t.mem.read 255 ≠ s.mem.read 255 :=
  ⟨{ st [0x30] [7, 255] with mem := [(255, 1)] }, _, rfl, by decide, by decide⟩

/-- The clauses of CallPushesItsImmediateAddress and RetResumesAfterTheCall: depth 255 is the deepest that takes one more address. -/
theorem witness_CallAndRet :
    (List.replicate 255 1).length < 256 ∧ 256 ≤ (List.replicate 256 1).length ∧
    (∃ t, exec (.call (some 2)) (st [0x40, 0x02] []) = .next t) ∧
    (st [0x40, 0x02] []).code.length ≤ (2 : Byte).toNat ∧
    (∃ t, exec .ret { st [0x41, 0x00] [] with calls := [1] } = .next t) ∧
    (State.code { st [0x41, 0x00] [] with calls := [1] }).length ≤ 1 + 1 :=
  ⟨by decide +kernel, by decide +kernel, ⟨_, rfl⟩, by decide, ⟨_, rfl⟩, by decide⟩

theorem witness_CallThenRetComesBack :
    (st [] []).calls.length < 256 ∧
    ∃ t, exec (.call (some 0)) (st [] []) = .next t ∧ (State.calls { st [] [] with calls := [1] }) = t.calls :=
  ⟨by decide, _, rfl, rfl⟩

theorem witness_SyscallReadPushesTheInput :
    (st [] (full 0)).stack = 0 :: List.replicate 255 7 ∧ (st [] (full 0)).stack.length ≤ 256 ∧
    State.inputs { st [] (full 0) with inputs := [.byte 255] } = .byte 255 :: [] ∧
    State.inputs { st [] (full 0) with inputs := [.eof] } = .eof :: [] ∧
    State.inputs { st [] (full 0) with inputs := [.ioError] } = .ioError :: [] := by decide +kernel

theorem witness_SyscallReadWaitsForAnAnswer :
    (st [0x00] [0]).stack = 0 :: [] ∧ (st [0x00] [0]).inputs = [] ∧ Active (st [0x00] [0]) ∧
    ∃ t, exec .syscall (st [0x00] [0]) = .next t := ⟨rfl, rfl, rfl, _, rfl⟩

theorem witness_SyscallWriteSendsTheByte :
    (st [] [1, 72]).stack = 1 :: 72 :: [] ∧ State.outAnswer { st [] [1, 72] with outAnswers := [.ok] } = .ok ∧
    State.outAnswer { st [] [1, 72] with outAnswers := [.ioError] } = .ioError ∧ (st [] [1]).stack = [1] := by decide

theorem witness_SyscallDumpSendsTheSnapshot :
    (st [] [2, 5]).stack = 2 :: [5] ∧ State.dumpAnswer { st [] [2] with dumpAnswers := [.ok] } = .ok ∧
    State.dumpAnswer { st [] [2] with dumpAnswers := [.ioError] } = .ioError := by decide

/-- V192 of 95_test_vectors.md among them. -/
theorem witness_SyscallExitHaltsWithTheByte :
    (st [] [3, 7]).stack = 3 :: 7 :: [] ∧ (st [] [3, 7]).fault = none ∧
    (∃ t, exec .syscall (st [] [3, 7]) = .next t ∧ t.exitCode = 7) ∧ (st [] [3]).stack = [3] :=
  ⟨rfl, rfl, ⟨_, rfl, rfl⟩, rfl⟩

theorem witness_OtherSelectorsAreUnexpected :
    (st [] [4]).stack = 4 :: [] ∧ 4 ≤ (4 : Byte).toNat ∧ 4 ≤ (255 : Byte).toNat ∧ (st [] []).stack = [] := by decide

/-- One step of each kind, no transaction and one on each port; and an answer to a wait, and one that is kept. -/
theorem witness_PortTransactionsAreInProgramOrder :
    (∃ t, step (st [0xFF] []) = .next t) ∧
    (∃ t, step { st [0x00] [0] with inputs := [.eof] } = .next t ∧ t.trace = [.input .eof]) ∧
    (∃ t, step { st [0x00] [1, 72] with outAnswers := [.ok] } = .next t ∧ t.trace = [.output 72 .ok]) ∧
    (∃ t, step { st [0x00] [2, 5, 6] with dumpAnswers := [.ok] } = .next t ∧ t.trace = [.dump [6, 5] [] .ok]) ∧
    (State.status { st [0x00] [0] with waiting := true } = .waiting ∧ (st [0x00] [0]).inputs = []) ∧
    (st [0x00] [0]).status ≠ .waiting :=
  ⟨⟨_, rfl⟩, ⟨_, rfl, rfl⟩, ⟨_, rfl, rfl⟩, ⟨_, rfl, rfl⟩, ⟨rfl, rfl⟩, by decide⟩

/-- V197 of 95_test_vectors.md and V209. -/
theorem witness_FirstApplicableFaultIsRaised :
    (∃ t, exec .syscall (st [0x00] [255, 8]) = .next t ∧
      (t.fault.map fun r => (r.kind, r.info)) = some (.unexpectedSyscall, some 255)) ∧
    ∃ t, (st [0xFE] []).code.drop 0 = 0xFE :: [] ∧ opAt Config.default 0xFE = none ∧ step (st [0xFE] []) = .next t :=
  ⟨⟨_, rfl, rfl⟩, _, rfl, rfl, rfl⟩

/-- A fault of the block, and one of a port (V188). -/
theorem witness_FaultEntryRestoresTheState :
    (∃ t r, step (st [0x13] [0, 9]) = .next t ∧ t.fault = some r ∧ r.kind ≠ .syscallIo) ∧
    ∃ t r, step { st [0x00] [1, 72] with outAnswers := [.ioError] } = .next t ∧ t.fault = some r ∧
      r.kind = .syscallIo ∧ t.stack = [1, 72] :=
  ⟨⟨_, _, rfl, rfl, by decide⟩, _, _, rfl, rfl, rfl, rfl⟩

/-- V211, V216 and V214 of 95_test_vectors.md. -/
theorem witness_ReportedPcFollowsTheMode :
    (∃ t r, step { st [0x33, 0x05] [] with cfg := { Config.default with faultPcMode := .current } } = .next t ∧
      t.fault = some r ∧ r.pc = 1) ∧
    (∃ t r, step { st [0x20] [] with cfg := { Config.default with faultPcMode := .current } } = .next t ∧
      t.fault = some r ∧ r.pc = 0) ∧
    (∃ t r, step (st [0x33, 0x05] []) = .next t ∧ t.fault = some r ∧ r.pc = 0) ∧
    ∃ t r b, step (st [0xFE] []) = .next t ∧ t.fault = some r ∧
      decode Config.default [0xFE] = .error (.invalidOpcode b) :=
  ⟨⟨_, _, rfl, rfl, rfl⟩, ⟨_, _, rfl, rfl, rfl⟩, ⟨_, _, rfl, rfl, rfl⟩, _, _, _, rfl, rfl, rfl⟩

theorem witness_StackEffectsAreThoseOfTheTable :
    (∃ t, exec .store (st [] [7, 8]) = .next t ∧ t.fault = none ∧ t.waiting = false) ∧
    ∃ t, exec .syscall { st [] [1, 8] with outAnswers := [.ok] } = .next t ∧ t.fault = none ∧ t.waiting = false :=
  ⟨⟨_, rfl, rfl, rfl⟩, _, rfl, rfl, rfl⟩

/-- DUP on one entry, above a base that leaves it just enough room. -/
theorem witness_EntriesBelowAreNotSeen :
    ∃ t, exec .dup (st [] [9]) = .next t ∧ t.fault = none ∧
      (st [] [9]).stack.length + (List.replicate 254 (7 : Byte)).length ≤ 256 ∧
      t.stack.length + (List.replicate 254 (7 : Byte)).length ≤ 256 :=
  ⟨_, rfl, rfl, by decide +kernel, by decide +kernel⟩

theorem witness_HaltedAndExitCodeHaveTwoWriters :
    (∃ s, load Config.default ⟨[], [], []⟩ tiny = .accept s) ∧
    (∃ t, exec .fin (st [] []) = .next t) ∧
    (∃ t, exec .syscall (st [] [3, 255]) = .next t ∧ (st [] [3, 255]).stack = 3 :: 255 :: []) ∧
    (∃ t, exec .pop (st [] [1]) = .next t) ∧
    State.halted { st [] [] with halted := true } = true ∧ State.fault { st [] [] with halted := true } = none :=
  ⟨⟨_, rfl⟩, ⟨_, rfl⟩, ⟨_, rfl, rfl⟩, ⟨_, rfl⟩, rfl, rfl⟩

theorem witness_CodeAndParametersAreReadOnly : ∃ t u, Run storing [t, storing] u :=
  ⟨_, _, .snoc (.snoc .refl rfl) rfl⟩

theorem witness_FaultRegisterIsWrittenAtMostOnce :
    (∃ t, step (st [0xFF] []) = .next t) ∧
    ∃ t, Run { st [0xFF] [] with fault := some { kind := .streamExhausted, info := none, pc := 0 } } [] t ∧
      t.inputs = [.eof] :=
  ⟨⟨_, rfl⟩, _, .input .eof .refl, rfl⟩

/-- StackOperationsFrame, ControlTransferFrame, StoresFrame, LoadsFrame, and FinAndSyscallFrame for FIN: an instruction
of each, completing and, but for FIN, raising. -/
theorem witness_Frames :
    (Instr.op .add ∈ stackOps ∧ (∃ t, exec .add (st [] [1, 2]) = .next t) ∧ ∃ t, exec .add (st [] [1]) = .next t) ∧
    (Instr.op .ret ∈ [Op.jz, Op.jmz, Op.call, Op.ret] ∧ (∃ t, exec .ret (st [] []) = .next t) ∧
      ∃ t, exec .ret { st [] [] with calls := [1] } = .next t) ∧
    ((∃ t, exec .store (st [] [7, 255]) = .next t ∧ (st [] [7, 255]).stack = 7 :: 255 :: []) ∧
      (∃ t, exec .store (st [] [7]) = .next t) ∧ ∃ t, exec (.storei none) (st [] [7]) = .next t) ∧
    ((∃ t, exec .load { st [] [255] with mem := [(255, 1)] } = .next t ∧ t.fault = none) ∧
      ∃ t, exec .load (st [] [255]) = .next t ∧ t.fault.isSome = true) ∧
    ∃ t, exec .fin (st [] []) = .next t :=
  ⟨⟨by decide, ⟨_, rfl⟩, _, rfl⟩, ⟨by decide, ⟨_, rfl⟩, _, rfl⟩, ⟨⟨_, rfl, rfl⟩, ⟨_, rfl⟩, _, rfl⟩,
    ⟨⟨_, rfl, rfl⟩, _, rfl, rfl⟩, _, rfl⟩

/-- FinAndSyscallFrame's clauses on SYSCALL: every selector completing above an entry it leaves alone, selector 0 waiting,
and selectors 4 and 255, which raise. -/
theorem witness_FinAndSyscallFrame :
    (∃ t, exec .syscall { st [] [0, 8] with inputs := [.byte 9] } = .next t ∧ t.fault = none ∧ t.waiting = false ∧
      t.stack = [9, 8]) ∧
    (∃ t, exec .syscall (st [] [0, 8]) = .next t ∧ t.waiting = true) ∧
    (∃ t, exec .syscall { st [] [1, 9, 8] with outAnswers := [.ok] } = .next t ∧ t.fault = none ∧
      t.waiting = false ∧ t.stack = [8]) ∧
    (∃ t, exec .syscall { st [] [2, 8] with dumpAnswers := [.ok] } = .next t ∧ t.fault = none ∧
      t.waiting = false ∧ t.stack = [8]) ∧
    (∃ t, exec .syscall (st [] [3, 9, 8]) = .next t ∧ t.fault = none ∧ t.waiting = false ∧ t.stack = [8]) ∧
    (∃ t, exec .syscall (st [] [4, 8]) = .next t ∧ t.fault.isSome = true ∧ 3 ≤ (4 : Byte).toNat) ∧
    ∃ t, exec .syscall (st [] [255, 8]) = .next t ∧ t.fault.isSome = true :=
  ⟨⟨_, rfl, rfl, rfl, rfl⟩, ⟨_, rfl, rfl⟩, ⟨_, rfl, rfl, rfl, rfl⟩, ⟨_, rfl, rfl, rfl, rfl⟩, ⟨_, rfl, rfl, rfl, rfl⟩,
    ⟨_, rfl, rfl, by decide⟩, _, rfl, rfl⟩

/-- A state in the middle of a run that meets the invariant and steps. -/
theorem witness_StepKeepsTheInvariant : RunInvariant storing ∧ ∃ t, step storing = .next t :=
  ⟨⟨by decide, by decide, by decide, by decide, rfl, fun _ => rfl, by decide, by decide, nofun, by decide, by decide⟩,
    _, rfl⟩

theorem witness_ReachableStatesMeetTheInvariant :
    ∃ s t, Reachable s ∧ step s = .next t ∧ Reachable t ∧ t.status = .done 0 ∧ t.halted = false :=
  ⟨_, _, .load (cfg := Config.default) (ports := ⟨[], [], []⟩) (image := [0x00, 0x54, 0x57, 0x4E, 0x01, 0x01]) rfl,
    rfl, .step (.load (cfg := Config.default) (ports := ⟨[], [], []⟩) (image := [0x00, 0x54, 0x57, 0x4E, 0x01, 0x01]) rfl)
      rfl, rfl, rfl⟩

/-- With the last byte of the input, and then at its end. -/
theorem witness_LaunchPremisesRuleOutPortFaults :
    (LaunchPremises [5] (0 + 1)
        { st [0x00] [0] with inputs := [.byte 5, .eof], outAnswers := [.ok], dumpAnswers := [.ok] } ∧
      ∃ t, step { st [0x00] [0] with inputs := [.byte 5, .eof], outAnswers := [.ok], dumpAnswers := [.ok] } = .next t) ∧
    LaunchPremises [] (0 + 1)
        { st [0x00] [0] with inputs := [.eof], outAnswers := [.ok], dumpAnswers := [.ok] } :=
  ⟨⟨⟨⟨1, rfl⟩, by decide, by decide, by decide, by decide, by decide⟩, _, rfl⟩,
    ⟨1, rfl⟩, by decide, by decide, by decide, by decide, by decide⟩

/-- Tokens for ResolvedImageHasOneByteATokenAndLoads and LabelReferenceEmitsTheLabelAddress: a label defined twice,
referenced before both. -/
def tokens : List Token :=
  [⟨.op .jmz, 1⟩] ++ ⟨.labelRef ['L'], 1⟩ :: [⟨.labelDef ['L'], 2⟩, ⟨.int 9, 2⟩, ⟨.labelDef ['L'], 3⟩, ⟨.op .fin, 3⟩]

theorem witness_Assembler :
    ∃ image, resolve Config.default .lastWins tokens = .ok image ∧
      (⟨.labelRef ['L'], 1⟩ : Token) ∈ tokens ∧ image[4 + 1]? = some 3 :=
  ⟨_, rfl, by decide, rfl⟩

end Sys2Proof.Tests
end

/-! PROOF. What an instruction that completes leaves behind, read off its operation once for every instruction:
the stack it reshapes, and whatever else it changes. -/

namespace Sys2Proof.Machine

/-! ### Operations that reshape the operand stack -/

/-- Where `x` has a value, `p` entries of the stack of `s` have given way to `q` others, `pc` is `n` further on, and
nothing else has changed; a stack that something was pushed on is within its bound. -/
def Result.Reshapes {α : Type} (p q n : Nat) (s : State) : Result α → Prop
  | .ok _ u => ∃ popped pushed rest, s.stack = popped ++ rest ∧ popped.length = p ∧ pushed.length = q ∧
      (pushed = [] ∨ (pushed ++ rest).length ≤ stackMax) ∧ u = (s.setPc (s.pc + n)).setStack (pushed ++ rest)
  | .raised _ _ _ => True
  | .waits => True

/-- A value that is answered in the state it was asked in. -/
def Result.Reads {α : Type} (s : State) : Result α → Prop
  | .ok _ u => u = s
  | .raised _ _ _ => True
  | .waits => True

theorem memRead_reads (a : Byte) (s : State) : (memRead a s).Reads s := by
  unfold memRead; split
  · trivial
  · rfl

theorem divSat_reads (a b : Byte) (s : State) : (divSat a b s).Reads s := by
  unfold divSat; split
  · trivial
  · rfl

theorem modTrunc_reads (a b : Byte) (s : State) : (modTrunc a b s).Reads s := by
  unfold modTrunc; split
  · split
    · trivial
    · rfl
  · rfl

section
variable {α β : Type} {f : α → State → Result β} {p q n : Nat} {s : State}

theorem ok_reshapes (a : α) (s : State) : (Result.ok a s).Reshapes 0 0 0 s :=
  ⟨[], [], s.stack, rfl, rfl, rfl, .inl rfl, rfl⟩

theorem push_reshapes (v : Byte) (s : State) : (push v s).Reshapes 0 1 0 s := by
  by_cases h : s.stack.length < 256
  · rw [push_of_lt h]
    exact ⟨[], [v], s.stack, rfl, rfl, rfl, .inr h, rfl⟩
  · rw [push_of_ge (Nat.le_of_not_lt h)]
    trivial

/-- DUP and SWAP: the second push is the one that decides the bound. -/
theorem push_push_reshapes (a b : Byte) (s : State) :
    ((push a s).bind fun _ u => push b u).Reshapes 0 2 0 s := by
  by_cases h : s.stack.length < 256
  · rw [push_of_lt h, Result.bind_ok]
    by_cases h' : s.stack.length + 1 < 256
    · rw [push_of_lt (by simpa using h')]
      exact ⟨[], [b, a], s.stack, rfl, rfl, rfl, .inr h', rfl⟩
    · rw [push_of_ge (by simpa using h')]
      trivial
  · rw [push_of_ge (Nat.le_of_not_lt h)]
    trivial

theorem Result.Reads.bind_reshapes {x : Result α} (hx : x.Reads s) (hf : ∀ a, (f a s).Reshapes p q n s) :
    (x.bind f).Reshapes p q n s := by
  match x, hx with
  | .ok a _, rfl => exact hf a
  | .raised _ _ _, _ => trivial
  | .waits, _ => trivial

theorem pop_bind_reshapes {f : Byte → State → Result β} (hf : ∀ v u, (f v u).Reshapes p q n u) :
    ((pop s).bind f).Reshapes (p + 1) q n s := by
  rcases e : s.stack with _ | ⟨v, rest⟩
  · rw [pop_nil e]
    trivial
  · rw [pop_cons e, Result.bind_ok]
    have h := hf v (s.setStack rest)
    revert h
    match f v (s.setStack rest) with
    | .ok _ u =>
      rintro ⟨popped, pushed, below, h1, h2, h3, h4, rfl⟩
      rw [State.setStack_stack] at h1
      exact ⟨v :: popped, pushed, below, by rw [e, h1]; rfl, by simp [h2], h3, h4, rfl⟩
    | .raised _ _ _ => exact fun _ => trivial
    | .waits => exact fun _ => trivial

theorem imm_bind_reshapes {f : Byte → State → Result β} (v : Option Byte)
    (hf : ∀ b u, (f b u).Reshapes p q 0 u) : ((imm v s).bind f).Reshapes p q v.toList.length s := by
  cases v with
  | none => trivial
  | some b =>
    have h := hf b (s.setPc (s.pc + 1))
    rw [imm_some, Result.bind_ok]
    revert h
    match f b (s.setPc (s.pc + 1)) with
    | .ok _ u => exact fun h => h
    | .raised _ _ _ => exact fun _ => trivial
    | .waits => exact fun _ => trivial

theorem binary_reshapes {g : Byte → Byte → State → Result Byte} (hg : ∀ a b s, (g a b s).Reads s) (s : State) :
    (binary g s).Reshapes 2 1 0 s :=
  pop_bind_reshapes fun _ _ => pop_bind_reshapes fun _ u => (hg _ _ u).bind_reshapes fun _ => push_reshapes _ _

theorem binaryImm_reshapes {g : Byte → Byte → State → Result Byte} (hg : ∀ a b s, (g a b s).Reads s)
    (v : Option Byte) (s : State) : (binaryImm g v s).Reshapes 1 1 v.toList.length s :=
  imm_bind_reshapes v fun _ _ => pop_bind_reshapes fun _ u => (hg _ _ u).bind_reshapes fun _ => push_reshapes _ _

end

/-! ### The effect of every instruction but SYSCALL -/

/-- `Effect s i u`: the operation of `i`, begun in `s`, may complete in `u`. What is left open is which bytes a reshaped
stack has on top. -/
inductive Effect (s : State) : Instr → State → Prop
  /-- PUSH to GE, LOAD, LOADI, and JZ where it does not jump. -/
  | reshaped {i : Instr} {popped pushed rest : List Byte} :
      s.stack = popped ++ rest → stackEffect i s = (popped.length, pushed.length) →
      (pushed = [] ∨ (pushed ++ rest).length ≤ stackMax) →
      Effect s i ((s.setPc (s.pc + i.immediate.toList.length)).setStack (pushed ++ rest))
  | jzTaken {d : Byte} {rest : List Byte} : s.stack = 0 :: rest →
      Effect s (.jz (some d)) (((s.setStack rest).setPc (s.pc + 1)).jumpTo (codeTarget d))
  | jmz {d : Byte} : Effect s (.jmz (some d)) ((s.setPc (s.pc + 1)).jumpTo (codeTarget d))
  | call {d : Byte} : s.calls.length < callMax →
      Effect s (.call (some d))
        (((s.setPc (s.pc + 1)).setCalls ((s.pc + 1) :: s.calls)).jumpTo (codeTarget d))
  | ret {r : Nat} {rest : List Nat} : s.calls = r :: rest → Effect s .ret ((s.setCalls rest).setPc r)
  | store {v a : Byte} {rest : List Byte} : s.stack = v :: a :: rest →
      Effect s .store ((s.setStack rest).writeCell (dataAddr a) v)
  | storei {v a : Byte} {rest : List Byte} : s.stack = v :: rest →
      Effect s (.storei (some a)) (((s.setStack rest).setPc (s.pc + 1)).writeCell (dataAddr a) v)
  | fin : Effect s .fin (s.halt 0)

/-- A reshaping operation, as the effect of its instruction. -/
theorem Result.Reshapes.effect {i : Instr} {s u : State} (hr : (operation i s).Reshapes (stackEffect i s).1
    (stackEffect i s).2 i.immediate.toList.length s) (h : operation i s = .ok () u) : Effect s i u := by
  rw [h] at hr
  obtain ⟨popped, pushed, rest, hs, hp, hq, hb, rfl⟩ := hr
  exact .reshaped hs (by rw [hp, hq]) hb

theorem opJz_effect {t : Option Byte} {s u : State} (h : opJz t s = .ok () u) : Effect s (.jz t) u := by
  rcases e : s.stack with _ | ⟨flag, rest⟩
  · simp [opJz, pop_nil e] at h
  · cases t with
    | none => simp [opJz, pop_cons e] at h
    | some d =>
      simp only [opJz, pop_cons e, Result.bind_ok, imm_some] at h
      split at h
      · rename_i h0
        cases h
        exact .jzTaken (by rw [e, h0])
      · cases h
        exact .reshaped (popped := [flag]) (pushed := []) e rfl (.inl rfl)

theorem opJmz_effect {t : Option Byte} {s u : State} (h : opJmz t s = .ok () u) : Effect s (.jmz t) u := by
  cases t with
  | none => cases h
  | some d => cases h; exact .jmz

theorem opCall_effect {t : Option Byte} {s u : State} (h : opCall t s = .ok () u) : Effect s (.call t) u := by
  cases t with
  | none => cases h
  | some d =>
    simp only [opCall, imm_some, Result.bind_ok] at h
    by_cases hc : s.calls.length < 256
    · rw [cpush_of_lt (by simpa using hc)] at h
      cases h
      exact .call hc
    · rw [cpush_of_ge (by simpa using hc)] at h
      cases h

theorem opRet_effect {s u : State} (h : opRet s = .ok () u) : Effect s .ret u := by
  rcases e : s.calls with _ | ⟨r, rest⟩
  · simp [opRet, cpop_nil e] at h
  · simp only [opRet, cpop_cons e, Result.bind_ok] at h
    cases h
    exact .ret e

theorem opStore_effect {s u : State} (h : opStore s = .ok () u) : Effect s .store u := by
  rcases e : s.stack with _ | ⟨v, _ | ⟨a, rest⟩⟩
  · simp [opStore, pop_nil e] at h
  · simp [opStore, pop, e] at h
  · simp only [opStore, pop_cons e, Result.bind_ok, pop_cons (State.setStack_stack _ _)] at h
    cases h
    exact .store e

theorem opStorei_effect {a : Option Byte} {s u : State} (h : opStorei a s = .ok () u) : Effect s (.storei a) u := by
  rcases e : s.stack with _ | ⟨v, rest⟩
  · simp [opStorei, pop_nil e] at h
  · cases a with
    | none => simp [opStorei, pop_cons e] at h
    | some a =>
      simp only [opStorei, pop_cons e, Result.bind_ok, imm_some] at h
      cases h
      exact .storei e

/-- What the operation of an instruction other than SYSCALL does where it completes. -/
theorem operation_effect {i : Instr} {s u : State} (hi : i ≠ .syscall) (h : operation i s = .ok () u) :
    Effect s i u := by
  cases i with
  | syscall => exact absurd rfl hi
  | push v => exact Result.Reshapes.effect (imm_bind_reshapes v fun _ _ => push_reshapes _ _) h
  | pop => exact Result.Reshapes.effect (pop_bind_reshapes fun _ _ => ok_reshapes _ _) h
  | dup => exact Result.Reshapes.effect (pop_bind_reshapes fun _ _ => push_push_reshapes _ _ _) h
  | swap =>
    exact Result.Reshapes.effect
      (pop_bind_reshapes fun _ _ => pop_bind_reshapes fun _ _ => push_push_reshapes _ _ _) h
  | add => exact Result.Reshapes.effect (binary_reshapes (g := addSat) (fun _ _ _ => rfl) s) h
  | sub => exact Result.Reshapes.effect (binary_reshapes (g := subSat) (fun _ _ _ => rfl) s) h
  | mul => exact Result.Reshapes.effect (binary_reshapes (g := mulSat) (fun _ _ _ => rfl) s) h
  | div => exact Result.Reshapes.effect (binary_reshapes divSat_reads s) h
  | mod => exact Result.Reshapes.effect (binary_reshapes modTrunc_reads s) h
  | addi v => exact Result.Reshapes.effect (binaryImm_reshapes (g := addSat) (fun _ _ _ => rfl) v s) h
  | subi v => exact Result.Reshapes.effect (binaryImm_reshapes (g := subSat) (fun _ _ _ => rfl) v s) h
  | muli v => exact Result.Reshapes.effect (binaryImm_reshapes (g := mulSat) (fun _ _ _ => rfl) v s) h
  | divi v => exact Result.Reshapes.effect (binaryImm_reshapes divSat_reads v s) h
  | modi v => exact Result.Reshapes.effect (binaryImm_reshapes modTrunc_reads v s) h
  | eq => exact Result.Reshapes.effect (binary_reshapes (g := compareBytes _) (fun _ _ _ => rfl) s) h
  | neq => exact Result.Reshapes.effect (binary_reshapes (g := compareBytes _) (fun _ _ _ => rfl) s) h
  | lt => exact Result.Reshapes.effect (binary_reshapes (g := compareBytes _) (fun _ _ _ => rfl) s) h
  | le => exact Result.Reshapes.effect (binary_reshapes (g := compareBytes _) (fun _ _ _ => rfl) s) h
  | gt => exact Result.Reshapes.effect (binary_reshapes (g := compareBytes _) (fun _ _ _ => rfl) s) h
  | ge => exact Result.Reshapes.effect (binary_reshapes (g := compareBytes _) (fun _ _ _ => rfl) s) h
  | jz t => exact opJz_effect h
  | jmz t => exact opJmz_effect h
  | store => exact opStore_effect h
  | load =>
    exact Result.Reshapes.effect
      (pop_bind_reshapes fun _ u => (memRead_reads _ u).bind_reshapes fun _ => push_reshapes _ _) h
  | storei a => exact opStorei_effect h
  | loadi a =>
    exact Result.Reshapes.effect
      (imm_bind_reshapes a fun _ u => (memRead_reads _ u).bind_reshapes fun _ => push_reshapes _ _) h
  | call t => exact opCall_effect h
  | ret => exact opRet_effect h
  | fin => cases h; exact .fin

end Sys2Proof.Machine

/-! PROOF. Where an instruction raises its fault: `pc` is at the opcode or, after `imm()`, at the byte behind it. -/

namespace Sys2Proof.Machine

/-- What `x` raises, it raises with `pc` at `b` at most. -/
def Result.RaisesBy {α : Type} (b : Nat) : Result α → Prop
  | .ok _ _ => True
  | .raised _ _ u => u.pc ≤ b
  | .waits => True

section
variable {α β : Type} {b : Nat} {s : State}

/-- An operation that leaves `pc` alone raises where it began. -/
theorem Result.Fixes.raisesBy {x : Result α} (hx : x.Fixes State.pc s) (hb : s.pc ≤ b) : x.RaisesBy b := by
  match x, hx with
  | .ok _ _, _ => trivial
  | .raised _ _ u, hx => exact Nat.le_trans (Nat.le_of_eq hx) hb
  | .waits, _ => trivial

theorem Result.Fixes.bind_raisesBy {x : Result α} {f : α → State → Result β} (hx : x.Fixes State.pc s)
    (hb : s.pc ≤ b) (hf : ∀ a u, u.pc = s.pc → (f a u).RaisesBy b) : (x.bind f).RaisesBy b := by
  match x, hx with
  | .ok a u, hx => exact hf a u hx
  | .raised _ _ u, hx => exact Nat.le_trans (Nat.le_of_eq hx) hb
  | .waits, _ => trivial

theorem imm_bind_raisesBy {f : Byte → State → Result β} (v : Option Byte)
    (hf : ∀ a u, u.pc = s.pc + 1 → (f a u).RaisesBy (s.pc + 1)) :
    ((imm v s).bind f).RaisesBy (s.pc + 1) := by
  cases v with
  | none => exact Nat.le_refl _
  | some d => exact hf d _ rfl

theorem pop_fixes_pc (s : State) : (pop s).Fixes State.pc s := pop_fixes (fun _ _ => rfl) s

theorem push_fixes_pc (v : Byte) (s : State) : (push v s).Fixes State.pc s := push_fixes (fun _ _ => rfl) v s

theorem binary_raisesBy {g : Byte → Byte → State → Result Byte} (hg : ∀ a b s, (g a b s).Fixes State.pc s)
    (s : State) : (binary g s).RaisesBy (s.pc + 1) :=
  (binary_fixes (fun _ _ => rfl) hg s).raisesBy (Nat.le_succ _)

theorem binaryImm_raisesBy {g : Byte → Byte → State → Result Byte} (hg : ∀ a b s, (g a b s).Fixes State.pc s)
    (v : Option Byte) (s : State) : (binaryImm g v s).RaisesBy (s.pc + 1) :=
  imm_bind_raisesBy v fun _ u hu => Result.Fixes.raisesBy ((pop_fixes_pc u).bind fun _ u =>
    (hg _ _ u).bind fun _ u => push_fixes_pc _ u) (Nat.le_of_eq hu)

end

/-- Outside SYSCALL a fault is raised with `pc` at the opcode or one behind it. -/
theorem operation_raisesBy {i : Instr} (hi : i ≠ .syscall) (s : State) : (operation i s).RaisesBy (s.pc + 1) := by
  have hle : s.pc ≤ s.pc + 1 := Nat.le_succ _
  cases i with
  | syscall => exact absurd rfl hi
  | push v => exact imm_bind_raisesBy v fun _ u hu => (push_fixes_pc _ u).raisesBy (Nat.le_of_eq hu)
  | pop => exact Result.Fixes.raisesBy ((pop_fixes_pc s).bind fun _ _ => rfl) hle
  | dup =>
    exact Result.Fixes.raisesBy ((pop_fixes_pc s).bind fun _ u =>
      (push_fixes_pc _ u).bind fun _ u => push_fixes_pc _ u) hle
  | swap =>
    exact Result.Fixes.raisesBy ((pop_fixes_pc s).bind fun _ u => (pop_fixes_pc u).bind fun _ u =>
      (push_fixes_pc _ u).bind fun _ u => push_fixes_pc _ u) hle
  | add => exact binary_raisesBy (g := addSat) (fun _ _ _ => rfl) s
  | sub => exact binary_raisesBy (g := subSat) (fun _ _ _ => rfl) s
  | mul => exact binary_raisesBy (g := mulSat) (fun _ _ _ => rfl) s
  | div => exact binary_raisesBy divSat_fixes s
  | mod => exact binary_raisesBy modTrunc_fixes s
  | addi v => exact binaryImm_raisesBy (g := addSat) (fun _ _ _ => rfl) v s
  | subi v => exact binaryImm_raisesBy (g := subSat) (fun _ _ _ => rfl) v s
  | muli v => exact binaryImm_raisesBy (g := mulSat) (fun _ _ _ => rfl) v s
  | divi v => exact binaryImm_raisesBy divSat_fixes v s
  | modi v => exact binaryImm_raisesBy modTrunc_fixes v s
  | eq => exact binary_raisesBy (g := compareBytes _) (fun _ _ _ => rfl) s
  | neq => exact binary_raisesBy (g := compareBytes _) (fun _ _ _ => rfl) s
  | lt => exact binary_raisesBy (g := compareBytes _) (fun _ _ _ => rfl) s
  | le => exact binary_raisesBy (g := compareBytes _) (fun _ _ _ => rfl) s
  | gt => exact binary_raisesBy (g := compareBytes _) (fun _ _ _ => rfl) s
  | ge => exact binary_raisesBy (g := compareBytes _) (fun _ _ _ => rfl) s
  | jz t =>
    refine (pop_fixes_pc s).bind_raisesBy hle fun flag u hu => ?_
    rw [← hu]
    refine imm_bind_raisesBy t fun d w _ => ?_
    split <;> trivial
  | jmz t => exact imm_bind_raisesBy t fun _ _ _ => trivial
  | store => exact Result.Fixes.raisesBy ((pop_fixes_pc s).bind fun _ u => (pop_fixes_pc u).bind fun _ _ => rfl) hle
  | load =>
    exact Result.Fixes.raisesBy ((pop_fixes_pc s).bind fun _ u =>
      (memRead_fixes _ u).bind fun _ u => push_fixes_pc _ u) hle
  | storei a =>
    refine (pop_fixes_pc s).bind_raisesBy hle fun v u hu => ?_
    rw [← hu]
    exact imm_bind_raisesBy a fun _ _ _ => trivial
  | loadi a =>
    exact imm_bind_raisesBy a fun _ u hu => Result.Fixes.raisesBy ((memRead_fixes _ u).bind fun _ u =>
      push_fixes_pc _ u) (Nat.le_of_eq hu)
  | call t =>
    exact imm_bind_raisesBy t fun _ u hu =>
      (cpush_fixes (f := State.pc) (fun _ _ => rfl) _ u).bind_raisesBy (Nat.le_of_eq hu) fun _ _ _ => trivial
  | ret => exact (cpop_fixes (f := State.pc) (fun _ _ => rfl) s).bind_raisesBy hle fun _ _ _ => trivial
  | fin => trivial

end Sys2Proof.Machine

/-! PROOF. SYSCALL's endings in three kinds: it waits, it takes a fault, or it completes. -/

namespace Sys2Proof.Machine

/-- `SyscallEnd s t`: a cycle of SYSCALL begun in `s` may end in `t`. What the ports answer and record is left open. -/
inductive SyscallEnd (s : State) : State → Prop
  /-- R143: selector 0 with no answer at hand. -/
  | waits {rest : List Byte} : s.stack = 0 :: rest → s.inputs = [] → SyscallEnd s s.awaitInput
  /-- R236, R146: a fault, raised with `pc` at the opcode; a transaction performed before it stays performed. -/
  | faults {t : State} {k : FaultKind} {info : Option Byte} : info.isSome = k.carriesInfo →
      t = { s with
        ipc := s.pc, redirect := false, waiting := false, fault := some { kind := k, info := info, pc := s.pc }
        inputs := t.inputs, outAnswers := t.outAnswers, dumpAnswers := t.dumpAnswers, trace := t.trace } →
      SyscallEnd s t
  /-- R26, R142 to R147: the selector's entries give way to what it pushes; selector 3 alone writes the flags. -/
  | completes {t : State} {popped pushed rest : List Byte} : s.stack = popped ++ rest →
      stackEffect .syscall s = (popped.length, pushed.length) →
      (pushed = [] ∨ (pushed ++ rest).length ≤ stackMax) →
      ((∃ b, popped = [3, b] ∧ t.halted = true ∧ t.exitCode = b) ∨
        (t.halted = s.halted ∧ t.exitCode = s.exitCode)) →
      t = { s.completed (s.pc + 1) with
        stack := pushed ++ rest, halted := t.halted, exitCode := t.exitCode
        inputs := t.inputs, outAnswers := t.outAnswers, dumpAnswers := t.dumpAnswers, trace := t.trace } →
      SyscallEnd s t

/-- A fault that SYSCALL raises, whatever it has popped and whichever transaction it has performed. -/
theorem SyscallEnd.of_takeFault {s u : State} {k : FaultKind} {info : Option Byte}
    (hi : info.isSome = k.carriesInfo) (hcode : u.code = s.code) (hcfg : u.cfg = s.cfg) (hipc : u.ipc = s.pc)
    (hpc : u.pc = s.pc) (hw : u.waiting = false) : SyscallEnd s (takeFault s k info u) := by
  refine .faults hi ?_
  have hp : faultPc u.cfg.faultPcMode u.ipc u.pc = s.pc := by
    rw [hipc, hpc]; cases u.cfg.faultPcMode <;> rfl
  simp only [takeFault, hp]
  rw [hcode, hcfg, hipc, hw]

theorem exec_syscall_end {s t : State} (h : exec .syscall s = .next t) : SyscallEnd s t := by
  rcases exec_syscall_cases h with ⟨-, rfl⟩ | ⟨rest, hs, hin, rfl⟩ | ⟨rest, a, more, v, hs, -, -, hl, e⟩ |
    ⟨_, _, _, -, -, -, -, rfl⟩ | ⟨_, _, -, -, rfl⟩ | ⟨-, rfl⟩ | ⟨b, rest, hs, -, e⟩ | ⟨_, _, -, -, rfl⟩ |
    ⟨rest, hs, -, e⟩ | ⟨_, -, -, rfl⟩ | ⟨-, rfl⟩ | ⟨b, rest, hs, e⟩ | ⟨sel, _, -, -, rfl⟩
  · exact .of_takeFault rfl rfl rfl rfl rfl rfl
  · exact .waits hs hin
  · exact .completes (popped := [0]) (pushed := [v]) hs (by simp [stackEffect, hs]) (.inr hl)
      (.inr (by simp [e, State.completed])) (by rw [e]; rfl)
  · exact .of_takeFault rfl rfl rfl rfl rfl rfl
  · exact .of_takeFault rfl rfl rfl rfl rfl rfl
  · exact .of_takeFault rfl rfl rfl rfl rfl rfl
  · exact .completes (popped := [1, b]) (pushed := []) hs (by simp [stackEffect, hs]) (.inl rfl)
      (.inr (by simp [e, State.completed])) (by rw [e]; rfl)
  · exact .of_takeFault rfl rfl rfl rfl rfl rfl
  · exact .completes (popped := [2]) (pushed := []) hs (by simp [stackEffect, hs]) (.inl rfl)
      (.inr (by simp [e, State.completed])) (by rw [e]; rfl)
  · exact .of_takeFault rfl rfl rfl rfl rfl rfl
  · exact .of_takeFault rfl rfl rfl rfl rfl rfl
  · exact .completes (popped := [3, b]) (pushed := []) hs (by simp [stackEffect, hs]) (.inl rfl)
      (.inl ⟨b, rfl, by simp [e]⟩) (by rw [e]; rfl)
  · exact .of_takeFault rfl rfl rfl rfl rfl rfl

/-- Each selector leaves every port but its own, and the selectors from 3 on leave all of them and the record. -/
theorem exec_syscall_ports {s t : State} (h : exec .syscall s = .next t) :
    (s.stack.head? ≠ some 0 → t.inputs = s.inputs) ∧
    (s.stack.head? ≠ some 1 → t.outAnswers = s.outAnswers) ∧
    (s.stack.head? ≠ some 2 → t.dumpAnswers = s.dumpAnswers) ∧
    (∀ sel, s.stack.head? = some sel → 3 ≤ sel.toNat → SamePorts s t) := by
  rcases exec_syscall_cases h with ⟨hs, rfl⟩ | ⟨_, hs, -, rfl⟩ | ⟨_, _, _, _, hs, -, -, -, rfl⟩ |
    ⟨_, _, _, hs, -, -, -, rfl⟩ | ⟨_, _, hs, -, rfl⟩ | ⟨hs, rfl⟩ | ⟨_, _, hs, -, rfl⟩ | ⟨_, _, hs, -, rfl⟩ |
    ⟨_, hs, -, rfl⟩ | ⟨_, hs, -, rfl⟩ | ⟨hs, rfl⟩ | ⟨_, _, hs, rfl⟩ | ⟨_, _, hs, -, rfl⟩ <;>
    simp [hs, SamePorts, State.completed]

/-- R147: selector 3 with its argument, in full. -/
theorem exec_syscall_exit {s : State} {b : Byte} {rest : List Byte} (hs : s.stack = 3 :: b :: rest) :
    exec .syscall s =
      .next { s.completed (s.pc + 1) with stack := rest, halted := true, exitCode := b } := by
  have h : operation .syscall s.latch = .ok () ((s.latch.setStack rest).halt b) := by
    rw [show operation .syscall = opSyscall from rfl, opSyscall_cons (s := s.latch) hs]
    rfl
  rw [exec_of_ok h]
  rfl

/-- No other ending of SYSCALL writes the two flags. -/
theorem exec_syscall_flags {s t : State} (h : exec .syscall s = .next t)
    (hn : ¬∃ b rest, s.stack = 3 :: b :: rest) : t.halted = s.halted ∧ t.exitCode = s.exitCode := by
  cases exec_syscall_end h with
  | waits => exact ⟨rfl, rfl⟩
  | faults _ e => rw [e]; exact ⟨rfl, rfl⟩
  | completes hs _ _ hf _ =>
    rcases hf with ⟨b, rfl, -⟩ | hf
    · exact absurd ⟨b, _, hs⟩ hn
    · exact hf

end Sys2Proof.Machine

/-! PROOF. The invariant of a run: it holds at reset, and every step keeps it. -/

namespace Sys2Proof

/-- The decoder takes an instruction's immediate, where it has one, from the bytes it reads. -/
theorem decode_length {c : Config} {bs rest : List Byte} {i : Instr} (h : decode c bs = .ok (i, rest)) :
    1 + i.immediate.toList.length ≤ bs.length := by
  cases bs with
  | nil => simp [decode] at h
  | cons b bs =>
    rw [decode_cons] at h
    cases ho : opAt c b with
    | none => simp [ho] at h
    | some o =>
      simp only [ho] at h
      cases hm : o.isImm with
      | false =>
        rw [hm] at h
        cases h
        simp [Op.immediate_instr, hm]
      | true =>
        rw [hm] at h
        cases h
        cases bs <;> simp [Op.immediate_instr, hm]

end Sys2Proof

namespace Sys2Proof.Machine

/-! ### How a cycle ends -/

/-- A cycle of an instruction other than SYSCALL completes with the instruction's effect, or changes the latches and
writes the fault register. -/
theorem exec_ends {i : Instr} {s t : State} (hi : i ≠ .syscall) (h : exec i s = .next t) :
    (∃ u, Effect s.latch i u ∧ t = u.advance) ∨
    ∃ k info p, p ≤ s.pc + 1 ∧ info.isSome = k.carriesInfo ∧ t = { s with
      ipc := s.pc, redirect := false, waiting := false, fault := some { kind := k, info := info, pc := p } } := by
  obtain ⟨u, hu, rfl, -⟩ | ⟨k, info, u, hu, ⟨-, hinfo⟩, rfl⟩ := exec_cases hi h
  · exact .inl ⟨u, operation_effect hi hu, rfl⟩
  · refine .inr ⟨k, info, _, ?_, hinfo, rfl⟩
    have hpc := operation_raisesBy hi s.latch
    rw [hu] at hpc
    cases s.cfg.faultPcMode
    · exact Nat.le_succ _
    · exact hpc

/-! ### What an effect keeps within bounds -/

/-- A stack whose top entries give way to others, tested where any is pushed, stays within its bound. -/
theorem reshaped_length_le {l popped pushed rest : List Byte} (e : l = popped ++ rest)
    (hb : pushed = [] ∨ (pushed ++ rest).length ≤ stackMax) (hl : l.length ≤ stackMax) :
    (pushed ++ rest).length ≤ stackMax := by
  rcases hb with rfl | hb
  · rw [e, List.length_append] at hl
    exact Nat.le_trans (Nat.le_add_left _ _) hl
  · exact hb

section
variable {i : Instr} {s u : State}

theorem Effect.stack_length_le (h : Effect s i u) (hs : s.stack.length ≤ stackMax) : u.stack.length ≤ stackMax := by
  cases h with
  | reshaped e _ hb => exact reshaped_length_le e hb hs
  | jzTaken e | store e | storei e =>
    rw [e] at hs
    exact Nat.le_trans (List.Sublist.length_le (by simp)) hs
  | jmz | call | ret | fin => exact hs

theorem Effect.calls_length_le (h : Effect s i u) (hs : s.calls.length ≤ callMax) : u.calls.length ≤ callMax := by
  cases h with
  | call hc => exact hc
  | ret e =>
    rw [e] at hs
    exact Nat.le_of_succ_le hs
  | _ => exact hs

/-- CALL pushes the address of its own immediate byte, which lies in the stream. -/
theorem Effect.calls_lt (h : Effect s i u) (hpc : s.pc + 1 + i.immediate.toList.length ≤ s.code.length)
    (hs : ∀ r ∈ s.calls, r < s.code.length) : ∀ r ∈ u.calls, r < s.code.length := by
  cases h with
  | call =>
    intro r hr
    rcases List.mem_cons.1 hr with rfl | hr
    · exact hpc
    · exact hs r hr
  | ret e => exact fun r hr => hs r (e ▸ List.mem_cons_of_mem _ hr)
  | _ => exact hs

theorem Effect.mem_wf (h : Effect s i u) (hs : s.mem.wf) : u.mem.wf := by
  cases h with
  | @store v a => exact Memory.wf_write hs a.isLt v
  | @storei v a => exact Memory.wf_write hs a.isLt v
  | _ => exact hs

theorem Effect.exitCode_eq_zero (h : Effect s i u) (hs : s.halted = false → s.exitCode = 0) :
    u.halted = false → u.exitCode = 0 := by
  cases h with
  | fin => exact fun _ => rfl
  | _ => exact hs

/-- `pc` goes past the immediate or to a return address, both for the advance to go on from, or to a byte target. -/
theorem Effect.pc_cases (h : Effect s i u) :
    (u.redirect = s.redirect ∧ (u.pc = s.pc + i.immediate.toList.length ∨ u.pc ∈ s.calls)) ∨
      (u.redirect = true ∧ ∃ d : Byte, u.pc = d.toNat) := by
  cases h with
  | reshaped | store | storei | fin => exact .inl ⟨rfl, .inl rfl⟩
  | ret e => exact .inl ⟨rfl, .inr (e ▸ List.mem_cons_self)⟩
  | jzTaken | jmz | call => exact .inr ⟨rfl, _, rfl⟩

/-- R23, R74: the advance stays in reach, as do a byte target and the byte behind a return address. -/
theorem Effect.advance_pc_le (h : Effect s i u) (hr : s.redirect = false)
    (hpc : s.pc + 1 + i.immediate.toList.length ≤ s.code.length) (hs : ∀ r ∈ s.calls, r < s.code.length) :
    u.advance.pc ≤ max s.code.length 255 := by
  rw [State.advance_pc]
  rcases h.pc_cases with ⟨hred, hp⟩ | ⟨hred, d, hp⟩
  · rw [hred, hr, if_neg Bool.false_ne_true]
    have hle : u.pc + 1 ≤ s.code.length := by
      rcases hp with hp | hp
      · omega
      · exact hs _ hp
    exact Nat.le_trans hle (Nat.le_max_left _ _)
  · rw [hred, if_pos rfl, hp]
    exact Nat.le_trans (Nat.le_of_lt_succ d.isLt) (Nat.le_max_right _ _)

/-- What only SYSCALL, a fault or the end of the cycle touches. -/
theorem Effect.keeps (h : Effect s i u) :
    u.ipc = s.ipc ∧ u.fault = s.fault ∧ u.waiting = s.waiting ∧ SamePorts s u := by
  cases h <;> exact ⟨rfl, rfl, rfl, rfl, rfl, rfl, rfl, rfl, rfl⟩

end

/-! ### The invariant -/

/-- A state without a fault record that does not wait meets the invariant if it keeps the bounds. -/
theorem RunInvariant.of_running {t : State} (hf : t.fault = none) (hw : t.waiting = false)
    (stackBound : t.stack.length ≤ stackMax) (callsBound : t.calls.length ≤ callMax)
    (callsInStream : ∀ r ∈ t.calls, r < t.code.length) (memWf : t.mem.wf) (redirectConsumed : t.redirect = false)
    (exitCodeZero : t.halted = false → t.exitCode = 0) (pcBound : t.pc ≤ max t.code.length 255) :
    RunInvariant t where
  stackBound := stackBound
  callsBound := callsBound
  callsInStream := callsInStream
  memWf := memWf
  redirectConsumed := redirectConsumed
  exitCodeZero := exitCodeZero
  pcBound := pcBound
  waitingRuns h := absurd (hw.symm.trans h) (by decide)
  waitingRead h := absurd (hw.symm.trans h) (by decide)
  faultInfo r h := absurd (hf.symm.trans h) (by simp)
  faultPcBound r h := absurd (hf.symm.trans h) (by simp)

section
variable {s : State} (h : RunInvariant s)
include h

/-- D7: what a fault restores meets the invariant as it did before. -/
theorem RunInvariant.faulted {k : FaultKind} {info : Option Byte} {p : Nat} (hi : info.isSome = k.carriesInfo)
    (hp : p ≤ s.code.length) (ins : List InAnswer) (outs dumps : List PortAnswer) (tr : List PortEvent) :
    RunInvariant { s with
      ipc := s.pc, redirect := false, waiting := false, fault := some { kind := k, info := info, pc := p }
      inputs := ins, outAnswers := outs, dumpAnswers := dumps, trace := tr } where
  stackBound := h.stackBound
  callsBound := h.callsBound
  callsInStream := h.callsInStream
  memWf := h.memWf
  redirectConsumed := rfl
  exitCodeZero := h.exitCodeZero
  pcBound := h.pcBound
  waitingRuns := nofun
  waitingRead := nofun
  faultInfo := by rintro _ ⟨⟩; exact hi
  faultPcBound := by rintro _ ⟨⟩; exact hp

/-- R143: a SYSCALL with selector 0 and no answer leaves all as it was, but that the block waits. -/
theorem RunInvariant.awaits (ha : Active s) {more rest : List Byte}
    (hd : decode s.cfg (s.code.drop s.pc) = .ok (.syscall, more)) (hs : s.stack = 0 :: rest) (hin : s.inputs = []) :
    RunInvariant s.awaitInput := by
  obtain ⟨hf, hh, hpc, -⟩ := (active_iff s).1 ha
  exact {
    stackBound := h.stackBound
    callsBound := h.callsBound
    callsInStream := h.callsInStream
    memWf := h.memWf
    redirectConsumed := rfl
    exitCodeZero := h.exitCodeZero
    pcBound := h.pcBound
    waitingRuns := fun _ => (waiting_iff _).2 ⟨hf, hh, hpc, rfl⟩
    waitingRead := fun _ => ⟨hin, congrArg List.head? hs, more, hd⟩
    faultInfo := h.faultInfo
    faultPcBound := h.faultPcBound }

theorem RunInvariant.syscall {t : State} (ha : Active s) {more : List Byte}
    (hd : decode s.cfg (s.code.drop s.pc) = .ok (.syscall, more)) (ht : SyscallEnd s t) : RunInvariant t := by
  obtain ⟨hf, hh, hpc, -⟩ := (active_iff s).1 ha
  cases ht with
  | waits hs hin => exact h.awaits ha hd hs hin
  | faults hi e =>
    rw [e]
    exact h.faulted hi (Nat.le_of_lt hpc) _ _ _ _
  | completes hs _ hb hfl e =>
    have hexit : t.halted = false → t.exitCode = 0 := by
      rcases hfl with ⟨b, -, h1, -⟩ | ⟨h1, h2⟩
      · simp [h1]
      · rw [h1, h2]; exact h.exitCodeZero
    rw [e]
    exact .of_running hf rfl (reshaped_length_le hs hb h.stackBound) h.callsBound h.callsInStream h.memWf rfl hexit
      (Nat.le_trans hpc (Nat.le_max_left _ _))

theorem RunInvariant.effect {i : Instr} {u : State} {rest : List Byte} (ha : Active s)
    (hd : decode s.cfg (s.code.drop s.pc) = .ok (i, rest)) (he : Effect s.latch i u) : RunInvariant u.advance := by
  obtain ⟨hf, -, hpc, -⟩ := (active_iff s).1 ha
  obtain ⟨-, hfault, hwait, hcode, -⟩ := he.keeps
  have hlen : s.pc + 1 + i.immediate.toList.length ≤ s.code.length := by
    have := decode_length hd
    rw [List.length_drop] at this
    omega
  refine .of_running (hfault.trans hf) hwait (he.stack_length_le h.stackBound) (he.calls_length_le h.callsBound)
    ?_ (he.mem_wf h.memWf) rfl (he.exitCode_eq_zero h.exitCodeZero) ?_
  · rw [State.advance_code, hcode]
    exact he.calls_lt hlen h.callsInStream
  · rw [State.advance_code, hcode]
    exact he.advance_pc_le rfl hlen h.callsInStream

end

/-- Settles O55: by the kinds of a step, which are the fetch of an unmapped byte, SYSCALL, and the effect or the fault
of any other instruction. -/
theorem stepKeepsTheInvariant : Obligations.StepKeepsTheInvariant := by
  intro s t h hstep
  obtain ⟨ha, ⟨i, rest, hd, hex⟩ | ⟨b, rest, -, -, rfl⟩⟩ := step_cases hstep
  · by_cases hi : i = .syscall
    · subst hi
      exact h.syscall ha hd (exec_syscall_end hex)
    · obtain ⟨u, he, rfl⟩ | ⟨k, info, p, hp, hinfo, rfl⟩ := exec_ends hi hex
      · exact h.effect ha hd he
      · exact h.faulted hinfo (Nat.le_trans hp ((active_iff s).1 ha).2.2.1) _ _ _ _
  · rw [raiseInvalidOpcode_eq]
    exact h.faulted rfl (Nat.le_of_lt ((active_iff s).1 ha).2.2.1) _ _ _ _

/-- Settles O54: every field of the reset state is written out. -/
theorem resetMeetsTheInvariant : Obligations.ResetMeetsTheInvariant :=
  .of_running rfl rfl (Nat.zero_le _) (Nat.zero_le _) (by simp [State.reset]) Memory.wf_nil rfl (fun _ => rfl)
    (Nat.zero_le _)

end Sys2Proof.Machine

/-! PROOF. When a step is taken and which instruction it runs; what no run changes. -/

namespace Sys2Proof.Machine

/-- Settles O9: the dispatch of `step` in RUNNING. -/
theorem stepRunsTheDecodedInstruction : Obligations.StepRunsTheDecodedInstruction :=
  fun _ _ _ ha hd => step_of_decode ha hd

/-- RUNNING means that there is a byte at `pc`, and each byte is an opcode or raises InvalidOpcode. -/
theorem step_next_of_active {s : State} (ha : Active s) : ∃ t, step s = .next t := by
  obtain ⟨-, -, hpc, -⟩ := (active_iff s).1 ha
  rcases e : s.code.drop s.pc with _ | ⟨b, rest⟩
  · exact absurd (List.drop_eq_nil_iff.1 e) (Nat.not_le.2 hpc)
  · have hd := decode_cons s.cfg b rest
    cases ho : opAt s.cfg b with
    | none => exact ⟨_, step_of_invalid ha e ho⟩
    | some o =>
      obtain ⟨i, more, hi⟩ : ∃ i more, decode s.cfg (s.code.drop s.pc) = .ok (i, more) := by
        rw [e, hd, ho]
        dsimp only
        split <;> exact ⟨_, _, rfl⟩
      exact ⟨_, (step_of_decode ha hi).trans (exec_eq_finish i s)⟩

/-- Settles O11: the four statuses are the four branches of `step`, and in RUNNING there is an opcode to run. -/
theorem endedRunTakesNoStep : Obligations.EndedRunTakesNoStep := fun s =>
  ⟨fun c h => by simp only [step, h], fun r h => by simp only [step, h], step_of_waiting, step_next_of_active⟩

/-- What no step changes. -/
theorem step_code_cfg {s t : State} (h : step s = .next t) : t.code = s.code ∧ t.cfg = s.cfg := by
  obtain ⟨-, ⟨i, rest, -, hex⟩ | ⟨b, rest, -, -, rfl⟩⟩ := step_cases h
  · by_cases hi : i = .syscall
    · subst hi
      obtain ⟨hcode, hcfg, -⟩ := exec_syscall_keeps hex
      exact ⟨hcode, hcfg⟩
    · obtain ⟨u, -, rfl, hu⟩ | ⟨_, _, _, -, -, rfl⟩ := exec_cases hi hex
      · simp only [Prod.mk.injEq] at hu
        exact ⟨hu.1, hu.2.1⟩
      · exact ⟨rfl, rfl⟩
  · exact ⟨rfl, rfl⟩

/-- Settles O47: neither a step nor an answer of the host changes them, by induction on the run. -/
theorem codeAndParametersAreReadOnly : Obligations.CodeAndParametersAreReadOnly := by
  intro s l t hrun
  refine Run.induct (P := fun u => u.code = s.code ∧ u.cfg = s.cfg) (fun u v hu hstep => ?_) (fun u a hu => ?_)
    hrun ⟨rfl, rfl⟩
  · obtain ⟨hcode, hcfg⟩ := step_code_cfg hstep
    exact ⟨hcode.trans hu.1, hcfg.trans hu.2⟩
  · obtain ⟨hcode, hcfg, -, -⟩ := deliverInput_keeps u a
    exact ⟨hcode.trans hu.1, hcfg.trans hu.2⟩

/-- A step is taken only while no fault is registered. -/
theorem fault_none_of_step {s t : State} (h : step s = .next t) : s.fault = none :=
  ((active_iff s).1 (step_cases h).1).1

/-- A block that has faulted waits for nothing: an answer of the host is kept. -/
theorem deliverInput_of_fault {s : State} {r : FaultRecord} (h : s.fault = some r) (a : InAnswer) :
    s.deliverInput a = s.queueInput a := by
  refine deliverInput_of_not_waiting (fun hw => ?_) a
  rw [((waiting_iff s).1 hw).1] at h
  cases h

/-- Settles O48: by induction on the run, whose states all hold the first one's fault. -/
theorem faultRegisterIsWrittenAtMostOnce : Obligations.FaultRegisterIsWrittenAtMostOnce := by
  refine ⟨fun s t h => fault_none_of_step h, fun s l t r hrun hr => ?_⟩
  induction hrun with
  | refl => exact ⟨rfl, rfl⟩
  | snoc _ hstep ih =>
    obtain ⟨-, e⟩ := ih
    have hf := fault_none_of_step hstep
    rw [e] at hf
    exact absurd (hr.symm.trans hf) (by simp)
  | @input l t a _ ih =>
    obtain ⟨hl, e⟩ := ih
    have hf : t.fault = some r := by rw [e]; exact hr
    refine ⟨hl, ?_⟩
    rw [deliverInput_of_fault hf, e]
    rfl

/-! ### Data memory -/

/-- An effect changes no cell, or it is a store to one. -/
theorem Effect.mem_eq_or_store {i : Instr} {s u : State} (h : Effect s i u) :
    u.mem = s.mem ∨ ∃ a v, u.mem = s.mem.write (dataAddr a) v ∧
      ((i = .store ∧ ∃ rest, s.stack = v :: a :: rest) ∨ (i = .storei (some a) ∧ ∃ rest, s.stack = v :: rest)) := by
  cases h with
  | @store v a rest e => exact .inr ⟨a, v, rfl, .inl ⟨rfl, rest, e⟩⟩
  | @storei v a rest e => exact .inr ⟨a, v, rfl, .inr ⟨rfl, rest, e⟩⟩
  | _ => exact .inl rfl

/-- A step leaves the memory, or writes the store it performs to it. -/
theorem step_mem {s t : State} (h : step s = .next t) :
    t.mem = s.mem ∨ ∃ a v, storeOf s = some (a, v) ∧ t.mem = s.mem.write a v := by
  obtain ⟨-, ⟨i, rest, hd, hex⟩ | ⟨b, rest, -, -, rfl⟩⟩ := step_cases h
  · by_cases hi : i = .syscall
    · subst hi
      obtain ⟨-, -, -, hmem⟩ := exec_syscall_keeps hex
      exact .inl hmem
    · obtain ⟨u, he, rfl⟩ | ⟨_, _, _, -, -, rfl⟩ := exec_ends hi hex
      · rcases he.mem_eq_or_store with hmem | ⟨a, v, hmem, ⟨rfl, _, e⟩ | ⟨rfl, _, e⟩⟩
        · exact .inl hmem
        · exact .inr ⟨_, v, by rw [State.latch_stack] at e; simp [storeOf, hd, e], hmem⟩
        · exact .inr ⟨_, v, by rw [State.latch_stack] at e; simp [storeOf, hd, e], hmem⟩
      · exact .inl rfl
  · exact .inl rfl

/-- Settles O29: a step's one change of the memory is the write of its store. -/
theorem writtenCellsStayWritten : Obligations.WrittenCellsStayWritten := by
  intro s t a hstep
  rcases step_mem hstep with hmem | ⟨b, v, hst, hmem⟩
  · simp [hmem]
  · rw [hmem, Memory.read_write]
    by_cases hab : b = a
    · subst hab
      simp [hst]
    · simp [hab]

/-! ### The operand stack -/

/-- An effect pops and pushes what R26's table says. -/
theorem Effect.stack_shape {i : Instr} {s u : State} (h : Effect s i u) : ∃ popped pushed rest,
    s.stack = popped ++ rest ∧ u.stack = pushed ++ rest ∧ stackEffect i s = (popped.length, pushed.length) := by
  cases h with
  | @reshaped _ popped pushed rest e he _ => exact ⟨popped, pushed, rest, e, rfl, he⟩
  | @jzTaken _ rest e => exact ⟨[0], [], rest, e, rfl, rfl⟩
  | @store v a rest e => exact ⟨[v, a], [], rest, e, rfl, rfl⟩
  | @storei v _ rest e => exact ⟨[v], [], rest, e, rfl, rfl⟩
  | jmz | call | ret | fin => exact ⟨[], [], s.stack, rfl, rfl, rfl⟩

/-- R26's three readings of the entries that give way and those that stay. -/
theorem stackEffect_of_shape {l l' popped pushed rest : List Byte} {n : Nat × Nat} (hl : l = popped ++ rest)
    (hl' : l' = pushed ++ rest) (hn : n = (popped.length, pushed.length)) :
    n.1 ≤ l.length ∧ l'.length + n.1 = l.length + n.2 ∧ l'.drop n.2 = l.drop n.1 := by
  subst hl hl' hn
  refine ⟨by simp, ?_, by simp⟩
  simp only [List.length_append]
  omega

/-- An instruction that neither faults nor waits has an effect; SYSCALL completes. -/
theorem exec_stack_shape {i : Instr} {s t : State} (h : exec i s = .next t) (ht : t.fault = none)
    (hw : t.waiting = false) : ∃ popped pushed rest,
    s.stack = popped ++ rest ∧ t.stack = pushed ++ rest ∧ stackEffect i s = (popped.length, pushed.length) := by
  by_cases hi : i = .syscall
  · subst hi
    cases exec_syscall_end h with
    | waits => cases hw
    | faults _ e => rw [e] at ht; cases ht
    | @completes _ popped pushed rest hs he _ _ e => exact ⟨popped, pushed, rest, hs, by rw [e], he⟩
  · obtain ⟨u, he, rfl⟩ | ⟨_, _, _, -, -, rfl⟩ := exec_ends hi h
    · exact he.stack_shape
    · cases ht

/-- Settles O44: from the entries popped, pushed and left. -/
theorem stackEffectsAreThoseOfTheTable : Obligations.StackEffectsAreThoseOfTheTable := by
  intro i s t _ h ht hw
  obtain ⟨popped, pushed, rest, hl, hl', hn⟩ := exec_stack_shape h ht hw
  exact stackEffect_of_shape hl hl' hn

end Sys2Proof.Machine

/-! PROOF. Frames: what each instruction leaves as it was. -/

namespace Sys2Proof.Machine

/-! ### Parts of the state an effect changes -/

section
variable {i : Instr} {s u : State}

theorem Effect.calls_cases (h : Effect s i u) :
    u.calls = s.calls ∨ (i.op = .call ∧ u.calls = (s.pc + 1) :: s.calls) ∨
      (i.op = .ret ∧ u.calls = s.calls.tail) := by
  cases h with
  | call => exact .inr (.inl ⟨rfl, rfl⟩)
  | ret e => exact .inr (.inr ⟨rfl, by rw [e]; rfl⟩)
  | _ => exact .inl rfl

theorem Effect.flags_cases (h : Effect s i u) :
    (u.halted = s.halted ∧ u.exitCode = s.exitCode) ∨ (i = .fin ∧ u.halted = true ∧ u.exitCode = 0) := by
  cases h with
  | fin => exact .inr ⟨rfl, rfl, rfl⟩
  | _ => exact .inl ⟨rfl, rfl⟩

/-- An effect that pushes nothing drops what it pops. -/
theorem Effect.stack_eq_drop {p : Nat} (h : Effect s i u) (he : stackEffect i s = (p, 0)) :
    u.stack = s.stack.drop p := by
  obtain ⟨popped, pushed, rest, hs, hu, hn⟩ := h.stack_shape
  obtain ⟨rfl, hpushed⟩ := Prod.mk.inj (he.symm.trans hn)
  rw [hs, hu, List.eq_nil_of_length_eq_zero hpushed.symm, List.drop_left]
  rfl

end

/-! ### The same parts across a whole cycle -/

section
variable {i : Instr} {s t : State} (hi : i ≠ .syscall) (h : exec i s = .next t)
include hi h

/-- Outside SYSCALL a cycle sets the latches, leaves the ports, and faults precisely or not at all. -/
theorem exec_frame :
    t.ipc = s.pc ∧ t.redirect = false ∧ t.waiting = false ∧ SamePorts s t ∧ FaultOrSame s t := by
  obtain ⟨u, he, rfl⟩ | ⟨_, _, _, -, -, rfl⟩ := exec_ends hi h
  · obtain ⟨hipc, hfault, hwait, hports⟩ := he.keeps
    exact ⟨hipc, rfl, hwait, hports, .inl hfault⟩
  · exact ⟨rfl, rfl, rfl, ⟨rfl, rfl, rfl, rfl, rfl, rfl⟩, .inr ⟨rfl, rfl, rfl, rfl⟩⟩

theorem exec_mem (hstore : i.op ≠ .store) (hstorei : i.op ≠ .storei) : t.mem = s.mem := by
  obtain ⟨u, he, rfl⟩ | ⟨_, _, _, -, -, rfl⟩ := exec_ends hi h
  · rcases he.mem_eq_or_store with hmem | ⟨a, v, -, ⟨rfl, -⟩ | ⟨rfl, -⟩⟩
    · exact hmem
    · exact absurd rfl hstore
    · exact absurd rfl hstorei
  · rfl

theorem exec_flags (hfin : i ≠ .fin) : t.halted = s.halted ∧ t.exitCode = s.exitCode := by
  obtain ⟨u, he, rfl⟩ | ⟨_, _, _, -, -, rfl⟩ := exec_ends hi h
  · rcases he.flags_cases with hflags | ⟨rfl, -⟩
    · exact hflags
    · exact absurd rfl hfin
  · exact ⟨rfl, rfl⟩

theorem exec_calls_cases :
    t.calls = s.calls ∨ (i.op = .call ∧ t.calls = (s.pc + 1) :: s.calls) ∨
      (i.op = .ret ∧ t.calls = s.calls.tail) := by
  obtain ⟨u, he, rfl⟩ | ⟨_, _, _, -, -, rfl⟩ := exec_ends hi h
  · exact he.calls_cases
  · exact .inl rfl

theorem exec_calls (hcall : i.op ≠ .call) (hret : i.op ≠ .ret) : t.calls = s.calls := by
  rcases exec_calls_cases hi h with hc | ⟨hop, -⟩ | ⟨hop, -⟩
  · exact hc
  · exact absurd hop hcall
  · exact absurd hop hret

/-- Where nothing is pushed, the stack is as it was or lacks what was popped. -/
theorem exec_stack_eq_or_drop {p : Nat} (he : stackEffect i s = (p, 0)) :
    t.stack = s.stack ∨ t.stack = s.stack.drop p := by
  obtain ⟨u, hu, rfl⟩ | ⟨_, _, _, -, -, rfl⟩ := exec_ends hi h
  · exact .inr (hu.stack_eq_drop he)
  · exact .inl rfl

end

/-- An operation is none that a list lacks which has it. -/
theorem op_ne_of_mem {i : Instr} {l : List Op} (h : i.op ∈ l) {o : Op} (ho : o ∉ l) : i.op ≠ o :=
  fun e => ho (e ▸ h)

theorem ne_of_op_ne {i j : Instr} (h : i.op ≠ j.op) : i ≠ j := fun e => h (congrArg Instr.op e)

/-- Settles O49: no stack operation is among those that write the call stack, a cell, a flag or a port. -/
theorem stackOperationsFrame : Obligations.StackOperationsFrame := by
  intro i s t hop h
  have hi : i ≠ .syscall := ne_of_op_ne (op_ne_of_mem hop (by decide))
  have hmem := exec_mem hi h (op_ne_of_mem hop (by decide)) (op_ne_of_mem hop (by decide))
  obtain ⟨hhalted, hexit⟩ := exec_flags hi h (ne_of_op_ne (op_ne_of_mem hop (by decide)))
  exact ⟨exec_calls hi h (op_ne_of_mem hop (by decide)) (op_ne_of_mem hop (by decide)), fun a => by rw [hmem],
    hhalted, hexit, exec_frame hi h⟩

/-- R26's table goes by the operation. -/
theorem stackEffect_of_op {i : Instr} {o : Op} (h : i.op = o) (s : State) :
    stackEffect i s = stackEffect (o.instr none) s := by
  subst h
  cases i <;> rfl

/-- Settles O50: the common frame, then the two stacks operation by operation. -/
theorem controlTransferFrame : Obligations.ControlTransferFrame := by
  intro i s t hop h
  have hi : i ≠ .syscall := ne_of_op_ne (op_ne_of_mem hop (by decide))
  have hmem := exec_mem hi h (op_ne_of_mem hop (by decide)) (op_ne_of_mem hop (by decide))
  obtain ⟨hhalted, hexit⟩ := exec_flags hi h (ne_of_op_ne (op_ne_of_mem hop (by decide)))
  obtain ⟨hipc, hredirect, hwait, hports, hfault⟩ := exec_frame hi h
  have hdrop := fun {o : Op} (ho : i.op = o) {p : Nat} (hp : stackEffect (o.instr none) s = (p, 0)) =>
    exec_stack_eq_or_drop hi h ((stackEffect_of_op ho s).trans hp)
  have hcalls := exec_calls_cases hi h
  refine ⟨fun a => by rw [hmem], hhalted, hexit, hipc, hredirect, hwait, hports, hfault, fun hjz => ?_,
    fun hjmz => ?_, fun hcall => ?_, fun hret => ?_⟩
  · exact ⟨by simpa [hjz] using hcalls, by simpa using hdrop hjz rfl⟩
  · exact ⟨by simpa [hjmz] using hcalls, by simpa using hdrop hjmz rfl⟩
  · exact ⟨by simpa using hdrop hcall rfl, by simpa [hcall] using hcalls⟩
  · exact ⟨by simpa using hdrop hret rfl, by simpa [hret] using hcalls⟩

/-- What every ending of SYSCALL sets, and how it faults. -/
theorem SyscallEnd.frame {s t : State} (h : SyscallEnd s t) :
    t.ipc = s.pc ∧ t.redirect = false ∧ FaultOrSame s t := by
  cases h with
  | waits => exact ⟨rfl, rfl, .inl rfl⟩
  | faults _ e => rw [e]; exact ⟨rfl, rfl, .inr ⟨rfl, rfl, rfl, rfl⟩⟩
  | completes _ _ _ _ e => rw [e]; exact ⟨rfl, rfl, .inl rfl⟩

/-- Only selector 0 waits, and then the stack is as it was. -/
theorem SyscallEnd.waiting {s t : State} (h : SyscallEnd s t) (hw : t.waiting = true) :
    t.stack = s.stack ∧ s.stack.head? = some 0 := by
  cases h with
  | waits hs => exact ⟨rfl, by rw [hs]; rfl⟩
  | faults _ e => rw [e] at hw; cases hw
  | completes _ _ _ _ e => rw [e] at hw; cases hw

/-- Settles O53: FIN's state written out; for SYSCALL what all its endings keep, and then each kind of ending. -/
theorem finAndSyscallFrame : Obligations.FinAndSyscallFrame := by
  intro i s t hi h
  rcases hi with rfl | rfl
  · cases h
    exact ⟨rfl, fun _ => rfl, rfl, rfl, rfl, rfl, fun _ => ⟨rfl, rfl, rfl, rfl, rfl, rfl, rfl, rfl, rfl⟩, nofun⟩
  · obtain ⟨hcode, hcfg, hcalls, hmem⟩ := exec_syscall_keeps h
    obtain ⟨hin, hout, hdump, hports⟩ := exec_syscall_ports h
    obtain ⟨hipc, hredirect, hfault⟩ := (exec_syscall_end h).frame
    have hwaits := (exec_syscall_end h).waiting
    refine ⟨hcalls, fun a => by rw [hmem], hcode, hcfg, hipc, hredirect, nofun, fun _ =>
      ⟨hfault, fun hs ht hw => stackEffectsAreThoseOfTheTable _ _ _ hs h ht hw, fun hw => (hwaits hw).1,
        fun h0 => ⟨hin h0, ?_⟩, hout, hdump, fun h3 => exec_syscall_flags h ?_, hports⟩⟩
    · exact Bool.eq_false_iff.2 fun hw => h0 (hwaits hw).2
    · rintro ⟨b, rest, hs⟩
      exact h3 (by rw [hs]; rfl)

end Sys2Proof.Machine

/-! PROOF. What an instruction does not see: the stack entries below those it works on, and the two flags. Both are
changes of the state that every operation carries over to its end. -/

namespace Sys2Proof.Machine

/-! ### Changes of the state that operations carry over -/

/-- `y` ends as `x` does, in the state changed by `g`: where `x` has a value in a state that `fits`, and, under `strict`,
where it raises or waits. -/
def Result.CarriesOver {α : Type} (g : State → State) (fits : State → Prop) (strict : Prop) :
    Result α → Result α → Prop
  | .ok a u, y => fits u → y = .ok a (g u)
  | .raised k info u, y => strict → y = .raised k info (g u)
  | .waits, y => strict → y = .waits

/-- The change `g` keeps all that the operations read, but for the operand stack, which it lets `pop` and `push` use as
before; a push may fail above it where the result does not fit. -/
structure Unseen (g : State → State) (fits : State → Prop) (strict : Prop) : Prop where
  pop : ∀ s, (pop s).CarriesOver g (fun _ => True) strict (pop (g s))
  push : ∀ v s, (push v s).CarriesOver g fits strict (push v (g s))
  fits_of_push : ∀ v s, fits (s.setStack (v :: s.stack)) → fits s
  fits_of_strict : strict → ∀ s, fits s
  pc : ∀ s, (g s).pc = s.pc
  calls : ∀ s, (g s).calls = s.calls
  mem : ∀ s, (g s).mem = s.mem
  cfg : ∀ s, (g s).cfg = s.cfg
  setPc : ∀ p s, (g s).setPc p = g (s.setPc p)
  jumpTo : ∀ t s, (g s).jumpTo t = g (s.jumpTo t)
  setCalls : ∀ l s, (g s).setCalls l = g (s.setCalls l)
  writeCell : ∀ a v s, (g s).writeCell a v = g (s.writeCell a v)

section
variable {α β : Type} {g : State → State} {fits : State → Prop} {strict : Prop}

theorem ok_carriesOver {a : α} {s t : State} (e : t = g s) :
    (Result.ok a s).CarriesOver g fits strict (.ok a t) := fun _ => by rw [e]

theorem raised_carriesOver {k : FaultKind} {info : Option Byte} {s t : State} (e : t = g s) :
    (Result.raised k info s : Result α).CarriesOver g fits strict (.raised k info t) := fun _ => by rw [e]

theorem Result.CarriesOver.bind {x y : Result α} {f : α → State → Result β}
    (hx : x.CarriesOver g (fun _ => True) strict y)
    (hf : ∀ a u, (f a u).CarriesOver g fits strict (f a (g u))) :
    (x.bind f).CarriesOver g fits strict (y.bind f) := by
  match x, hx with
  | .ok a u, hx => rw [hx trivial]; exact hf a u
  | .raised _ _ _, hx => exact fun h => by rw [hx h]; rfl
  | .waits, hx => exact fun h => by rw [hx h]; rfl

theorem divSat_carriesOver (a b : Byte) (s : State) :
    (divSat a b s).CarriesOver g fits strict (divSat a b (g s)) := by
  unfold divSat; split
  · exact raised_carriesOver rfl
  · exact ok_carriesOver rfl

variable (hg : Unseen g fits strict)
include hg

theorem Unseen.imm (v : Option Byte) (s : State) :
    (imm v s).CarriesOver g (fun _ => True) strict (imm v (g s)) := by
  cases v with
  | none => exact raised_carriesOver (by rw [hg.pc, hg.setPc])
  | some b => exact ok_carriesOver (by rw [hg.pc, hg.setPc])

theorem Unseen.memRead (a : Byte) (s : State) :
    (memRead a s).CarriesOver g (fun _ => True) strict (memRead a (g s)) := by
  cases e : s.mem.read a.toNat with
  | none =>
    rw [memRead_none e, memRead_none (by rw [hg.mem, e])]
    exact raised_carriesOver rfl
  | some v =>
    rw [memRead_some e, memRead_some (by rw [hg.mem, e])]
    exact ok_carriesOver rfl

theorem Unseen.cpush (r : Nat) (s : State) :
    (cpush r s).CarriesOver g (fun _ => True) strict (cpush r (g s)) := by
  by_cases h : s.calls.length < 256
  · rw [cpush_of_lt h, cpush_of_lt (by rw [hg.calls]; exact h), hg.calls]
    exact ok_carriesOver (hg.setCalls _ _)
  · rw [cpush_of_ge (Nat.le_of_not_lt h), cpush_of_ge (by rw [hg.calls]; exact Nat.le_of_not_lt h)]
    exact raised_carriesOver rfl

theorem Unseen.cpop (s : State) : (cpop s).CarriesOver g (fun _ => True) strict (cpop (g s)) := by
  rcases e : s.calls with _ | ⟨r, rest⟩
  · rw [cpop_nil e, cpop_nil (by rw [hg.calls, e])]
    exact raised_carriesOver rfl
  · rw [cpop_cons e, cpop_cons (by rw [hg.calls, e])]
    exact ok_carriesOver (hg.setCalls _ _)

theorem Unseen.modTrunc (a b : Byte) (s : State) :
    (modTrunc a b s).CarriesOver g (fun _ => True) strict (modTrunc a b (g s)) := by
  unfold Machine.modTrunc
  rw [hg.cfg]
  split
  · split
    · exact raised_carriesOver rfl
    · exact ok_carriesOver rfl
  · exact ok_carriesOver rfl

/-- DUP and SWAP: what fits after the second push has fitted after the first. -/
theorem Unseen.push_push (a b : Byte) (s : State) :
    ((Machine.push a s).bind fun _ u => Machine.push b u).CarriesOver g fits strict
      ((Machine.push a (g s)).bind fun _ u => Machine.push b u) := by
  have h1 := hg.push a s
  by_cases ha : s.stack.length < 256
  · rw [push_of_lt ha] at h1 ⊢
    have h2 := hg.push b (s.setStack (a :: s.stack))
    rw [Result.bind_ok]
    by_cases hb : (s.setStack (a :: s.stack)).stack.length < 256
    · rw [push_of_lt hb] at h2 ⊢
      exact fun hfits => by rw [h1 (hg.fits_of_push _ _ hfits)]; exact h2 hfits
    · rw [push_of_ge (Nat.le_of_not_lt hb)] at h2 ⊢
      exact fun hs => by rw [h1 (hg.fits_of_strict hs _)]; exact h2 hs
  · rw [push_of_ge (Nat.le_of_not_lt ha)] at h1 ⊢
    exact fun h => by rw [h1 h]; rfl

theorem Unseen.binary {f : Byte → Byte → State → Result Byte}
    (hf : ∀ a b s, (f a b s).CarriesOver g (fun _ => True) strict (f a b (g s))) (s : State) :
    (binary f s).CarriesOver g fits strict (binary f (g s)) :=
  (hg.pop s).bind fun _ u => (hg.pop u).bind fun _ u => (hf _ _ u).bind fun _ u => hg.push _ u

theorem Unseen.binaryImm {f : Byte → Byte → State → Result Byte}
    (hf : ∀ a b s, (f a b s).CarriesOver g (fun _ => True) strict (f a b (g s))) (v : Option Byte) (s : State) :
    (binaryImm f v s).CarriesOver g fits strict (binaryImm f v (g s)) :=
  (hg.imm v s).bind fun _ u => (hg.pop u).bind fun _ u => (hf _ _ u).bind fun _ u => hg.push _ u

/-- Every instruction but SYSCALL carries an unseen change over, FIN provided that the change is none of the flags. -/
theorem Unseen.operation {i : Instr} (hi : i ≠ .syscall)
    (hfin : i = .fin → ∀ s, (g s).halt 0 = g (s.halt 0)) (s : State) :
    (operation i s).CarriesOver g fits strict (operation i (g s)) := by
  cases i with
  | syscall => exact absurd rfl hi
  | push v => exact (hg.imm v s).bind fun _ u => hg.push _ u
  | pop => exact (hg.pop s).bind fun _ _ => ok_carriesOver rfl
  | dup => exact (hg.pop s).bind fun _ u => hg.push_push _ _ u
  | swap => exact (hg.pop s).bind fun _ u => (hg.pop u).bind fun _ u => hg.push_push _ _ u
  | add => exact hg.binary (f := addSat) (fun _ _ _ => ok_carriesOver rfl) s
  | sub => exact hg.binary (f := subSat) (fun _ _ _ => ok_carriesOver rfl) s
  | mul => exact hg.binary (f := mulSat) (fun _ _ _ => ok_carriesOver rfl) s
  | div => exact hg.binary divSat_carriesOver s
  | mod => exact hg.binary hg.modTrunc s
  | addi v => exact hg.binaryImm (f := addSat) (fun _ _ _ => ok_carriesOver rfl) v s
  | subi v => exact hg.binaryImm (f := subSat) (fun _ _ _ => ok_carriesOver rfl) v s
  | muli v => exact hg.binaryImm (f := mulSat) (fun _ _ _ => ok_carriesOver rfl) v s
  | divi v => exact hg.binaryImm divSat_carriesOver v s
  | modi v => exact hg.binaryImm hg.modTrunc v s
  | eq => exact hg.binary (f := compareBytes _) (fun _ _ _ => ok_carriesOver rfl) s
  | neq => exact hg.binary (f := compareBytes _) (fun _ _ _ => ok_carriesOver rfl) s
  | lt => exact hg.binary (f := compareBytes _) (fun _ _ _ => ok_carriesOver rfl) s
  | le => exact hg.binary (f := compareBytes _) (fun _ _ _ => ok_carriesOver rfl) s
  | gt => exact hg.binary (f := compareBytes _) (fun _ _ _ => ok_carriesOver rfl) s
  | ge => exact hg.binary (f := compareBytes _) (fun _ _ _ => ok_carriesOver rfl) s
  | jz t =>
    refine (hg.pop s).bind fun flag u => (hg.imm t u).bind fun d u => ?_
    split
    · exact ok_carriesOver (hg.jumpTo _ _)
    · exact ok_carriesOver rfl
  | jmz t => exact (hg.imm t s).bind fun _ _ => ok_carriesOver (hg.jumpTo _ _)
  | store =>
    exact (hg.pop s).bind fun _ u => (hg.pop u).bind fun _ _ => ok_carriesOver (hg.writeCell _ _ _)
  | load => exact (hg.pop s).bind fun _ u => (hg.memRead _ u).bind fun _ u => hg.push _ u
  | storei a =>
    exact (hg.pop s).bind fun _ u => (hg.imm a u).bind fun _ _ => ok_carriesOver (hg.writeCell _ _ _)
  | loadi a => exact (hg.imm a s).bind fun _ u => (hg.memRead _ u).bind fun _ u => hg.push _ u
  | call t =>
    refine (hg.imm t s).bind fun d u => ?_
    rw [hg.pc]
    exact (hg.cpush _ u).bind fun _ _ => ok_carriesOver (hg.jumpTo _ _)
  | ret => exact (hg.cpop s).bind fun _ _ => ok_carriesOver (hg.setPc _ _)
  | fin => exact ok_carriesOver (hfin rfl s)

end

/-! ### Entries put below the stack -/

/-- `s` with the entries `base` below those of its stack. -/
def State.above (base : List Byte) (s : State) : State := s.setStack (s.stack ++ base)

theorem unseen_above (base : List Byte) :
    Unseen (State.above base) (fun u => u.stack.length + base.length ≤ 256) False where
  pop s := by
    rcases e : s.stack with _ | ⟨v, rest⟩
    · rw [pop_nil e]
      exact False.elim
    · rw [pop_cons e, pop_cons (s := s.above base) (v := v) (rest := rest ++ base) (by simp [State.above, e])]
      exact ok_carriesOver rfl
  push v s := by
    by_cases h : s.stack.length < 256
    · rw [push_of_lt h]
      intro hfits
      have hlt : (s.stack ++ base).length < 256 := by
        rw [List.length_append]
        exact Nat.lt_of_lt_of_le (Nat.add_lt_add_right (Nat.lt_succ_self _) _) hfits
      rw [push_of_lt (s := s.above base) hlt]
      rfl
    · rw [push_of_ge (Nat.le_of_not_lt h)]
      exact False.elim
  fits_of_push v s h := Nat.le_trans (Nat.add_le_add_right (Nat.le_succ _) _) h
  fits_of_strict := False.elim
  pc _ := rfl
  calls _ := rfl
  mem _ := rfl
  cfg _ := rfl
  setPc _ _ := rfl
  jumpTo _ _ := rfl
  setCalls _ _ := rfl
  writeCell _ _ _ := rfl

/-- Settles O45: a completed operation carries the entries below over, and so does the cycle around it. -/
theorem entriesBelowAreNotSeen : Obligations.EntriesBelowAreNotSeen := by
  intro i s t base hi _ h ht _ hfits
  obtain ⟨u, hu, rfl, -⟩ | ⟨_, _, _, -, -, rfl⟩ := exec_cases hi h
  · have hc := (unseen_above base).operation hi (fun _ _ => rfl) s.latch
    rw [hu] at hc
    exact exec_of_ok (s := s.above base) (hc hfits)
  · cases ht

/-! ### The two flags -/

/-- `s` with other flags. -/
def State.setFlags (h : Bool) (e : Byte) (s : State) : State := { s with halted := h, exitCode := e }

theorem unseen_setFlags (h : Bool) (e : Byte) : Unseen (State.setFlags h e) (fun _ => True) True where
  pop s := by
    rcases hs : s.stack with _ | ⟨v, rest⟩
    · rw [pop_nil hs, pop_nil (s := s.setFlags h e) hs]
      exact raised_carriesOver rfl
    · rw [pop_cons hs, pop_cons (s := s.setFlags h e) hs]
      exact ok_carriesOver rfl
  push v s := by
    by_cases hl : s.stack.length < 256
    · rw [push_of_lt hl, push_of_lt (s := s.setFlags h e) hl]
      exact ok_carriesOver rfl
    · rw [push_of_ge (Nat.le_of_not_lt hl), push_of_ge (s := s.setFlags h e) (Nat.le_of_not_lt hl)]
      exact raised_carriesOver rfl
  fits_of_push _ _ := id
  fits_of_strict _ _ := trivial
  pc _ := rfl
  calls _ := rfl
  mem _ := rfl
  cfg _ := rfl
  setPc _ _ := rfl
  jumpTo _ _ := rfl
  setCalls _ _ := rfl
  writeCell _ _ _ := rfl

/-- `y` ends as `x` does, with other flags. -/
abbrev Result.CarriesFlags {α : Type} (h : Bool) (e : Byte) : Result α → Result α → Prop :=
  Result.CarriesOver (State.setFlags h e) (fun _ => True) True

section
variable (h : Bool) (e : Byte) (s : State)

theorem checkPort_carriesFlags (r : PortAnswer) :
    (checkPort r s).CarriesFlags h e (checkPort r (s.setFlags h e)) := by
  cases r with
  | ok => exact ok_carriesOver rfl
  | ioError => exact raised_carriesOver rfl

theorem portIn_carriesFlags : (portIn s).CarriesFlags h e (portIn (s.setFlags h e)) := by
  rcases hin : s.inputs with _ | ⟨a, more⟩
  · rw [show portIn s = .waits by simp [portIn, hin],
      show portIn (s.setFlags h e) = .waits by simp [portIn, State.setFlags, hin]]
    exact fun _ => rfl
  · rw [show portIn s = .ok a (s.recordInput a) by simp [portIn, hin],
      show portIn (s.setFlags h e) = .ok a ((s.setFlags h e).recordInput a) by simp [portIn, State.setFlags, hin]]
    exact ok_carriesOver rfl

theorem sysRead_carriesFlags : (sysRead s).CarriesFlags h e (sysRead (s.setFlags h e)) :=
  (portIn_carriesFlags h e s).bind fun a u => by
    cases a with
    | byte b => exact (unseen_setFlags h e).push b u
    | eof => exact (unseen_setFlags h e).push 0 u
    | ioError => exact raised_carriesOver rfl

theorem sysWrite_carriesFlags : (sysWrite s).CarriesFlags h e (sysWrite (s.setFlags h e)) :=
  ((unseen_setFlags h e).pop s).bind fun b u => checkPort_carriesFlags h e (u.recordOutput b) u.outAnswer

theorem sysDump_carriesFlags : (sysDump s).CarriesFlags h e (sysDump (s.setFlags h e)) :=
  checkPort_carriesFlags h e s.recordDump s.dumpAnswer

/-- SYSCALL carries other flags over, except where selector 3 has its argument and overwrites them. -/
theorem opSyscall_carriesFlags (hn : ¬∃ b rest, s.stack = 3 :: b :: rest) :
    (opSyscall s).CarriesFlags h e (opSyscall (s.setFlags h e)) := by
  rcases hs : s.stack with _ | ⟨sel, rest⟩
  · rw [opSyscall_nil hs, opSyscall_nil (s := s.setFlags h e) hs]
    exact raised_carriesOver rfl
  · rw [opSyscall_cons hs, opSyscall_cons (s := s.setFlags h e) hs]
    split
    · exact sysRead_carriesFlags h e (s.setStack rest)
    · split
      · exact sysWrite_carriesFlags h e (s.setStack rest)
      · split
        · exact sysDump_carriesFlags h e (s.setStack rest)
        · split
          · rename_i h3
            cases rest with
            | nil => exact raised_carriesOver rfl
            | cons b rest => exact absurd ⟨b, rest, by rw [hs, h3]⟩ hn
          · exact raised_carriesOver rfl

/-- The end of the cycle carries other flags over, a fault's restore included. -/
theorem finish_setFlags {x y : Result Unit} (hxy : x.CarriesFlags h e y) :
    finish (s.setFlags h e) y = (finish s x).setFlags h e := by
  match x, hxy with
  | .ok _ u, hxy => rw [hxy trivial]; rfl
  | .raised k info u, hxy => rw [hxy trivial]; rfl
  | .waits, hxy => rw [hxy trivial]; rfl

end

/-- An instruction that does not write the flags does the same under others. -/
theorem exec_setFlags {i : Instr} {s t : State} (h : Bool) (e : Byte) (hfin : i ≠ .fin)
    (hexit : ¬(i = .syscall ∧ ∃ b rest, s.stack = 3 :: b :: rest)) (hex : exec i s = .next t) :
    exec i (s.setFlags h e) = .next (t.setFlags h e) := by
  have hc : (operation i s.latch).CarriesFlags h e (operation i (s.latch.setFlags h e)) := by
    by_cases hi : i = .syscall
    · subst hi
      exact opSyscall_carriesFlags h e s.latch fun h3 => hexit ⟨rfl, h3⟩
    · exact (unseen_setFlags h e).operation hi (fun hf => absurd hf hfin) s.latch
  rw [exec_next_iff] at hex ⊢
  rw [hex]
  exact (finish_setFlags h e s hc).symm

/-- Every instruction does the same under other flags, the two that overwrite them included. -/
theorem exec_sees_no_flags {i : Instr} {s t : State} (h : Bool) (e : Byte) (hex : exec i s = .next t) :
    ∃ u, exec i (s.setFlags h e) = .next u ∧ t = u.setFlags t.halted t.exitCode := by
  by_cases hfin : i = .fin
  · subst hfin
    cases hex
    exact ⟨_, rfl, rfl⟩
  · by_cases hexit : i = .syscall ∧ ∃ b rest, s.stack = 3 :: b :: rest
    · obtain ⟨rfl, b, rest, hs⟩ := hexit
      rw [exec_syscall_exit hs] at hex
      cases hex
      exact ⟨_, exec_syscall_exit (s := s.setFlags h e) hs, rfl⟩
    · exact ⟨_, exec_setFlags h e hfin hexit hex, rfl⟩

/-- Settles O46: the load, the writers, the fetch of an unmapped byte, the end of a run, and that no instruction reads the
flags. -/
theorem haltedAndExitCodeHaveTwoWriters : Obligations.HaltedAndExitCodeHaveTwoWriters := by
  refine ⟨fun cfg ports image s h => ?_, fun i s t h => ⟨?_, ?_, fun hfin hexit => ?_⟩,
    fun s b rest t hb ho h => ?_, fun s hf hend => ?_, fun i s t h e hex => exec_sees_no_flags h e hex⟩
  · unfold load at h
    split at h
    · cases h
      exact ⟨rfl, rfl⟩
    · cases h
  · rintro rfl
    cases h
    exact ⟨rfl, rfl⟩
  · rintro b rest rfl hs
    rw [exec_syscall_exit hs] at h
    cases h
    exact ⟨rfl, rfl⟩
  · by_cases hi : i = .syscall
    · subst hi
      exact exec_syscall_flags h fun h3 => hexit ⟨rfl, h3⟩
    · exact exec_flags hi h hfin
  · rw [step_of_invalid (step_cases h).1 hb ho] at h
    cases h
    exact ⟨rfl, rfl⟩
  · have hstatus : s.status = .done s.exitCode := by simp only [State.status, hf, if_pos hend]
    exact ⟨hstatus, by simp only [step, hstatus]⟩

end Sys2Proof.Machine

/-! PROOF. The memory operations where they complete, and the data memory as the history of its stores. -/

namespace Sys2Proof.Machine

/-! ### STORE, STOREI, LOAD and LOADI -/

theorem exec_store {s : State} {v a : Byte} {rest : List Byte} (hs : s.stack = v :: a :: rest) :
    exec .store s =
      .next { s.completed (s.pc + 1) with stack := rest, mem := s.mem.write (dataAddr a) v } := by
  have h : operation .store s.latch = .ok () ((s.latch.setStack rest).writeCell (dataAddr a) v) := by
    simp only [operation, opStore, pop_cons (s := s.latch) hs, Result.bind_ok, pop_cons (State.setStack_stack _ _)]
    rfl
  exact exec_of_ok h

theorem exec_storei {s : State} {v a : Byte} {rest : List Byte} (hs : s.stack = v :: rest) :
    exec (.storei (some a)) s =
      .next { s.completed (s.pc + 2) with stack := rest, mem := s.mem.write (dataAddr a) v } := by
  have h : operation (.storei (some a)) s.latch =
      .ok () (((s.latch.setStack rest).setPc (s.pc + 1)).writeCell (dataAddr a) v) := by
    simp only [operation, opStorei, pop_cons (s := s.latch) hs, Result.bind_ok, imm_some]
    rfl
  exact exec_of_ok h

/-- R25's bound leaves room for the byte that takes the address's place. -/
theorem exec_load {s : State} {a v : Byte} {rest : List Byte} (hs : s.stack = a :: rest)
    (hlen : s.stack.length ≤ stackMax) (hv : s.mem.read a.toNat = some v) :
    exec .load s = .next { s.completed (s.pc + 1) with stack := v :: rest } := by
  have hrest : rest.length < 256 := by rw [hs] at hlen; exact hlen
  have h : operation .load s.latch = .ok () ((s.latch.setStack rest).setStack (v :: rest)) := by
    simp only [operation, opLoad, pop_cons (s := s.latch) hs, Result.bind_ok]
    rw [memRead_some (s := s.latch.setStack rest) hv, Result.bind_ok, push_of_lt hrest]
    rfl
  exact exec_of_ok h

theorem exec_loadi {s : State} {a v : Byte} (hlen : s.stack.length < 256) (hv : s.mem.read a.toNat = some v) :
    exec (.loadi (some a)) s = .next { s.completed (s.pc + 2) with stack := v :: s.stack } := by
  have h : operation (.loadi (some a)) s.latch =
      .ok () ((s.latch.setPc (s.pc + 1)).setStack (v :: s.stack)) := by
    simp only [operation, opLoadi, imm_some, Result.bind_ok, State.latch_pc]
    rw [memRead_some (s := s.latch.setPc (s.pc + 1)) hv, Result.bind_ok,
      push_of_lt (s := s.latch.setPc (s.pc + 1)) hlen]
    rfl
  exact exec_of_ok h

/-- An operation that raises, as what its instruction raises. -/
theorem raises_of_operation {i : Instr} {s u : State} {k : FaultKind} {info : Option Byte}
    (h : operation i s.latch = .raised k info u) : Raises i s k info :=
  ⟨_, _, exec_of_raised h, rfl⟩

theorem load_raises_of_empty {s : State} {a : Byte} {rest : List Byte} (hs : s.stack = a :: rest)
    (hv : s.mem.read a.toNat = none) : Raises .load s .uninitializedMemory (some a) := by
  refine raises_of_operation (u := s.latch.setStack rest) ?_
  simp only [operation, opLoad, pop_cons (s := s.latch) hs, Result.bind_ok]
  rw [memRead_none (s := s.latch.setStack rest) hv, Result.bind_raised]

theorem loadi_raises_of_empty {s : State} {a : Byte} (hv : s.mem.read a.toNat = none) :
    Raises (.loadi (some a)) s .uninitializedMemory (some a) := by
  refine raises_of_operation (u := s.latch.setPc (s.pc + 1)) ?_
  simp only [operation, opLoadi, imm_some, Result.bind_ok, State.latch_pc]
  rw [memRead_none (s := s.latch.setPc (s.pc + 1)) hv, Result.bind_raised]

/-! ### The store of a step (R60) -/

/-- A store is a STORE with its two operands on the stack, or a STOREI with its value and its immediate. -/
theorem storeOf_eq_some {s : State} {b : Nat} {v : Byte} (h : storeOf s = some (b, v)) :
    ∃ a more, b = dataAddr a ∧
      ((decode s.cfg (s.code.drop s.pc) = .ok (.store, more) ∧ ∃ rest, s.stack = v :: a :: rest) ∨
       (decode s.cfg (s.code.drop s.pc) = .ok (.storei (some a), more) ∧ ∃ rest, s.stack = v :: rest)) := by
  unfold storeOf at h
  split at h
  · rename_i more _ a rest hd hs
    cases h
    exact ⟨a, more, rfl, .inl ⟨hd, rest, hs⟩⟩
  · rename_i a more _ rest hd hs
    cases h
    exact ⟨a, more, rfl, .inr ⟨hd, rest, hs⟩⟩
  · cases h

/-- A store has its operands, so it neither faults nor waits: it writes its cell. -/
theorem step_mem_of_store {s t : State} {b : Nat} {v : Byte} (h : step s = .next t)
    (hst : storeOf s = some (b, v)) : t.mem = s.mem.write b v := by
  obtain ⟨ha, -⟩ := step_cases h
  obtain ⟨a, more, rfl, ⟨hd, rest, hs⟩ | ⟨hd, rest, hs⟩⟩ := storeOf_eq_some hst
  · rw [step_of_decode ha hd, exec_store hs] at h
    cases h
    rfl
  · rw [step_of_decode ha hd, exec_storei hs] at h
    cases h
    rfl

theorem step_mem_of_no_store {s t : State} (h : step s = .next t) (hst : storeOf s = none) : t.mem = s.mem := by
  obtain hmem | ⟨a, v, hsome, -⟩ := step_mem h
  · exact hmem
  · rw [hst] at hsome
    cases hsome

theorem latestStore_cons_of_store {s : State} {b : Nat} {v : Byte} (h : storeOf s = some (b, v)) (a : Nat)
    (l : List State) : latestStore a (s :: l) = if b = a then some v else latestStore a l := by
  simp only [latestStore, h]

theorem latestStore_cons_of_no_store {s : State} (h : storeOf s = none) (a : Nat) (l : List State) :
    latestStore a (s :: l) = latestStore a l := by
  simp only [latestStore, h]

/-- Settles O60: a step with a store writes that store alone, and any other step leaves the memory. -/
theorem stepKeepsTheStoreHistory : Obligations.StepKeepsTheStoreHistory := by
  intro s t l hl h a
  rcases hst : storeOf s with _ | ⟨b, v⟩
  · rw [step_mem_of_no_store h hst, latestStore_cons_of_no_store hst]
    exact hl a
  · rw [step_mem_of_store h hst, Memory.read_write, latestStore_cons_of_store hst, hl a]

/-! ### Runs from a load -/

/-- The state a load leaves: reset's, with the image's stream, the parameters and the ports. -/
theorem load_accept {cfg : Config} {ports : Ports} {image : List Byte} {s : State}
    (h : load cfg ports image = .accept s) :
    s = { State.reset with
      code := image.drop magicHeader.length, cfg := cfg
      inputs := ports.inputs, outAnswers := ports.outAnswers, dumpAnswers := ports.dumpAnswers } := by
  unfold load at h
  split at h <;> cases h
  rfl

/-- A load starts from the bounds of reset. -/
theorem load_meets_invariant {cfg : Config} {ports : Ports} {image : List Byte} {s : State}
    (h : load cfg ports image = .accept s) : RunInvariant s := by
  rw [load_accept h]
  exact .of_running rfl rfl (Nat.zero_le _) (Nat.zero_le _) (fun _ hr => nomatch hr) Memory.wf_nil rfl (fun _ => rfl)
    (Nat.zero_le _)

/-! ### The invariant under the host's answers -/

/-- The cycle sets the waiting bit itself, and does not see the one it finds. -/
theorem exec_clear_waiting (i : Instr) (s : State) : exec i { s with waiting := false } = exec i s := by
  rw [exec_eq_finish, exec_eq_finish]
  change Host.Outcome.next (finish _ (operation i s.latch)) = _
  cases operation i s.latch <;> rfl

/-- A pending answer more, and no outstanding transaction. -/
theorem RunInvariant.queueInput {s : State} (h : RunInvariant s) (a : InAnswer) :
    RunInvariant { s.queueInput a with waiting := false } :=
  { h with waitingRuns := nofun, waitingRead := nofun }

/-- An answer of the host keeps the invariant: it is kept for later, or ends a SYSCALL, whose cycle then runs as in a
block that is not waiting. -/
theorem RunInvariant.deliverInput {s : State} (h : RunInvariant s) (a : InAnswer) :
    RunInvariant (s.deliverInput a) := by
  obtain ⟨hs, e⟩ | ⟨hs, hex⟩ := deliverInput_cases s a
  · have hw : s.waiting = false := Bool.eq_false_iff.2 fun hw => hs (h.waitingRuns hw)
    rw [e, show s.queueInput a = { s.queueInput a with waiting := false } by rw [← hw]; rfl]
    exact h.queueInput a
  · obtain ⟨hf, hh, hpc, hw⟩ := (waiting_iff s).1 hs
    obtain ⟨-, -, more, hd⟩ := h.waitingRead hw
    rw [← exec_clear_waiting] at hex
    exact (h.queueInput a).syscall ((active_iff _).2 ⟨hf, hh, hpc, rfl⟩) hd (exec_syscall_end hex)

theorem RunInvariant.run {s t : State} {l : List State} (h : RunInvariant s) (hrun : Run s l t) : RunInvariant t :=
  hrun.induct stepKeepsTheInvariant (fun _ a hu => hu.deliverInput a) h

/-! ### The memory of a run -/

/-- Along a run the memory stays the history of the run's stores: a step adds to both, an answer to neither. -/
theorem Run.mem_read {s t : State} {l : List State} (hrun : Run s l t) (h0 : s.mem = []) (a : Nat) :
    t.mem.read a = latestStore a l := by
  induction hrun generalizing a with
  | refl => rw [h0]; rfl
  | snoc _ hstep ih => exact stepKeepsTheStoreHistory _ _ _ ih hstep a
  | @input l u x _ ih =>
    obtain ⟨-, -, -, hmem⟩ := deliverInput_keeps u x
    rw [hmem]
    exact ih a

/-- Settles O28: every cell holds the run's latest store to it, so the loads answer that, within the depth the
invariant gives. -/
theorem memoryHoldsTheMostRecentStore : Obligations.MemoryHoldsTheMostRecentStore := by
  intro cfg ports image s l t hload hrun
  have hread := hrun.mem_read (by rw [load_accept hload]; rfl)
  have hlen := ((load_meets_invariant hload).run hrun).stackBound
  refine ⟨hread, fun a => ⟨fun v hv => ?_, fun hv => ?_⟩⟩ <;> rw [← hread] at hv
  · exact ⟨fun rest hs => exec_load hs hlen hv, fun hlt => exec_loadi hlt hv⟩
  · exact ⟨fun rest hs => ⟨_, load_raises_of_empty hs hv⟩, _, loadi_raises_of_empty hv⟩

end Sys2Proof.Machine

/-! PROOF. The ports: one transaction a step at most, and only in SYSCALL (R61). -/

namespace Sys2Proof.Machine

/-- `Transaction s t`: what a SYSCALL from `s` to `t` has done at the ports (R61, R141). It performs no transaction only
where selector 0, if it is on top, finds no answer. -/
inductive Transaction (s t : State) : Prop
  | none : (s.stack.head? = some 0 → s.inputs = []) → t.trace = s.trace → t.inputs = s.inputs →
      t.outAnswers = s.outAnswers → t.dumpAnswers = s.dumpAnswers → Transaction s t
  | input {rest : List Byte} {a : InAnswer} : s.stack = 0 :: rest → s.inputs = a :: t.inputs →
      t.trace = s.trace ++ [.input a] → t.outAnswers = s.outAnswers → t.dumpAnswers = s.dumpAnswers →
      Transaction s t
  | output {b : Byte} {rest : List Byte} : s.stack = 1 :: b :: rest →
      t.trace = s.trace ++ [.output b s.outAnswer] → t.inputs = s.inputs →
      t.outAnswers = s.outAnswers.tail → t.dumpAnswers = s.dumpAnswers → Transaction s t
  | dump {rest : List Byte} : s.stack = 2 :: rest →
      t.trace = s.trace ++ [.dump rest.reverse s.mem s.dumpAnswer] → t.inputs = s.inputs →
      t.outAnswers = s.outAnswers → t.dumpAnswers = s.dumpAnswers.tail → Transaction s t

/-- R142 to R148: each ending of SYSCALL has performed its selector's transaction, or none. -/
theorem exec_syscall_transaction {s t : State} (h : exec .syscall s = .next t) : Transaction s t := by
  rcases exec_syscall_cases h with ⟨hs, rfl⟩ | ⟨_, -, hin, rfl⟩ | ⟨rest, a, more, v, hs, hin, -, -, rfl⟩ |
    ⟨rest, a, more, hs, hin, -, -, rfl⟩ | ⟨rest, more, hs, hin, rfl⟩ | ⟨hs, rfl⟩ | ⟨b, rest, hs, ho, rfl⟩ |
    ⟨b, rest, hs, -, rfl⟩ | ⟨rest, hs, hd, rfl⟩ | ⟨rest, hs, -, rfl⟩ | ⟨hs, rfl⟩ | ⟨b, rest, hs, rfl⟩ |
    ⟨sel, rest, hs, h4, rfl⟩
  · exact .none (by simp [hs]) rfl rfl rfl rfl
  · exact .none (fun _ => hin) rfl rfl rfl rfl
  · exact .input hs hin rfl rfl rfl
  · exact .input hs (by simp [hin]) rfl rfl rfl
  · exact .input hs (by simp [hin]) rfl rfl rfl
  · exact .none (by simp [hs]) rfl rfl rfl rfl
  · exact .output hs (by rw [ho]) rfl rfl rfl
  · exact .output hs rfl rfl rfl rfl
  · exact .dump hs (by rw [hd]) rfl rfl rfl
  · exact .dump hs rfl rfl rfl rfl
  · exact .none (by simp [hs]) rfl rfl rfl rfl
  · exact .none (by simp [hs]) rfl rfl rfl rfl
  · refine .none (fun h0 => ?_) rfl rfl rfl rfl
    obtain rfl : sel = 0 := by simpa [hs] using h0
    exact absurd h4 (by decide)

/-- An answer to a waiting selector 0 is the one transaction its SYSCALL performs. -/
theorem deliverInput_ports_of_waiting {s : State} {rest : List Byte} (hw : s.status = .waiting)
    (hs : s.stack = 0 :: rest) (hin : s.inputs = []) (a : InAnswer) :
    (s.deliverInput a).trace = s.trace ++ [.input a] ∧ (s.deliverInput a).inputs = [] ∧
      (s.deliverInput a).outAnswers = s.outAnswers ∧ (s.deliverInput a).dumpAnswers = s.dumpAnswers := by
  have hq : (s.queueInput a).inputs = [a] := by rw [State.queueInput_inputs, hin]; rfl
  cases exec_syscall_transaction (exec_syscall_of_waiting hw a) with
  | none h0 =>
    have hempty := h0 (by rw [State.queueInput_stack, hs]; rfl)
    exact absurd (hq.symm.trans hempty) (by simp)
  | input _ he htrace hout hdump =>
    obtain ⟨rfl, hempty⟩ := List.cons.inj (hq.symm.trans he)
    exact ⟨htrace, hempty.symm, hout, hdump⟩
  | output hs' | dump hs' =>
    rw [State.queueInput_stack, hs] at hs'
    exact absurd (List.cons.inj hs').1 (by decide)

/-- Settles O40: outside SYSCALL no port is touched; a SYSCALL has performed its selector's transaction or none, also
where the host's answer ends it. -/
theorem portTransactionsAreInProgramOrder : Obligations.PortTransactionsAreInProgramOrder := by
  refine ⟨fun s t h => ?_, fun s a rest hw hs hin => deliverInput_ports_of_waiting hw hs hin a,
    fun s a hw => deliverInput_of_not_waiting hw a⟩
  obtain ⟨-, ⟨i, more, hd, hex⟩ | ⟨b, rest, -, -, rfl⟩⟩ := step_cases h
  · by_cases hi : i = .syscall
    · subst hi
      cases exec_syscall_transaction hex with
      | none _ htrace hin hout hdump => exact .inl ⟨htrace, hin, hout, hdump⟩
      | @input rest a hs hin htrace hout hdump =>
        exact .inr ⟨more, 0, rest, hd, hs, .inl ⟨rfl, a, hin, htrace, hout, hdump⟩⟩
      | @output b rest hs htrace hin hout hdump =>
        exact .inr ⟨more, 1, b :: rest, hd, hs, .inr (.inl ⟨rfl, b, rest, rfl, htrace, hin, hout, hdump⟩)⟩
      | @dump rest hs htrace hin hout hdump =>
        exact .inr ⟨more, 2, rest, hd, hs, .inr (.inr ⟨rfl, htrace, hin, hout, hdump⟩)⟩
    · obtain ⟨-, -, -, ⟨-, -, hin, hout, hdump, htrace⟩, -⟩ := exec_frame hi hex
      exact .inl ⟨htrace, hin, hout, hdump⟩
  · exact .inl ⟨rfl, rfl, rfl, rfl⟩

end Sys2Proof.Machine

/-! PROOF. The opcode map and the encoder are inverse to each other (R80 to R82), so the decoder and the encoder are
(R70 to R75, R85). -/

namespace Sys2Proof

/-! ### The opcode map, by the range of the byte (R80, R81) -/

theorem opAt_arith (c : Config) {b : Byte} (h : 0x10 ≤ b.toNat ∧ b.toNat ≤ 0x19) :
    opAt c b = c.arithCodes[b.toNat - 0x10]? := if_pos h

theorem opAt_cmp (c : Config) {b : Byte} (h : 0x1A ≤ b.toNat ∧ b.toNat ≤ 0x1F) :
    opAt c b = c.cmpCodes[b.toNat - 0x1A]? := by
  rw [opAt, if_neg (by omega), if_pos h]

theorem opAt_fixed (c : Config) {b : Byte} (h : b.toNat < 0x10 ∨ 0x1F < b.toNat) :
    opAt c b = (fixedCodes.find? fun e => e.1 == b).map fun e => e.2 := by
  rw [opAt, if_neg (by omega), if_neg (by omega)]

/-- The three ranges of opcode bytes. -/
theorem byte_range_cases (b : Byte) : (0x10 ≤ b.toNat ∧ b.toNat ≤ 0x19) ∨ (0x1A ≤ b.toNat ∧ b.toNat ≤ 0x1F) ∨
    (b.toNat < 0x10 ∨ 0x1F < b.toNat) := by omega

/-! ### The encoder's opcode byte, by the family of the operation -/

theorem opcodeOf_arith (c : Config) {o : Op} (h : o ∈ Op.arithOps) :
    opcodeOf c o = BitVec.ofNat 8 (0x10 + c.arithCodes.idxOf o) := by
  simp only [Op.arithOps, List.mem_cons, List.not_mem_nil, or_false] at h
  rcases h with rfl | rfl | rfl | rfl | rfl | rfl | rfl | rfl | rfl | rfl <;> rfl

theorem opcodeOf_cmp (c : Config) {o : Op} (h : o ∈ Op.cmpOps) :
    opcodeOf c o = BitVec.ofNat 8 (0x1A + c.cmpCodes.idxOf o) := by
  simp only [Op.cmpOps, List.mem_cons, List.not_mem_nil, or_false] at h
  rcases h with rfl | rfl | rfl | rfl | rfl | rfl <;> rfl

/-- The fixed bytes are assigned alike by the opcode map and by the encoder. -/
theorem fixedCodes_agree (c : Config) : ∀ e ∈ fixedCodes, opAt c e.1 = some e.2 ∧ opcodeOf c e.2 = e.1 := by
  simp only [fixedCodes, List.forall_mem_cons]
  exact ⟨⟨rfl, rfl⟩, ⟨rfl, rfl⟩, ⟨rfl, rfl⟩, ⟨rfl, rfl⟩, ⟨rfl, rfl⟩, ⟨rfl, rfl⟩, ⟨rfl, rfl⟩, ⟨rfl, rfl⟩, ⟨rfl, rfl⟩,
    ⟨rfl, rfl⟩, ⟨rfl, rfl⟩, ⟨rfl, rfl⟩, ⟨rfl, rfl⟩, ⟨rfl, rfl⟩, nofun⟩

/-- Every operation is of one of the two families or has a fixed byte. -/
theorem Op.family_cases (o : Op) : o ∈ Op.arithOps ∨ o ∈ Op.cmpOps ∨ ∃ b, (b, o) ∈ fixedCodes := by
  have h : o ∈ Op.arithOps ∨ o ∈ Op.cmpOps ∨ o ∈ fixedCodes.map Prod.snd := by cases o <;> decide
  simpa using h

/-! ### The two families under a well-formed assignment (R81) -/

/-- A rearrangement of a family without repeats has an operation of the family exactly at its index. -/
theorem getElem?_eq_some_iff_idxOf {codes ops : List Op} (hp : codes.Perm ops) (hn : ops.Nodup) {k : Nat} {o : Op} :
    codes[k]? = some o ↔ o ∈ ops ∧ codes.idxOf o = k := by
  constructor
  · intro h
    obtain ⟨hk, rfl⟩ := List.getElem?_eq_some_iff.1 h
    exact ⟨hp.mem_iff.1 (List.getElem_mem hk), (hp.nodup_iff.2 hn).idxOf_getElem k hk⟩
  · rintro ⟨ho, rfl⟩
    have hlt := List.idxOf_lt_length_iff.2 (hp.mem_iff.2 ho)
    exact List.getElem?_eq_some_iff.2 ⟨hlt, List.getElem_idxOf hlt⟩

theorem idxOf_lt_of_perm {codes ops : List Op} (hp : codes.Perm ops) {o : Op} (ho : o ∈ ops) :
    codes.idxOf o < ops.length :=
  hp.length_eq ▸ List.idxOf_lt_length_iff.2 (hp.mem_iff.2 ho)

section
variable {c : Config} (hc : c.wf = true)
include hc

theorem Config.getElem?_arithCodes {k : Nat} {o : Op} :
    c.arithCodes[k]? = some o ↔ o ∈ Op.arithOps ∧ c.arithCodes.idxOf o = k :=
  getElem?_eq_some_iff_idxOf ((Config.wf_iff c).1 hc).1 (by decide)

theorem Config.getElem?_cmpCodes {k : Nat} {o : Op} :
    c.cmpCodes[k]? = some o ↔ o ∈ Op.cmpOps ∧ c.cmpCodes.idxOf o = k :=
  getElem?_eq_some_iff_idxOf ((Config.wf_iff c).1 hc).2 (by decide)

theorem toNat_opcodeOf_arith {o : Op} (ho : o ∈ Op.arithOps) :
    (opcodeOf c o).toNat = 0x10 + c.arithCodes.idxOf o ∧ c.arithCodes.idxOf o < 10 := by
  have hlt : c.arithCodes.idxOf o < 10 := idxOf_lt_of_perm ((Config.wf_iff c).1 hc).1 ho
  rw [opcodeOf_arith c ho, BitVec.toNat_ofNat]
  omega

theorem toNat_opcodeOf_cmp {o : Op} (ho : o ∈ Op.cmpOps) :
    (opcodeOf c o).toNat = 0x1A + c.cmpCodes.idxOf o ∧ c.cmpCodes.idxOf o < 6 := by
  have hlt : c.cmpCodes.idxOf o < 6 := idxOf_lt_of_perm ((Config.wf_iff c).1 hc).2 ho
  rw [opcodeOf_cmp c ho, BitVec.toNat_ofNat]
  omega

/-! ### The opcode map and the encoder's opcode byte are inverse -/

theorem opAt_opcodeOf (o : Op) : opAt c (opcodeOf c o) = some o := by
  obtain ho | ho | ⟨b, ho⟩ := Op.family_cases o
  · obtain ⟨hb, hlt⟩ := toNat_opcodeOf_arith hc ho
    rw [opAt_arith c (by omega), Config.getElem?_arithCodes hc]
    exact ⟨ho, by omega⟩
  · obtain ⟨hb, hlt⟩ := toNat_opcodeOf_cmp hc ho
    rw [opAt_cmp c (by omega), Config.getElem?_cmpCodes hc]
    exact ⟨ho, by omega⟩
  · obtain ⟨hat, hof⟩ := fixedCodes_agree c _ ho
    rw [hof, hat]

theorem opcodeOf_of_opAt {b : Byte} {o : Op} (h : opAt c b = some o) : opcodeOf c o = b := by
  obtain hb | hb | hb := byte_range_cases b
  · rw [opAt_arith c hb, Config.getElem?_arithCodes hc] at h
    obtain ⟨ho, hidx⟩ := h
    have := toNat_opcodeOf_arith hc ho
    exact BitVec.eq_of_toNat_eq (by omega)
  · rw [opAt_cmp c hb, Config.getElem?_cmpCodes hc] at h
    obtain ⟨ho, hidx⟩ := h
    have := toNat_opcodeOf_cmp hc ho
    exact BitVec.eq_of_toNat_eq (by omega)
  · rw [opAt_fixed c hb, Option.map_eq_some_iff] at h
    obtain ⟨e, he, rfl⟩ := h
    rw [(fixedCodes_agree c e (List.mem_of_find?_eq_some he)).2]
    have hbeq := List.find?_some he
    exact eq_of_beq hbeq

end

/-! ### The decoder and the encoder -/

/-- The decoder where the opcode byte is mapped (R72, R75). -/
theorem decode_of_opAt {c : Config} {b : Byte} {o : Op} (h : opAt c b = some o) (rest : List Byte) :
    decode c (b :: rest) = .ok (if o.isImm then (o.instr rest.head?, rest.tail) else (o.instr none, rest)) := by
  simp only [decode_cons, h]
  cases o.isImm <;> rfl

/-- What decodes has a mapped opcode byte, and the instruction takes its immediate from the bytes after it. -/
theorem decode_eq_ok {c : Config} {bs rest : List Byte} {i : Instr} (h : decode c bs = .ok (i, rest)) :
    ∃ b more o, bs = b :: more ∧ opAt c b = some o ∧
      (i, rest) = if o.isImm then (o.instr more.head?, more.tail) else (o.instr none, more) := by
  cases bs with
  | nil => simp [decode] at h
  | cons b more =>
    cases ho : opAt c b with
    | none => simp [decode_cons, ho] at h
    | some o =>
      rw [decode_of_opAt ho] at h
      exact ⟨b, more, o, rfl, ho, (Except.ok.inj h).symm⟩

/-- An instruction of format `OP` carries no immediate (R70, R71). -/
theorem Instr.immediate_of_not_isImm {i : Instr} (h : i.op.isImm = false) : i.immediate = none := by
  have himm := Op.immediate_instr i.op i.immediate
  rwa [Instr.instr_op, h] at himm

/-- Settles O7: the opcode byte maps back to the operation, and the immediate is what the operation's format takes. -/
theorem decodeOfEncodeIsTheInstruction : Obligations.DecodeOfEncodeIsTheInstruction := by
  intro c i rest hc hi
  rw [encode, List.cons_append, decode_of_opAt (opAt_opcodeOf hc i.op)]
  rw [Instr.wf_iff] at hi
  have hinstr := i.instr_op
  cases hm : i.op.isImm with
  | false =>
    rw [Instr.immediate_of_not_isImm hm] at hinstr ⊢
    simp [hinstr]
  | true =>
    cases him : i.immediate with
    | some v =>
      rw [him] at hinstr
      simp [hinstr]
    | none =>
      rw [him] at hinstr
      obtain rfl : rest = [] := by simpa [hm, him] using hi
      simp [hinstr]

/-- The encoding of an operation with an immediate that its format may not have. -/
theorem encode_instr (c : Config) (o : Op) (v : Option Byte) :
    encode c (o.instr v) = opcodeOf c o :: (if o.isImm then v else none).toList := by
  rw [encode, Op.op_instr, Op.immediate_instr]

/-- Settles O8: the opcode byte is the operation's own, and the immediate is the byte after it where there is one. -/
theorem encodeOfDecodeIsTheBytes : Obligations.EncodeOfDecodeIsTheBytes := by
  intro c bs i rest hc h
  obtain ⟨b, more, o, rfl, ho, h⟩ := decode_eq_ok h
  have hb := opcodeOf_of_opAt hc ho
  cases hm : o.isImm with
  | false =>
    rw [hm] at h
    cases h
    simp [encode_instr, Instr.wf_iff, Op.immediate_instr, hm, hb]
  | true =>
    rw [hm] at h
    cases h
    cases more <;> simp [encode_instr, Instr.wf_iff, Op.immediate_instr, hm, hb]

end Sys2Proof

/-! PROOF. The bytes without an operation (R84), the immediate that is absent (R75), and words written out from the
tables (R82, R83, R141). -/

namespace Sys2Proof

/-! ### The unmapped bytes (R84) -/

/-- R84's four ranges. -/
abbrev IsUnmapped (n : Nat) : Prop :=
  (0x05 ≤ n ∧ n ≤ 0x0F) ∨ (0x22 ≤ n ∧ n ≤ 0x2F) ∨ (0x34 ≤ n ∧ n ≤ 0x3F) ∨ (0x42 ≤ n ∧ n ≤ 0xFE)

/-- The bytes outside the two families that have no fixed operation. -/
theorem find?_fixedCodes_eq_none {b : Byte} (h : b.toNat < 0x10 ∨ 0x1F < b.toNat) :
    (fixedCodes.find? fun e => e.1 == b) = none ↔ IsUnmapped b.toNat := by
  simp only [List.find?_eq_none, fixedCodes, List.forall_mem_cons, List.not_mem_nil, false_implies,
    implies_true, and_true, beq_iff_eq]
  bv_omega

theorem opAt_eq_none_iff {c : Config} (hc : c.wf = true) (b : Byte) : opAt c b = none ↔ IsUnmapped b.toNat := by
  obtain ⟨harith, hcmp⟩ := (Config.wf_iff c).1 hc
  have hlen : c.arithCodes.length = 10 ∧ c.cmpCodes.length = 6 := ⟨harith.length_eq, hcmp.length_eq⟩
  obtain hb | hb | hb := byte_range_cases b
  · rw [opAt_arith c hb, List.getElem?_eq_none_iff, IsUnmapped]
    omega
  · rw [opAt_cmp c hb, List.getElem?_eq_none_iff, IsUnmapped]
    omega
  · rw [opAt_fixed c hb, Option.map_eq_none_iff, find?_fixedCodes_eq_none hb]

/-- R84: the unmapped bytes are 226, counted over the four ranges. -/
theorem card_unmapped {c : Config} (hc : c.wf = true) :
    ((List.range 256).filter fun n => (opAt c (BitVec.ofNat 8 n)).isNone).length = 226 := by
  calc
    _ = ((List.range 256).filter fun n => decide (IsUnmapped n)).length := by
      refine congrArg List.length (List.filter_congr fun n hn => Bool.eq_iff_iff.2 ?_)
      rw [Option.isNone_iff_eq_none, opAt_eq_none_iff hc, decide_eq_true_iff,
        BitVec.toNat_ofNat, Nat.mod_eq_of_lt (List.mem_range.1 hn)]
    _ = 226 := rfl

end Sys2Proof

namespace Sys2Proof.Machine

/-- Settles O6: R84's ranges are those of the opcode map, and a mapped opcode takes any byte as its immediate. -/
theorem unmappedBytesRaiseInvalidOpcode : Obligations.UnmappedBytesRaiseInvalidOpcode := by
  intro c hc
  refine ⟨opAt_eq_none_iff hc, card_unmapped hc, fun s b rest hs ha hcode hb => ?_, fun o v rest hm => ?_⟩
  · subst hs
    exact ⟨_, s.pc, step_of_invalid ha hcode hb, by rw [raiseInvalidOpcode_eq]⟩
  · rw [decode_of_opAt (opAt_opcodeOf hc o), hm]
    rfl

/-! ### The absent immediate (R75, R235) -/

/-- An operation of format `OP_IMM` without its immediate raises StreamExhausted, unless it pops first and finds the
stack empty. -/
theorem operation_of_no_immediate {o : Op} (hm : o.isImm = true) (s : State) :
    ∃ u, operation (o.instr none) s = .raised
      (if (o = .jz ∨ o = .storei) ∧ s.stack = [] then .stackUnderflow else .streamExhausted) none u := by
  cases o with
  | push | addi | subi | muli | divi | modi | jmz | loadi | call => 
    refine ⟨s.setPc (s.pc + 1), ?_⟩
    rw [if_neg (by simp)]
    rfl
  | jz | storei =>
    cases hs : s.stack with
    | nil => exact ⟨s, by simp [operation, Op.instr, opJz, opStorei, pop_nil hs]⟩
    | cons v rest =>
      exact ⟨(s.setStack rest).setPc (s.pc + 1), by simp [operation, Op.instr, opJz, opStorei, pop_cons hs]⟩
  | syscall | pop | dup | swap | add | sub | mul | div | mod | eq | neq | lt | le | gt | ge | store | load | ret | fin =>
    cases hm

/-- Settles O10: the opcode that ends the stream decodes to the instruction without its immediate. -/
theorem lastByteOpcodeExhaustsTheStream : Obligations.LastByteOpcodeExhaustsTheStream := by
  intro s b o ha hcode ho hm
  have hd : decode s.cfg (s.code.drop s.pc) = .ok (o.instr none, []) := by
    rw [hcode, decode_of_opAt ho, hm]
    rfl
  obtain ⟨u, hu⟩ := operation_of_no_immediate hm s.latch
  exact ⟨_, _, (step_of_decode ha hd).trans (exec_of_raised hu), rfl⟩

/-! ### Words written out (R82, R83, R141) -/

/-- Settles O4, each word by running the decoder on it. -/
theorem writtenOutWordsDecode : Obligations.WrittenOutWordsDecode :=
  ⟨rfl, rfl, rfl, rfl, rfl, rfl, rfl, rfl, rfl, rfl, rfl, rfl, rfl⟩

/-- Settles O5, by running both tables on each of the 256 bytes. -/
theorem romAndSystabHoldTheirWords : Obligations.RomAndSystabHoldTheirWords := by
  unfold Obligations.RomAndSystabHoldTheirWords
  decide

end Sys2Proof.Machine

/-! PROOF. The resolver (R96 to R99): where the label table comes from, and the byte each token emits. -/

namespace Sys2Proof.Machine

/-! ### Emission -/

@[simp] theorem emitted_nil : emitted [] = 0 := rfl

theorem emitted_cons (t : Token) (ts : List Token) :
    emitted (t :: ts) = (if t.isLabelDef then 0 else 1) + emitted ts := by
  cases h : t.isLabelDef <;> simp [emitted, h, Nat.add_comm]

theorem Token.isLabelDef_iff (t : Token) : t.isLabelDef = true ↔ ∃ name, t.kind = .labelDef name := by
  unfold Token.isLabelDef
  cases t.kind <;> simp

/-! ### Pass 1 (R96) -/

theorem lookupLabel_cons (labels : Labels) (name name' : Name) (n : Nat) :
    lookupLabel ((name', n) :: labels) name = if name' = name then some n else lookupLabel labels name := by
  by_cases h : name' = name <;> simp [lookupLabel, h]

/-- What pass 1 does with one token: a definition enters the table at the address counter, any other token advances
the counter. -/
theorem passOne_cons {policy : DupLabelPolicy} {n : Nat} {labels out : Labels} {t : Token} {ts : List Token}
    (h : passOne policy n labels (t :: ts) = .ok out) :
    (∃ name, t.kind = .labelDef name ∧ passOne policy n ((name, n) :: labels) ts = .ok out) ∨
    ((∀ name, t.kind ≠ .labelDef name) ∧ passOne policy (n + 1) labels ts = .ok out) := by
  unfold passOne at h
  cases hk : t.kind with
  | labelDef name =>
    simp only [hk] at h
    split at h
    · cases h
    · exact .inl ⟨name, rfl, h⟩
  | op o | int b | labelRef name =>
    simp only [hk] at h
    exact .inr ⟨nofun, h⟩

/-- `LastDefinition ts name upTo beyond`: the last definition of `name` in `ts` stands between `upTo` and `beyond`. -/
def LastDefinition (ts : List Token) (name : Name) (upTo beyond : List Token) : Prop :=
  ∃ line, ts = upTo ++ { kind := .labelDef name, line := line } :: beyond ∧ ∀ d ∈ beyond, d.kind ≠ .labelDef name

theorem LastDefinition.cons {ts upTo beyond : List Token} {name : Name} (h : LastDefinition ts name upTo beyond)
    (t : Token) : LastDefinition (t :: ts) name (t :: upTo) beyond := by
  obtain ⟨line, rfl, hlast⟩ := h
  exact ⟨line, rfl, hlast⟩

/-- R96, R99: an address in the table of pass 1 is that of the label's last definition among the tokens, or, where they
define no such label, the address the table began with. -/
theorem lookupLabel_passOne {policy : DupLabelPolicy} {n : Nat} {labels out : Labels} {ts : List Token}
    (h : passOne policy n labels ts = .ok out) (name : Name) :
    (∃ upTo beyond, LastDefinition ts name upTo beyond ∧ lookupLabel out name = some (n + emitted upTo)) ∨
    ((∀ d ∈ ts, d.kind ≠ .labelDef name) ∧ lookupLabel out name = lookupLabel labels name) := by
  induction ts generalizing n labels with
  | nil =>
    cases h
    exact .inr ⟨nofun, rfl⟩
  | cons t ts ih =>
    obtain ⟨name', hk, h⟩ | ⟨hk, h⟩ := passOne_cons h
    · have ht : t.isLabelDef = true := t.isLabelDef_iff.2 ⟨name', hk⟩
      obtain ⟨upTo, beyond, hlast, hout⟩ | ⟨hnone, hout⟩ := ih h
      · refine .inl ⟨t :: upTo, beyond, hlast.cons t, ?_⟩
        rw [hout, emitted_cons, if_pos ht, Nat.zero_add]
      · rw [lookupLabel_cons] at hout
        by_cases e : name' = name
        · subst e
          refine .inl ⟨[], ts, ⟨t.line, ?_, hnone⟩, by simpa using hout⟩
          rw [← hk]
          rfl
        · rw [if_neg e] at hout
          refine .inr ⟨List.forall_mem_cons.2 ⟨?_, hnone⟩, hout⟩
          rw [hk]
          exact fun he => e (TokenKind.labelDef.inj he)
    · have ht : ¬t.isLabelDef = true := fun hd => (t.isLabelDef_iff.1 hd).elim hk
      obtain ⟨upTo, beyond, hlast, hout⟩ | ⟨hnone, hout⟩ := ih h
      · refine .inl ⟨t :: upTo, beyond, hlast.cons t, ?_⟩
        rw [hout, emitted_cons, if_neg ht, Nat.add_assoc]
      · exact .inr ⟨List.forall_mem_cons.2 ⟨hk name, hnone⟩, hout⟩

/-! ### Pass 2 (R97, R98) -/

/-- A mapped answer, taken apart. -/
theorem exceptMap_eq_ok {ε α β : Type} {f : α → β} {x : Except ε α} {b : β} (h : x.map f = .ok b) :
    ∃ a, x = .ok a ∧ b = f a := by
  cases x with
  | error e => cases h
  | ok a => exact ⟨a, rfl, (Except.ok.inj h).symm⟩

/-- What pass 2 does with one token: a definition emits nothing, any other token one byte, which is a label's address
where it refers to one. -/
theorem passTwo_cons {cfg : Config} {labels : Labels} {t : Token} {ts : List Token} {bs : List Byte}
    (h : passTwo cfg labels (t :: ts) = .ok bs) :
    (t.isLabelDef = true ∧ passTwo cfg labels ts = .ok bs) ∨
    (t.isLabelDef = false ∧ ∃ b rest, bs = b :: rest ∧ passTwo cfg labels ts = .ok rest ∧
      ∀ name, t.kind = .labelRef name → ∃ a, lookupLabel labels name = some a ∧ b = BitVec.ofNat 8 a) := by
  unfold passTwo at h
  unfold Token.isLabelDef
  cases hk : t.kind with
  | labelDef name =>
    simp only [hk] at h
    exact .inl ⟨rfl, h⟩
  | op o | int b =>
    simp only [hk] at h
    obtain ⟨rest, hrest, rfl⟩ := exceptMap_eq_ok h
    exact .inr ⟨rfl, _, rest, rfl, hrest, nofun⟩
  | labelRef name =>
    simp only [hk] at h
    cases ha : lookupLabel labels name with
    | none =>
      rw [ha] at h
      cases h
    | some a =>
      simp only [ha] at h
      obtain ⟨rest, hrest, rfl⟩ := exceptMap_eq_ok h
      refine .inr ⟨rfl, _, rest, rfl, hrest, fun name' hname => ?_⟩
      cases hname
      exact ⟨a, ha, rfl⟩

/-- R97: pass 2 emits one byte for each token that is no label definition. -/
theorem passTwo_length {cfg : Config} {labels : Labels} {ts : List Token} {bs : List Byte}
    (h : passTwo cfg labels ts = .ok bs) : bs.length = emitted ts := by
  induction ts generalizing bs with
  | nil =>
    cases h
    rfl
  | cons t ts ih =>
    obtain ⟨ht, h⟩ | ⟨ht, b, rest, rfl, h, -⟩ := passTwo_cons h
    · rw [ih h, emitted_cons, ht]
      exact (Nat.zero_add _).symm
    · rw [List.length_cons, ih h, emitted_cons, ht, Nat.add_comm]
      rfl

/-- R97, R98: a label reference has its label in the table, and its byte is the address there modulo 256. -/
theorem passTwo_labelRef {cfg : Config} {labels : Labels} {before after : List Token} {name : Name} {line : Nat}
    {bs : List Byte} (h : passTwo cfg labels (before ++ { kind := .labelRef name, line := line } :: after) = .ok bs) :
    ∃ a, lookupLabel labels name = some a ∧ bs[emitted before]? = some (BitVec.ofNat 8 a) := by
  induction before generalizing bs with
  | nil =>
    obtain ⟨ht, -⟩ | ⟨-, b, rest, rfl, -, href⟩ := passTwo_cons h
    · cases ht
    · obtain ⟨a, ha, rfl⟩ := href name rfl
      exact ⟨a, ha, rfl⟩
  | cons t before ih =>
    obtain ⟨ht, h⟩ | ⟨ht, b, rest, rfl, h, -⟩ := passTwo_cons h <;> obtain ⟨a, ha, hb⟩ := ih h
    · exact ⟨a, ha, by simpa [emitted_cons, ht] using hb⟩
    · exact ⟨a, ha, by simpa [emitted_cons, ht, Nat.add_comm 1] using hb⟩

/-! ### The resolver -/

/-- An image is the header and what pass 2 emits under the table of pass 1. -/
theorem resolve_eq_ok {cfg : Config} {policy : DupLabelPolicy} {ts : List Token} {image : List Byte}
    (h : resolve cfg policy ts = .ok image) :
    ∃ labels bs, passOne policy 0 [] ts = .ok labels ∧ passTwo cfg labels ts = .ok bs ∧ image = magicHeader ++ bs := by
  unfold resolve at h
  cases h1 : passOne policy 0 [] ts with
  | error e =>
    rw [h1] at h
    cases h
  | ok labels =>
    simp only [h1] at h
    obtain ⟨bs, h2, rfl⟩ := exceptMap_eq_ok h
    exact ⟨labels, bs, rfl, h2, rfl⟩

/-- R96 to R99, R101: a label reference in a resolved text emits the address of the label's last definition. -/
theorem resolve_labelRef {cfg : Config} {policy : DupLabelPolicy} {ts before after : List Token} {name : Name}
    {line : Nat} {image : List Byte} (h : resolve cfg policy ts = .ok image)
    (hts : ts = before ++ { kind := .labelRef name, line := line } :: after) :
    ∃ upTo beyond, LastDefinition ts name upTo beyond ∧
      image[4 + emitted before]? = some (BitVec.ofNat 8 (emitted upTo)) := by
  obtain ⟨labels, bs, h1, h2, rfl⟩ := resolve_eq_ok h
  obtain ⟨a, ha, hb⟩ := passTwo_labelRef (hts ▸ h2)
  obtain ⟨upTo, beyond, hlast, hout⟩ | ⟨-, hout⟩ := lookupLabel_passOne h1 name
  · obtain rfl : emitted upTo = a := by simpa [ha] using hout.symm
    refine ⟨upTo, beyond, hlast, ?_⟩
    rw [List.getElem?_append_right (Nat.le_add_right 4 _), ← hb]
    exact congrArg (bs[·]?) (Nat.add_sub_cancel_left 4 _)
  · rw [ha] at hout
    cases hout

/-- Settles O58: pass 2 emits the bytes, the header is put before them, and a label in the table is a label defined. -/
theorem resolvedImageHasOneByteATokenAndLoads : Obligations.ResolvedImageHasOneByteATokenAndLoads := by
  intro cfg policy ts image h
  obtain ⟨labels, bs, -, h2, himage⟩ := resolve_eq_ok h
  have hlen := passTwo_length h2
  have htake : image.take 4 = magicHeader := by rw [himage]; rfl
  refine ⟨?_, htake, fun cfg' ports => ⟨_, if_pos htake, ?_⟩, fun t ht name hk => ?_⟩
  · rw [himage, List.length_append, hlen]
    rfl
  · rw [himage, ← hlen]
    rfl
  · obtain ⟨before, after, hts⟩ := List.append_of_mem ht
    obtain ⟨kind, line⟩ := t
    cases hk
    obtain ⟨upTo, beyond, ⟨line', hdef, -⟩, -⟩ := resolve_labelRef h hts
    rw [hdef]
    exact ⟨_, List.mem_append_right _ List.mem_cons_self, rfl⟩

/-- Settles O59, which holds under either policy: the byte is the address of the label's last definition. -/
theorem labelReferenceEmitsTheLabelAddress : Obligations.LabelReferenceEmitsTheLabelAddress := by
  intro cfg ts image before after line name h hts
  obtain ⟨upTo, beyond, ⟨line', hdef, hlast⟩, hbyte⟩ := resolve_labelRef h hts
  exact ⟨upTo, line', beyond, hdef, hlast, hbyte⟩

end Sys2Proof.Machine

/-! PROOF. The cycle: where a completed instruction leaves `pc`, and which runs nothing ends. -/

namespace Sys2Proof.Machine

/-! ### The control transfers in full -/

theorem exec_jz {s : State} {flag : Byte} {rest : List Byte} (hs : s.stack = flag :: rest) (d : Byte) :
    exec (.jz (some d)) s =
      .next { s.completed (if flag = 0 then d.toNat else s.pc + 2) with stack := rest } := by
  by_cases hflag : flag = 0
  · have h : operation (.jz (some d)) s.latch =
        .ok () (((s.latch.setStack rest).setPc (s.pc + 1)).jumpTo (codeTarget d)) := by
      simp only [operation, opJz, pop_cons (s := s.latch) hs, Result.bind_ok, imm_some, if_pos hflag]
      rfl
    rw [exec_of_ok h, if_pos hflag]
    rfl
  · have h : operation (.jz (some d)) s.latch = .ok () ((s.latch.setStack rest).setPc (s.pc + 1)) := by
      simp only [operation, opJz, pop_cons (s := s.latch) hs, Result.bind_ok, imm_some, if_neg hflag]
      rfl
    rw [exec_of_ok h, if_neg hflag]
    rfl

theorem jz_raises_of_nil {s : State} (hs : s.stack = []) (d : Option Byte) :
    Raises (.jz d) s .stackUnderflow none := by
  refine raises_of_operation (u := s.latch) ?_
  simp only [operation, opJz, pop_nil (s := s.latch) hs, Result.bind_raised]

theorem exec_jmz (d : Byte) (s : State) : exec (.jmz (some d)) s = .next (s.completed d.toNat) := rfl

theorem exec_call {s : State} (hc : s.calls.length < 256) (d : Byte) :
    exec (.call (some d)) s =
      .next { s.completed d.toNat with calls := (s.pc + 1) :: s.calls } := by
  have h : operation (.call (some d)) s.latch =
      .ok () (((s.latch.setPc (s.pc + 1)).setCalls ((s.pc + 1) :: s.calls)).jumpTo (codeTarget d)) := by
    simp only [operation, opCall, imm_some, Result.bind_ok, State.latch_pc]
    rw [cpush_of_lt (s := s.latch.setPc (s.pc + 1)) hc]
    rfl
  exact exec_of_ok h

theorem call_raises_of_full {s : State} (hc : 256 ≤ s.calls.length) (d : Byte) :
    Raises (.call (some d)) s .callStackOverflow none := by
  refine raises_of_operation (u := s.latch.setPc (s.pc + 1)) ?_
  simp only [operation, opCall, imm_some, Result.bind_ok, State.latch_pc]
  rw [cpush_of_ge (s := s.latch.setPc (s.pc + 1)) hc, Result.bind_raised]

theorem exec_ret {s : State} {r : Nat} {rest : List Nat} (hc : s.calls = r :: rest) :
    exec .ret s = .next { s.completed (r + 1) with calls := rest } := by
  have h : operation .ret s.latch = .ok () ((s.latch.setCalls rest).setPc r) := by
    simp only [operation, opRet, cpop_cons (s := s.latch) hc, Result.bind_ok]
  exact exec_of_ok h

theorem ret_raises_of_nil {s : State} (hc : s.calls = []) : Raises .ret s .callStackUnderflow none := by
  refine raises_of_operation (u := s.latch) ?_
  simp only [operation, opRet, cpop_nil (s := s.latch) hc, Result.bind_raised]

/-! ### `pc` after a completed instruction (R131) -/

/-- An instruction that raises a fault has not completed. -/
theorem Raises.fault_ne_none {i : Instr} {s t : State} {k : FaultKind} {info : Option Byte}
    (hr : Raises i s k info) (h : exec i s = .next t) : t.fault ≠ none := by
  obtain ⟨t', p, h', hf⟩ := hr
  obtain rfl : t' = t := by simpa [h'] using h
  simp [hf]

/-- A completed instruction of format `OP_IMM` has found its immediate (R75). -/
theorem immediate_isSome_of_completed {i : Instr} {s t : State} (hm : i.op.isImm = true)
    (h : exec i s = .next t) (ht : t.fault = none) : ∃ v, i.immediate = some v := by
  cases hv : i.immediate with
  | some v => exact ⟨v, rfl⟩
  | none =>
    obtain ⟨u, hu⟩ := operation_of_no_immediate hm s.latch
    rw [← hv, Instr.instr_op] at hu
    exact absurd ht ((raises_of_operation hu).fault_ne_none h)

/-- Outside the control transfers an effect moves `pc` over the immediate and leaves the rest to the advance. -/
theorem Effect.pc_eq {i : Instr} {s u : State} (h : Effect s i u) (hi : i.op ∉ [Op.jz, Op.jmz, Op.call, Op.ret]) :
    u.redirect = s.redirect ∧ u.pc = s.pc + i.immediate.toList.length := by
  cases h with
  | reshaped | store | storei | fin => exact ⟨rfl, rfl⟩
  | jzTaken | jmz | call | ret => exact absurd (by simp [Instr.op]) hi

/-- Outside the control transfers a completed instruction leaves `pc` behind its own bytes, FIN and selector 3
included (D13). -/
theorem exec_pc_of_sequential {i : Instr} {s t : State} (hi : i.op ∉ [Op.jz, Op.jmz, Op.call, Op.ret])
    (h : exec i s = .next t) (ht : t.fault = none) (hw : t.waiting = false) :
    t.pc = s.pc + i.immediate.toList.length + 1 := by
  by_cases hsys : i = .syscall
  · subst hsys
    cases exec_syscall_end h with
    | waits => cases hw
    | faults _ e => rw [e] at ht; cases ht
    | completes _ _ _ _ e => rw [e]; rfl
  · obtain ⟨u, he, rfl⟩ | ⟨_, _, _, -, -, rfl⟩ := exec_ends hsys h
    · obtain ⟨hred, hpc⟩ := he.pc_eq hi
      rw [State.advance_pc, hred, hpc]
      rfl
    · cases ht

theorem jz_pc {s t : State} {d : Byte} (h : exec (.jz (some d)) s = .next t) (ht : t.fault = none) :
    t.pc = if s.stack.head? = some 0 then d.toNat else s.pc + 2 := by
  rcases hs : s.stack with _ | ⟨flag, rest⟩
  · exact absurd ht ((jz_raises_of_nil hs _).fault_ne_none h)
  · rw [exec_jz hs] at h
    cases h
    simp [State.completed]

theorem call_pc {s t : State} {d : Byte} (h : exec (.call (some d)) s = .next t) (ht : t.fault = none) :
    t.pc = d.toNat := by
  by_cases hc : s.calls.length < 256
  · rw [exec_call hc] at h
    cases h
    rfl
  · exact absurd ht ((call_raises_of_full (Nat.le_of_not_lt hc) d).fault_ne_none h)

theorem ret_pc {s t : State} (h : exec .ret s = .next t) (ht : t.fault = none) :
    ∃ r rest, s.calls = r :: rest ∧ t.pc = r + 1 := by
  rcases hc : s.calls with _ | ⟨r, rest⟩
  · exact absurd ht ((ret_raises_of_nil hc).fault_ne_none h)
  · rw [exec_ret hc] at h
    cases h
    exact ⟨r, rest, rfl, rfl⟩

/-- RET is the one control transfer without an immediate. -/
theorem sequential_of_not_isImm {i : Instr} (hm : i.op.isImm = false) (hret : i ≠ .ret) :
    i.op ∉ [Op.jz, Op.jmz, Op.call, Op.ret] := by
  have hop : i.op ≠ .ret := fun e => hret (by rw [← Instr.instr_op i, e]; rfl)
  have himm : ∀ o : Op, o.isImm = true → i.op ≠ o := fun o ho e => by rw [e, ho] at hm; cases hm
  simp [hop, himm .jz rfl, himm .jmz rfl, himm .call rfl]

/-- Settles O12: the sequential instructions by their length, then each control transfer. -/
theorem pcAfterACompletedInstruction : Obligations.PcAfterACompletedInstruction := by
  intro i s t _ h ht hw
  refine ⟨fun hm hret => ?_, fun hm hop => ?_, fun d hi => ?_, fun d hi => ?_, fun hi => ?_⟩
  · rw [exec_pc_of_sequential (sequential_of_not_isImm hm hret) h ht hw, Instr.immediate_of_not_isImm hm]
    rfl
  · have hret : i.op ≠ .ret := fun e => by rw [e] at hm; cases hm
    obtain ⟨v, hv⟩ := immediate_isSome_of_completed hm h ht
    rw [exec_pc_of_sequential (by simpa [hret] using hop) h ht hw, hv]
    rfl
  · subst hi
    exact jz_pc h ht
  · rcases hi with rfl | rfl
    · rw [exec_jmz] at h
      cases h
      rfl
    · exact call_pc h ht
  · subst hi
    exact ret_pc h ht

/-! ### Loops and waits (R130) -/

/-- A byte outside the two families decodes the same under every assignment of them. -/
theorem decode_fixedCode {b : Byte} {o : Op} (h : (b, o) ∈ fixedCodes) (c : Config) (rest : List Byte) :
    decode c (b :: rest) = .ok (if o.isImm then (o.instr rest.head?, rest.tail) else (o.instr none, rest)) :=
  decode_of_opAt (fixedCodes_agree c _ h).1 rest

/-- `s` is running, with `pc` at `p`, where a JMZ to `p` stands. -/
structure AtSelfJump (p : Nat) (s : State) : Prop where
  active : Active s
  pc : s.pc = p
  code : ∃ d rest, s.code.drop p = 0x21 :: d :: rest ∧ d.toNat = p

/-- The jump comes back to itself. -/
theorem AtSelfJump.step {p : Nat} {s : State} (h : AtSelfJump p s) : ∃ t, step s = .next t ∧ AtSelfJump p t := by
  obtain ⟨ha, rfl, d, rest, hcode, hd⟩ := h
  have hdecode : decode s.cfg (s.code.drop s.pc) = .ok (.jmz (some d), rest) := by
    rw [hcode, decode_fixedCode (o := .jmz) (by decide)]
    rfl
  refine ⟨s.completed s.pc, ?_, ?_, rfl, d, rest, hcode, hd⟩
  · rw [step_of_decode ha hdecode, exec_jmz, hd]
  · obtain ⟨hf, hh, hpc, -⟩ := (active_iff s).1 ha
    exact (active_iff _).2 ⟨hf, hh, hpc, rfl⟩

theorem AtSelfJump.run {p : Nat} {s : State} (h : AtSelfJump p s) (k : Nat) :
    ∃ l t, Run s l t ∧ l.length = k ∧ AtSelfJump p t := by
  induction k with
  | zero => exact ⟨[], s, .refl, rfl, h⟩
  | succ k ih =>
    obtain ⟨l, t, hrun, hlen, ht⟩ := ih
    obtain ⟨u, hstep, hu⟩ := ht.step
    exact ⟨t :: l, u, hrun.snoc hstep, congrArg (· + 1) hlen, hu⟩

/-- Selector 0 with no answer at hand (R143). -/
theorem exec_syscall_waits {s : State} {rest : List Byte} (hs : s.stack = 0 :: rest) (hin : s.inputs = []) :
    exec .syscall s = .next s.awaitInput := by
  have h : operation .syscall s.latch = .waits := by
    rw [show operation .syscall = opSyscall from rfl, opSyscall_cons (s := s.latch) hs]
    simp [sysRead, portIn, hin]
  rw [exec_eq_finish, h, finish_waits]

/-- Settles O13: the loop by induction on its length, the wait by the cycle that begins it. -/
theorem nothingEndsALoopOrAWait : Obligations.NothingEndsALoopOrAWait := by
  refine ⟨fun s d rest ha hcode hd k => ?_, fun s rest st ha hcode hs hin => ?_⟩
  · obtain ⟨l, t, hrun, hlen, ht⟩ := AtSelfJump.run ⟨ha, rfl, d, rest, hcode, hd⟩ k
    exact ⟨l, t, hrun, hlen, ht.active, ht.pc⟩
  · have hdecode : decode s.cfg (s.code.drop s.pc) = .ok (.syscall, rest) := by
      rw [hcode, decode_fixedCode (o := .syscall) (by decide)]
      rfl
    obtain ⟨hf, hh, hpc, -⟩ := (active_iff s).1 ha
    have hwait : s.awaitInput.status = .waiting := (waiting_iff _).2 ⟨hf, hh, hpc, rfl⟩
    exact ⟨_, (step_of_decode ha hdecode).trans (exec_syscall_waits hs hin), hwait, rfl, step_of_waiting hwait⟩

/-! ### Reachable states (R127, R128) -/

theorem Reachable.invariant {s : State} (h : Reachable s) : RunInvariant s := by
  induction h with
  | load hload => exact load_meets_invariant hload
  | step _ hstep ih => exact stepKeepsTheInvariant _ _ ih hstep
  | input a _ ih => exact ih.deliverInput a

/-- An ended run answers its exit code (R37). -/
theorem exitCode_of_done {s : State} {c : Byte} (h : s.status = .done c) : s.exitCode = c := by
  unfold State.status at h
  split at h
  · cases h
  · split at h
    · exact Status.done.inj h
    · split at h <;> cases h

/-- Settles O56: the invariant of every reachable state, whose exit code is 0 until the run halts. -/
theorem reachableStatesMeetTheInvariant : Obligations.ReachableStatesMeetTheInvariant :=
  fun _ h => ⟨h.invariant, fun _ hdone hh => (exitCode_of_done hdone).symm.trans (h.invariant.exitCodeZero hh)⟩

end Sys2Proof.Machine

/-! PROOF. SYSCALL selector by selector (R142 to R148): what each does with its port's answer, and what raises. -/

namespace Sys2Proof.Machine

/-! ### The argument of selectors 1 and 3 -/

/-- R144, R147: with nothing below the selector the pop of the argument raises, before any transaction. -/
theorem operation_syscall_no_argument {s : State} {sel : Byte} (hs : s.stack = [sel]) (hsel : sel = 1 ∨ sel = 3) :
    operation .syscall s.latch = .raised .stackUnderflow none (s.latch.setStack []) := by
  rcases hsel with rfl | rfl <;> exact opSyscall_cons (s := s.latch) hs

/-! ### Selector 0, the read (R142, R143) -/

theorem portIn_cons {s : State} {a : InAnswer} {more : List InAnswer} (h : s.inputs = a :: more) :
    portIn s = .ok a (s.recordInput a) := by
  simp [portIn, h]

theorem operation_syscall_read {s : State} {rest : List Byte} (hs : s.stack = 0 :: rest) :
    operation .syscall s.latch = sysRead (s.latch.setStack rest) :=
  opSyscall_cons (s := s.latch) hs

/-- A byte, or 0 for Eof, takes the selector's place, so R25's bound leaves room for it. -/
theorem exec_syscall_read {s : State} {rest : List Byte} {a : InAnswer} {more : List InAnswer} {v : Byte}
    (hs : s.stack = 0 :: rest) (hlen : s.stack.length ≤ stackMax) (hin : s.inputs = a :: more)
    (ha : a = .byte v ∨ (a = .eof ∧ v = 0)) :
    exec .syscall s = .next
      { s.completed (s.pc + 1) with stack := v :: rest, inputs := more, trace := s.trace ++ [.input a] } := by
  have hrest : rest.length < 256 := by rw [hs] at hlen; exact hlen
  have h : operation .syscall s.latch = .ok () (((s.latch.setStack rest).recordInput a).setStack (v :: rest)) := by
    rw [operation_syscall_read hs, sysRead, portIn_cons (s := s.latch.setStack rest) hin]
    rcases ha with rfl | ⟨rfl, rfl⟩ <;> exact push_of_lt hrest _
  rw [exec_of_ok h, ← show s.inputs.tail = more by rw [hin]; rfl]
  rfl

theorem syscall_read_raises {s : State} {rest : List Byte} {more : List InAnswer} (hs : s.stack = 0 :: rest)
    (hin : s.inputs = .ioError :: more) : Raises .syscall s .syscallIo none := by
  refine raises_of_operation (u := (s.latch.setStack rest).recordInput .ioError) ?_
  rw [operation_syscall_read hs, sysRead, portIn_cons (s := s.latch.setStack rest) hin]
  rfl

/-- Settles O34: by the three answers of the input port. -/
theorem syscallReadPushesTheInput : Obligations.SyscallReadPushesTheInput := fun _ _ hs hlen =>
  ⟨fun _ _ hin => exec_syscall_read hs hlen hin (.inl rfl),
    fun _ hin => exec_syscall_read hs hlen hin (.inr ⟨rfl, rfl⟩),
    fun _ hin => syscall_read_raises hs hin⟩

/-- A cycle does not see the latches an earlier one left, nor that the block waited. -/
theorem exec_awaitInput (i : Instr) (s : State) : exec i s.awaitInput = exec i s := by
  rw [exec_eq_finish, exec_eq_finish, show s.awaitInput.latch = s.latch from rfl]
  cases operation i s.latch <;> rfl

/-- Settles O35: the wait is `awaitInput`, whose status is WAITING; the answer runs the cycle again, which does not see
that the block waited. -/
theorem syscallReadWaitsForAnAnswer : Obligations.SyscallReadWaitsForAnAnswer := by
  intro s rest hs hin
  have hwaits := exec_syscall_waits hs hin
  refine ⟨hwaits, fun t ht ha => ?_⟩
  obtain rfl : s.awaitInput = t := by simpa [hwaits] using ht
  obtain ⟨hfault, hhalted, hpc, -⟩ := (active_iff s).1 ha
  have hstatus : s.awaitInput.status = .waiting := (waiting_iff _).2 ⟨hfault, hhalted, hpc, rfl⟩
  exact ⟨hstatus, step_of_waiting hstatus, fun a =>
    (exec_awaitInput .syscall (s.queueInput a)).symm.trans (exec_syscall_of_waiting hstatus a)⟩

/-! ### Selectors 1 and 2, the write and the dump (R144, R145) -/

theorem operation_syscall_write {s : State} {b : Byte} {rest : List Byte} (hs : s.stack = 1 :: b :: rest) :
    operation .syscall s.latch = checkPort s.outAnswer ((s.latch.setStack rest).recordOutput b) :=
  opSyscall_cons (s := s.latch) hs

theorem operation_syscall_dump {s : State} {rest : List Byte} (hs : s.stack = 2 :: rest) :
    operation .syscall s.latch = checkPort s.dumpAnswer (s.latch.setStack rest).recordDump :=
  opSyscall_cons (s := s.latch) hs

/-- Settles O36: by the answer of the output port, and the stack without an argument. -/
theorem syscallWriteSendsTheByte : Obligations.SyscallWriteSendsTheByte := by
  refine fun s => ⟨fun b rest hs hok => ?_, fun b rest hs hio => ?_, fun hs => ?_⟩
  · have h := operation_syscall_write hs
    rw [hok] at h
    rw [exec_of_ok h, ← hok]
    rfl
  · have h := operation_syscall_write hs
    rw [hio] at h
    exact ⟨_, _, exec_of_raised h, rfl, by rw [← hio]; rfl⟩
  · exact ⟨_, _, exec_of_raised (operation_syscall_no_argument hs (.inl rfl)), rfl, rfl⟩

/-- Settles O37: by the answer of the diagnostic sink. -/
theorem syscallDumpSendsTheSnapshot : Obligations.SyscallDumpSendsTheSnapshot := by
  refine fun s rest hs => ⟨fun hok => ?_, fun hio => ?_⟩
  · have h := operation_syscall_dump hs
    rw [hok] at h
    rw [exec_of_ok h, ← hok]
    rfl
  · have h := operation_syscall_dump hs
    rw [hio] at h
    exact raises_of_operation h

/-! ### Selector 3, the exit, and the selectors without a rule (R147, R148) -/

/-- A halted block without a fault has ended its run with its exit code (R37, R128). -/
theorem status_of_halted {s : State} (hf : s.fault = none) (hh : s.halted = true) : s.status = .done s.exitCode := by
  simp only [State.status, hf, hh, true_or, if_true]

/-- Settles O38: the state of the exit in full, whose status is DONE. -/
theorem syscallExitHaltsWithTheByte : Obligations.SyscallExitHaltsWithTheByte := by
  refine fun s => ⟨fun b rest hs => exec_syscall_exit hs, fun b rest t hs hf ht => ?_, fun hs =>
    raises_of_operation (operation_syscall_no_argument hs (.inr rfl))⟩
  rw [exec_syscall_exit hs] at ht
  cases ht
  have hdone : State.status { s.completed (s.pc + 1) with stack := rest, halted := true, exitCode := b } = .done b :=
    status_of_halted hf rfl
  exact ⟨hdone, (endedRunTakesNoStep _).1 b hdone⟩

theorem operation_syscall_unexpected {s : State} {sel : Byte} {rest : List Byte} (hs : s.stack = sel :: rest)
    (h4 : 4 ≤ sel.toNat) :
    operation .syscall s.latch = .raised .unexpectedSyscall (some sel) (s.latch.setStack rest) := by
  have hv : ¬ sysValid (sysTab sel) = true := by rw [sysValid_iff]; omega
  simp only [operation, opSyscall, pop_cons (s := s.latch) hs, Result.bind_ok, if_neg hv, raise_eq]

/-- Settles O39: an entry that is not valid in the dispatch table, and the pop of the selector. -/
theorem otherSelectorsAreUnexpected : Obligations.OtherSelectorsAreUnexpected := fun s =>
  ⟨fun _ _ hs h4 => ⟨_, _, exec_of_raised (operation_syscall_unexpected hs h4), rfl, rfl⟩,
    fun hs => raises_of_operation (opSyscall_nil (s := s.latch) hs)⟩

end Sys2Proof.Machine

/-! PROOF. Under the launch premises no port fails and none keeps the block waiting (R149). -/

namespace Sys2Proof.Machine

/-! ### A fault of a port comes from the port's answer -/

/-- R142, R144, R145: a SYSCALL raises SyscallIo only where the port of its selector answers IoError. -/
theorem portFails_of_syscallIo {s t : State} {r : FaultRecord} (h : exec .syscall s = .next t)
    (hs : s.fault = none) (hr : t.fault = some r) (hk : r.kind = .syscallIo) :
    ∃ sel rest, s.stack = sel :: rest ∧ portFails sel s = true := by
  have hnone : s.fault ≠ some r := by simp [hs]
  have hother {k : FaultKind} {info : Option Byte} {p : Nat} (hne : k ≠ .syscallIo) :
      some { kind := k, info := info, pc := p } ≠ some r := by
    rintro ⟨⟩; exact hne hk
  rcases exec_syscall_cases h with ⟨-, rfl⟩ | ⟨_, -, -, rfl⟩ | ⟨_, _, _, _, -, -, -, -, rfl⟩ |
    ⟨_, _, _, -, -, -, -, rfl⟩ | ⟨rest, more, hread, hin, -⟩ | ⟨-, rfl⟩ | ⟨_, _, -, -, rfl⟩ |
    ⟨b, rest, hwrite, hout, -⟩ | ⟨_, -, -, rfl⟩ | ⟨rest, hdump, hsink, -⟩ | ⟨-, rfl⟩ | ⟨_, _, -, rfl⟩ |
    ⟨_, _, -, -, rfl⟩
  · exact absurd hr (hother (by decide))
  · exact absurd hr hnone
  · exact absurd hr hnone
  · exact absurd hr (hother (by decide))
  · exact ⟨0, rest, hread, by simp [portFails, hin]⟩
  · exact absurd hr (hother (by decide))
  · exact absurd hr hnone
  · exact ⟨1, b :: rest, hwrite, by simp [portFails, hout]⟩
  · exact absurd hr hnone
  · exact ⟨2, rest, hdump, by simp [portFails, hsink]⟩
  · exact absurd hr (hother (by decide))
  · exact absurd hr hnone
  · exact absurd hr (hother (by decide))

/-- Outside SYSCALL no fault is a port's. -/
theorem exec_fault_kind {i : Instr} {s t : State} {r : FaultRecord} (hi : i ≠ .syscall) (h : exec i s = .next t)
    (hs : s.fault = none) (hr : t.fault = some r) : r.kind ≠ .syscallIo := by
  obtain ⟨u, -, rfl, hu⟩ | ⟨_, _, _, -, ⟨hkind, -⟩, rfl⟩ := exec_cases hi h
  · simp only [Prod.mk.injEq] at hu
    obtain ⟨-, -, -, -, -, -, -, hfault, -⟩ := hu
    exact absurd (hfault.symm.trans hr) (by simp [hs])
  · cases hr
    exact hkind

/-! ### The answers the premises list -/

/-- A port that answers Ok `n + 1` times answers Ok the next time. -/
theorem exists_cons_of_answers_ok {l : List PortAnswer} {n : Nat} (hok : ∀ a ∈ l, a = PortAnswer.ok)
    (hn : n + 1 ≤ l.length) : ∃ more, l = .ok :: more := by
  obtain ⟨a, more, rfl⟩ := List.exists_cons_of_length_pos (Nat.lt_of_lt_of_le n.succ_pos hn)
  exact ⟨more, by rw [hok a List.mem_cons_self]⟩

/-- After one answer at most it still answers Ok `n` times. -/
theorem answers_ok_of_tail {l l' : List PortAnswer} {n : Nat} (hok : ∀ a ∈ l, a = PortAnswer.ok)
    (hn : n + 1 ≤ l.length) (h : l' = l ∨ l' = l.tail) : (∀ a ∈ l', a = PortAnswer.ok) ∧ n ≤ l'.length := by
  rcases h with rfl | rfl
  · exact ⟨hok, Nat.le_of_succ_le hn⟩
  · exact ⟨fun a ha => hok a (List.mem_of_mem_tail ha), by rw [List.length_tail]; omega⟩

/-- The answers that give an input and then Eof begin with its first byte, or with Eof where it is empty. -/
theorem input_answers_cons {input : List Byte} {k : Nat} {a : InAnswer} {more : List InAnswer}
    (h : input.map InAnswer.byte ++ List.replicate k InAnswer.eof = a :: more) :
    a ≠ .ioError ∧ ∃ input', (input' = input ∨ ∃ b, input = b :: input') ∧
      ∃ k', more = input'.map InAnswer.byte ++ List.replicate k' InAnswer.eof := by
  cases input with
  | cons b input' =>
    obtain ⟨rfl, rfl⟩ := List.cons.inj h
    exact ⟨nofun, input', .inr ⟨b, rfl⟩, k, rfl⟩
  | nil =>
    cases k with
    | zero => cases h
    | succ k' =>
      obtain ⟨rfl, rfl⟩ := List.cons.inj h
      exact ⟨nofun, [], .inl rfl, k', rfl⟩

/-! ### What the premises give, and what is left of them -/

section
variable {input : List Byte} {n : Nat} {s t : State} (h : LaunchPremises input (n + 1) s)
include h

/-- The premises leave no port an answer IoError. -/
theorem LaunchPremises.portFails_eq_false (sel : Byte) : portFails sel s = false := by
  unfold portFails
  split
  · obtain ⟨k, hin⟩ := h.inputs
    cases e : s.inputs with
    | nil => rfl
    | cons a more => simpa using (input_answers_cons (hin.symm.trans e)).1
  · obtain ⟨more, e⟩ := exists_cons_of_answers_ok h.outAnswers h.enoughOutAnswers
    simp [State.outAnswer, e]
  · obtain ⟨more, e⟩ := exists_cons_of_answers_ok h.dumpAnswers h.enoughDumpAnswers
    simp [State.dumpAnswer, e]
  · rfl

/-- Under the premises SYSCALL finds an answer and does not wait. -/
theorem LaunchPremises.syscall_waiting (ht : SyscallEnd s t) : t.waiting = false := by
  cases ht with
  | waits _ hin => exact absurd h.enoughInputs (by simp [hin])
  | faults _ e => rw [e]
  | completes _ _ _ _ e => rw [e]; rfl

/-- The premises for one transaction fewer, where each port has given one answer at most and the answers left to
`In()` are those of `input'`. -/
theorem LaunchPremises.of_ports {input' : List Byte}
    (hin : ∃ k, t.inputs = input'.map InAnswer.byte ++ List.replicate k InAnswer.eof)
    (hlen : s.inputs.length ≤ t.inputs.length + 1)
    (hout : t.outAnswers = s.outAnswers ∨ t.outAnswers = s.outAnswers.tail)
    (hdump : t.dumpAnswers = s.dumpAnswers ∨ t.dumpAnswers = s.dumpAnswers.tail) : LaunchPremises input' n t := by
  obtain ⟨houtOk, houtLen⟩ := answers_ok_of_tail h.outAnswers h.enoughOutAnswers hout
  obtain ⟨hdumpOk, hdumpLen⟩ := answers_ok_of_tail h.dumpAnswers h.enoughDumpAnswers hdump
  exact ⟨hin, Nat.le_of_succ_le_succ (Nat.le_trans h.enoughInputs hlen), houtOk, houtLen, hdumpOk, hdumpLen⟩

/-- The same where no answer to `In()` has been taken. -/
theorem LaunchPremises.of_inputs_eq (hin : t.inputs = s.inputs)
    (hout : t.outAnswers = s.outAnswers ∨ t.outAnswers = s.outAnswers.tail)
    (hdump : t.dumpAnswers = s.dumpAnswers ∨ t.dumpAnswers = s.dumpAnswers.tail) : LaunchPremises input n t :=
  h.of_ports (hin ▸ h.inputs) (by rw [hin]; exact Nat.le_succ _) hout hdump

/-- The one transaction of a SYSCALL uses up one answer of one port. -/
theorem LaunchPremises.transaction (ht : Transaction s t) :
    ∃ input', (input' = input ∨ ∃ b, input = b :: input') ∧ LaunchPremises input' n t := by
  cases ht with
  | none _ _ hin hout hdump => exact ⟨input, .inl rfl, h.of_inputs_eq hin (.inl hout) (.inl hdump)⟩
  | input _ hin _ hout hdump =>
    obtain ⟨k, hs⟩ := h.inputs
    obtain ⟨-, input', hrest, hmore⟩ := input_answers_cons (hs.symm.trans hin)
    exact ⟨input', hrest, h.of_ports hmore (by simp [hin]) (.inl hout) (.inl hdump)⟩
  | output _ _ hin hout hdump => exact ⟨input, .inl rfl, h.of_inputs_eq hin (.inr hout) (.inl hdump)⟩
  | dump _ _ hin hout hdump => exact ⟨input, .inl rfl, h.of_inputs_eq hin (.inl hout) (.inr hdump)⟩

end

/-- Settles O57: by the kinds of a step. SYSCALL finds its port's answer, and it is not IoError; every other step leaves
the ports alone. -/
theorem launchPremisesRuleOutPortFaults : Obligations.LaunchPremisesRuleOutPortFaults := by
  intro input n s t h hstep
  have hs := fault_none_of_step hstep
  obtain ⟨-, ⟨i, more, -, hex⟩ | ⟨b, rest, -, -, rfl⟩⟩ := step_cases hstep
  · by_cases hi : i = .syscall
    · subst hi
      refine ⟨h.syscall_waiting (exec_syscall_end hex), fun r hr hk => ?_,
        h.transaction (exec_syscall_transaction hex)⟩
      obtain ⟨sel, -, -, hfails⟩ := portFails_of_syscallIo hex hs hr hk
      exact absurd hfails (by simp [h.portFails_eq_false sel])
    · obtain ⟨-, -, hwait, ⟨-, -, hin, hout, hdump, -⟩, -⟩ := exec_frame hi hex
      exact ⟨hwait, fun r hr => exec_fault_kind hi hex hs hr, input, .inl rfl,
        h.of_inputs_eq hin (.inl hout) (.inl hdump)⟩
  · exact ⟨rfl, by rintro _ ⟨⟩; exact nofun, input, .inl rfl, h.of_inputs_eq rfl (.inl rfl) (.inl rfl)⟩

end Sys2Proof.Machine

/-! PROOF. The stack operations PUSH, POP, DUP and SWAP (R160 to R163). DUP and SWAP end in the same two pushes. -/

namespace Sys2Proof.Machine

/-! ### The shared parts -/

/-- An instruction whose operation has a fixed byte is encoded as that byte and its immediate, under every assignment of
the two families. -/
theorem encode_of_fixedCode {b : Byte} {o : Op} (h : (b, o) ∈ fixedCodes) {i : Instr} (hi : i.op = o) (c : Config) :
    encode c i = b :: i.immediate.toList := by
  rw [encode, hi, (fixedCodes_agree c _ h).2]

/-- What follows a pop is not reached on an empty stack. -/
theorem pop_bind_of_nil {α : Type} {s : State} (hs : s.stack = []) (f : Byte → State → Result α) :
    (pop s).bind f = .raised .stackUnderflow none s := by
  rw [pop_nil hs, Result.bind_raised]

theorem pop_bind_of_cons {α : Type} {s : State} {v : Byte} {rest : List Byte} (hs : s.stack = v :: rest)
    (f : Byte → State → Result α) : (pop s).bind f = f v (s.setStack rest) := by
  rw [pop_cons hs, Result.bind_ok]

theorem push_push_of_lt {s : State} (h : s.stack.length + 1 < 256) (a b : Byte) :
    ((push a s).bind fun _ u => push b u) = .ok () (s.setStack (b :: a :: s.stack)) := by
  rw [push_of_lt (Nat.lt_of_succ_lt h), Result.bind_ok, push_of_lt (s := s.setStack (a :: s.stack)) h]
  rfl

/-- Room for fewer than two entries: the second push raises, or already the first. -/
theorem push_push_of_ge {s : State} (h : 256 ≤ s.stack.length + 1) (a b : Byte) :
    ∃ u, ((push a s).bind fun _ u => push b u) = .raised .stackOverflow none u := by
  by_cases hlt : s.stack.length < 256
  · refine ⟨s.setStack (a :: s.stack), ?_⟩
    rw [push_of_lt hlt, Result.bind_ok, push_of_ge (s := s.setStack (a :: s.stack)) h]
  · exact ⟨s, by rw [push_of_ge (Nat.le_of_not_lt hlt), Result.bind_raised]⟩

/-! ### PUSH (R160) -/

theorem exec_push {s : State} (h : s.stack.length < 256) (v : Byte) :
    exec (.push (some v)) s = .next { s.completed (s.pc + 2) with stack := v :: s.stack } := by
  have hop : operation (.push (some v)) s.latch = .ok () ((s.latch.setPc (s.pc + 1)).setStack (v :: s.stack)) :=
    push_of_lt (s := s.latch.setPc (s.pc + 1)) h v
  exact exec_of_ok hop

theorem push_raises_of_full {s : State} (h : 256 ≤ s.stack.length) (v : Byte) :
    Raises (.push (some v)) s .stackOverflow none :=
  raises_of_operation (push_of_ge (s := s.latch.setPc (s.pc + 1)) h v)

/-- D9: the immediate is read before the push is tried, so its absence is raised whatever the depth. -/
theorem push_raises_of_no_immediate (s : State) : Raises (.push none) s .streamExhausted none := by
  refine raises_of_operation (u := s.latch.setPc (s.pc + 1)) ?_
  simp only [operation, opPush, imm_none, Result.bind_raised, State.latch_pc]

/-- Settles O14: the immediate is there and fits, or does not fit, or is absent. -/
theorem pushPutsTheImmediateOnTop : Obligations.PushPutsTheImmediateOnTop := fun s =>
  ⟨fun v hlt => exec_push hlt v, fun v hfull => push_raises_of_full hfull v, push_raises_of_no_immediate s,
    fun c _ => encode_of_fixedCode (o := .push) (by decide) rfl c⟩

/-! ### POP (R161) -/

theorem exec_pop {s : State} {v : Byte} {rest : List Byte} (hs : s.stack = v :: rest) :
    exec .pop s = .next { s.completed (s.pc + 1) with stack := rest } := by
  have hop : operation .pop s.latch = .ok () (s.latch.setStack rest) := pop_bind_of_cons (s := s.latch) hs _
  exact exec_of_ok hop

/-- Settles O15: by the stack, empty or not. -/
theorem popDiscardsTheTop : Obligations.PopDiscardsTheTop := fun s =>
  ⟨fun _ _ hs => exec_pop hs, fun hs => raises_of_operation (pop_bind_of_nil (s := s.latch) hs _),
    fun c => encode_of_fixedCode (o := .pop) (by decide) rfl c⟩

/-! ### DUP (R162) -/

theorem operation_dup {s : State} {a : Byte} {rest : List Byte} (hs : s.stack = a :: rest) :
    operation .dup s.latch = (push a (s.latch.setStack rest)).bind fun _ u => push a u :=
  pop_bind_of_cons (s := s.latch) hs _

theorem exec_dup {s : State} {a : Byte} {rest : List Byte} (hs : s.stack = a :: rest) (hlen : s.stack.length < 256) :
    exec .dup s = .next { s.completed (s.pc + 1) with stack := a :: a :: rest } := by
  have hroom : rest.length + 1 < 256 := by rwa [hs, List.length_cons] at hlen
  exact exec_of_ok ((operation_dup hs).trans (push_push_of_lt (s := s.latch.setStack rest) hroom a a))

/-- The pop makes room for one of the two copies only. -/
theorem dup_raises_of_full {s : State} (hfull : 256 ≤ s.stack.length) : Raises .dup s .stackOverflow none := by
  cases hs : s.stack with
  | nil =>
    rw [hs, List.length_nil] at hfull
    exact absurd hfull (by decide)
  | cons a rest =>
    have hroom : 256 ≤ rest.length + 1 := by rwa [hs, List.length_cons] at hfull
    obtain ⟨u, hu⟩ := push_push_of_ge (s := s.latch.setStack rest) hroom a a
    exact raises_of_operation ((operation_dup hs).trans hu)

/-- Settles O16: by the depth of the stack. -/
theorem dupDoublesTheTop : Obligations.DupDoublesTheTop := fun s =>
  ⟨fun _ _ hs hlen => exec_dup hs hlen, fun hs => raises_of_operation (pop_bind_of_nil (s := s.latch) hs _),
    fun hfull => dup_raises_of_full hfull, fun c => encode_of_fixedCode (o := .dup) (by decide) rfl c⟩

/-! ### SWAP (R163) -/

/-- Two pops precede the two pushes, so R25's bound leaves room for both. -/
theorem exec_swap {s : State} {a b : Byte} {rest : List Byte} (hs : s.stack = a :: b :: rest)
    (hlen : s.stack.length ≤ 256) :
    exec .swap s = .next { s.completed (s.pc + 1) with stack := b :: a :: rest } := by
  have hroom : rest.length + 1 < 256 := by
    rw [hs, List.length_cons, List.length_cons] at hlen
    exact Nat.lt_of_succ_le hlen
  have hop : operation .swap s.latch = .ok () (s.latch.setStack (b :: a :: rest)) := calc
    operation .swap s.latch
    _ = (pop (s.latch.setStack (b :: rest))).bind fun b u => (push a u).bind fun _ u => push b u :=
      pop_bind_of_cons (s := s.latch) hs _
    _ = (push a (s.latch.setStack rest)).bind fun _ u => push b u := pop_bind_of_cons (State.setStack_stack _ _) _
    _ = .ok () (s.latch.setStack (b :: a :: rest)) := push_push_of_lt (s := s.latch.setStack rest) hroom a b
  exact exec_of_ok hop

/-- One entry is enough for the first pop only. -/
theorem swap_raises_of_lt_two {s : State} (hlen : s.stack.length < 2) : Raises .swap s .stackUnderflow none := by
  rcases hs : s.stack with _ | ⟨a, _ | ⟨b, rest⟩⟩
  · exact raises_of_operation (pop_bind_of_nil (s := s.latch) hs _)
  · exact raises_of_operation ((pop_bind_of_cons (s := s.latch) hs _).trans
      (pop_bind_of_nil (State.setStack_stack _ _) _))
  · rw [hs, List.length_cons, List.length_cons] at hlen
    exact absurd hlen (Nat.not_lt.2 (Nat.le_add_left 2 rest.length))

/-- Settles O17: by the number of entries, two at least or fewer. -/
theorem swapExchangesTheTopTwo : Obligations.SwapExchangesTheTopTwo := fun _ hbound =>
  ⟨fun _ _ _ hs => exec_swap hs hbound, fun hlen => swap_raises_of_lt_two hlen,
    fun c => encode_of_fixedCode (o := .swap) (by decide) rfl c⟩

end Sys2Proof.Machine

/-! PROOF. The arithmetic family (R170 to R181). The two-operand and the immediate form of an operation apply one
function to their operands, so each function's law is proved once and serves both. -/

namespace Sys2Proof.Machine

/-! ### The narrowing (R11, R170) -/

theorem toNat_sat8 (n : Int) : (sat8 n).toNat = (min (max n 0) 255).toNat := by
  rw [sat8, BitVec.toNat_ofNat]
  omega

theorem toNat_sat8_natCast (n : Nat) : (sat8 n).toNat = min n 255 := by
  rw [toNat_sat8]
  omega

/-! ### What each function computes (R170) -/

/-- `f` answers the byte of value `n` for the operands `a` and `b`, in the state it was asked in. -/
def Computes (f : Byte → Byte → State → Result Byte) (a b : Byte) (n : Nat) : Prop :=
  ∃ r : Byte, r.toNat = n ∧ ∀ u, f a b u = .ok r u

theorem addSat_computes (a b : Byte) : Computes addSat a b (min (a.toNat + b.toNat) 255) :=
  ⟨_, toNat_sat8_natCast (a.toNat + b.toNat), fun _ => rfl⟩

theorem subSat_computes (a b : Byte) : Computes subSat a b (max ((a.toNat : Int) - b.toNat) 0).toNat := by
  refine ⟨_, ?_, fun _ => rfl⟩
  rw [toNat_sat8]
  omega

theorem mulSat_computes (a b : Byte) : Computes mulSat a b (min (a.toNat * b.toNat) 255) := by
  refine ⟨_, ?_, fun _ => rfl⟩
  rw [← Int.natCast_mul, toNat_sat8_natCast]

/-- The quotient is at most the dividend, so the saturation never acts. -/
theorem divSat_computes (a : Byte) {b : Byte} (hb : b ≠ 0) : Computes divSat a b (a.toNat / b.toNat) := by
  refine ⟨_, ?_, fun _ => if_neg hb⟩
  have hle : a.toNat / b.toNat ≤ a.toNat := Nat.div_le_self _ _
  rw [← Int.natCast_ediv, toNat_sat8_natCast]
  omega

theorem modTrunc_computes (a : Byte) {b : Byte} (hb : b ≠ 0) : Computes modTrunc a b (a.toNat % b.toNat) := by
  refine ⟨_, ?_, fun _ => if_neg hb⟩
  have hle : a.toNat % b.toNat ≤ a.toNat := Nat.mod_le _ _
  rw [← Int.natCast_emod, toNat_sat8_natCast]
  omega

/-! ### Zero as the right operand (R170, R171) -/

theorem addSat_computes_zero (a : Byte) : Computes addSat a 0 a.toNat := by
  have hsat : min (a.toNat + (0 : Byte).toNat) 255 = a.toNat := Nat.min_eq_left (Nat.le_of_lt_succ a.isLt)
  exact hsat ▸ addSat_computes a 0

theorem subSat_computes_zero (a : Byte) : Computes subSat a 0 a.toNat := by
  have hsat : (max ((a.toNat : Int) - (0 : Byte).toNat) 0).toNat = a.toNat := by simp
  exact hsat ▸ subSat_computes a 0

theorem mulSat_computes_zero (a : Byte) : Computes mulSat a 0 0 := mulSat_computes a 0

theorem divSat_zero (a : Byte) (u : State) : divSat a 0 u = .raised .divisionByZero none u := if_pos rfl

theorem modTrunc_zero_of_fault {u : State} (h : u.cfg.modZero = .fault) (a : Byte) :
    modTrunc a 0 u = .raised .divisionByZero none u := by
  rw [modTrunc, if_pos rfl, h]
  rfl

theorem modTrunc_zero_of_result {u : State} (h : u.cfg.modZero = .result) (a : Byte) :
    modTrunc a 0 u = .ok (Config.modZeroResult a) u := by
  rw [modTrunc, if_pos rfl, h]

/-! ### The two operand forms (R76, R177) -/

/-- `s` in a cycle that has obtained its operands: `rest` is left on the stack and `n` immediate bytes are read. -/
def State.operandsTaken (s : State) (n : Nat) (rest : List Byte) : State :=
  (s.latch.setPc (s.pc + n)).setStack rest

/-- Instruction `i`, begun in `s`, obtains `a` and `b` and then pushes what `f` answers for them. -/
def Applies (i : Instr) (s : State) (f : Byte → Byte → State → Result Byte) (a b : Byte) (n : Nat)
    (rest : List Byte) : Prop :=
  operation i s.latch = (f a b (s.operandsTaken n rest)).bind push

section
variable {i : Instr} {s : State} {f : Byte → Byte → State → Result Byte} {a b : Byte} {n : Nat} {rest : List Byte}

theorem applies_of_binary (hi : operation i = binary f) (hs : s.stack = b :: a :: rest) :
    Applies i s f a b 0 rest := calc
  operation i s.latch
  _ = binary f s.latch := by rw [hi]
  _ = (pop (s.latch.setStack (a :: rest))).bind fun a u => (f a b u).bind push :=
    pop_bind_of_cons (s := s.latch) hs _
  _ = (f a b (s.operandsTaken 0 rest)).bind push := pop_bind_of_cons (State.setStack_stack _ _) _

/-- D9: the immediate is read where the two-operand form pops its right operand. -/
theorem applies_of_binaryImm (hi : operation i = binaryImm f (some b)) (hs : s.stack = a :: rest) :
    Applies i s f a b 1 rest := calc
  operation i s.latch
  _ = binaryImm f (some b) s.latch := by rw [hi]
  _ = (f a b (s.operandsTaken 1 rest)).bind push := pop_bind_of_cons (s := s.latch.setPc (s.pc + 1)) hs _

theorem Applies.exec_eq {r : Byte} (h : Applies i s f a b n rest) (hroom : rest.length < 256)
    (hf : f a b (s.operandsTaken n rest) = .ok r (s.operandsTaken n rest)) :
    exec i s = .next { s.completed (s.pc + n + 1) with stack := r :: rest } := by
  rw [Applies, hf, Result.bind_ok, push_of_lt (s := s.operandsTaken n rest) hroom] at h
  exact exec_of_ok h

theorem Applies.pushes {m : Nat} (h : Applies i s f a b n rest) (hroom : rest.length < 256)
    (hf : Computes f a b m) : Pushes i s (s.pc + n + 1) rest m := by
  obtain ⟨r, hr, hok⟩ := hf
  exact ⟨r, hr, h.exec_eq hroom (hok _)⟩

theorem Applies.raises {k : FaultKind} {info : Option Byte} (h : Applies i s f a b n rest)
    (hf : f a b (s.operandsTaken n rest) = .raised k info (s.operandsTaken n rest)) : Raises i s k info := by
  rw [Applies, hf, Result.bind_raised] at h
  exact raises_of_operation h

theorem Applies.div_raises (h : Applies i s divSat a 0 n rest) : Raises i s .divisionByZero none :=
  h.raises (divSat_zero a _)

theorem Applies.mod_raises (h : Applies i s modTrunc a 0 n rest) (hp : s.cfg.modZero = .fault) :
    Raises i s .divisionByZero none :=
  h.raises (modTrunc_zero_of_fault (u := s.operandsTaken n rest) hp a)

theorem Applies.mod_follows_policy (h : Applies i s modTrunc a 0 n rest) (hroom : rest.length < 256)
    (hp : s.cfg.modZero = .result) :
    exec i s = .next { s.completed (s.pc + n + 1) with stack := Config.modZeroResult a :: rest } :=
  h.exec_eq hroom (modTrunc_zero_of_result (u := s.operandsTaken n rest) hp a)

/-- R25's bound leaves room for the result where an operand was on the stack. -/
theorem room_of_operand {top : List Byte} (hs : s.stack = a :: (top ++ rest)) (hlen : s.stack.length ≤ 256) :
    rest.length < 256 := by
  rw [hs, List.length_cons, List.length_append] at hlen
  omega

end

/-! ### The three statements -/

/-- Settles O18: each operation is its function applied to the two popped operands. -/
theorem arithmeticSaturates : Obligations.ArithmeticSaturates := by
  intro s a b rest hs hlen
  have hroom : rest.length < 256 := room_of_operand (top := [a]) hs hlen
  refine ⟨(applies_of_binary rfl hs).pushes hroom (addSat_computes a b),
    (applies_of_binary rfl hs).pushes hroom (subSat_computes a b),
    (applies_of_binary rfl hs).pushes hroom (mulSat_computes a b),
    fun hb => (applies_of_binary rfl hs).pushes hroom (divSat_computes a hb),
    fun hb => (applies_of_binary rfl hs).pushes hroom (modTrunc_computes a hb), ?_⟩
  rintro rfl
  exact ⟨(applies_of_binary rfl hs).pushes hroom (addSat_computes_zero a),
    (applies_of_binary rfl hs).pushes hroom (subSat_computes_zero a),
    (applies_of_binary rfl hs).pushes hroom (mulSat_computes_zero a),
    (applies_of_binary rfl hs).div_raises⟩

/-- Settles O19: the zero test comes after both operands are obtained (D10), so it is the functions' own answer. -/
theorem zeroDivisorsFaultOrFollowThePolicy : Obligations.ZeroDivisorsFaultOrFollowThePolicy := by
  intro s a rest hlen
  constructor
  · intro hs
    have hmod : Applies .mod s modTrunc a 0 0 rest := applies_of_binary rfl hs
    exact ⟨(applies_of_binary rfl hs).div_raises, hmod.mod_raises,
      hmod.mod_follows_policy (room_of_operand (top := [a]) hs hlen)⟩
  · intro hs
    have hmodi : Applies (.modi (some 0)) s modTrunc a 0 1 rest := applies_of_binaryImm rfl hs
    exact ⟨(applies_of_binaryImm rfl hs).div_raises, hmodi.mod_raises,
      hmodi.mod_follows_policy (room_of_operand (top := []) hs hlen)⟩

/-- Settles O20: each immediate form applies the function of its two-operand form. -/
theorem immediateArithmeticUsesTheImmediateAsRightOperand :
    Obligations.ImmediateArithmeticUsesTheImmediateAsRightOperand := by
  intro s a b rest hs hlen
  have hroom : rest.length < 256 := room_of_operand (top := []) hs hlen
  exact ⟨(applies_of_binaryImm rfl hs).pushes hroom (addSat_computes a b),
    (applies_of_binaryImm rfl hs).pushes hroom (subSat_computes a b),
    (applies_of_binaryImm rfl hs).pushes hroom (mulSat_computes a b),
    fun hb => (applies_of_binaryImm rfl hs).pushes hroom (divSat_computes a hb),
    fun hb => (applies_of_binaryImm rfl hs).pushes hroom (modTrunc_computes a hb), rfl, rfl, rfl, rfl, rfl⟩

end Sys2Proof.Machine

/-! PROOF. The comparisons (R190). All six apply one function, which differs in its relation only, so the law and the
underflow are proved once for every relation. -/

namespace Sys2Proof.Machine

/-- R190, for any relation: 0 where it holds of the unsigned values and 1 where it does not. -/
theorem compareBytes_computes (rel : Nat → Nat → Prop) [∀ m n, Decidable (rel m n)] (a b : Byte) :
    Computes (compareBytes fun m n => rel m n) a b (if rel a.toNat b.toNat then 0 else 1) := by
  refine ⟨invertedBool (rel a.toNat b.toNat), ?_, fun _ => rfl⟩
  by_cases h : rel a.toNat b.toNat
  · simp [invertedBool, h]
  · simp [invertedBool, h]

/-- What follows two pops is not reached with fewer than two entries. -/
theorem pop_pop_of_lt_two {α : Type} {s : State} (h : s.stack.length < 2) (f : Byte → Byte → State → Result α) :
    ∃ u, ((pop s).bind fun b u => (pop u).bind (f b)) = .raised .stackUnderflow none u := by
  match hs : s.stack with
  | [] => exact ⟨_, pop_bind_of_nil hs _⟩
  | [_] => exact ⟨_, (pop_bind_of_cons hs _).trans (pop_bind_of_nil (State.setStack_stack _ _) _)⟩
  | _ :: _ :: rest =>
    rw [hs] at h
    exact absurd h (Nat.not_lt.2 (Nat.le_add_left 2 rest.length))

theorem raises_of_binary_of_lt_two {i : Instr} {s : State} {f : Byte → Byte → State → Result Byte}
    (hi : operation i = binary f) (h : s.stack.length < 2) : Raises i s .stackUnderflow none := by
  obtain ⟨u, hu⟩ := pop_pop_of_lt_two (s := s.latch) h fun b a u => (f a b u).bind push
  exact raises_of_operation ((congrFun hi s.latch).trans hu)

theorem operation_of_mem_cmpOps {i : Instr} (h : i.op ∈ Op.cmpOps) :
    ∃ rel, operation i = binary (compareBytes rel) := by
  cases i with
  | eq | neq | lt | le | gt | ge => exact ⟨_, rfl⟩
  | _ => simp [Instr.op, Op.cmpOps] at h

/-- Settles O21: each comparison is the one function with its own relation. -/
theorem comparisonsPushZeroForTrue : Obligations.ComparisonsPushZeroForTrue := by
  refine ⟨fun s a b rest hs hlen => ?_, fun i s hi hlen => ?_, by decide⟩
  · have hroom : rest.length < 256 := room_of_operand (top := [a]) hs hlen
    exact ⟨(applies_of_binary rfl hs).pushes hroom (compareBytes_computes (· = ·) a b),
      (applies_of_binary rfl hs).pushes hroom (compareBytes_computes (· ≠ ·) a b),
      (applies_of_binary rfl hs).pushes hroom (compareBytes_computes (· < ·) a b),
      (applies_of_binary rfl hs).pushes hroom (compareBytes_computes (· ≤ ·) a b),
      (applies_of_binary rfl hs).pushes hroom (compareBytes_computes (· > ·) a b),
      (applies_of_binary rfl hs).pushes hroom (compareBytes_computes (· ≥ ·) a b)⟩
  · obtain ⟨rel, hop⟩ := operation_of_mem_cmpOps hi
    exact raises_of_binary_of_lt_two hop hlen

end Sys2Proof.Machine

/-! PROOF. The jumps JZ and JMZ (R200, R201). The cycle's `exec_jz` and `exec_jmz` give the state after each of them; here
stand the immediate that is absent and the end of the run at the target. -/

namespace Sys2Proof.Machine

/-- R127, D11: a `pc` at or beyond CODE_LEN ends the run. -/
theorem status_of_length_le_pc {s : State} (hf : s.fault = none) (hend : s.code.length ≤ s.pc) :
    s.status = .done s.exitCode := by
  simp only [State.status, hf, if_pos (Or.inr hend)]

/-- R75: without its immediate an operation raises StreamExhausted, except where it pops first and finds nothing. -/
theorem raises_of_no_immediate {o : Op} (hm : o.isImm = true) {s : State}
    (hpop : o = .jz ∨ o = .storei → s.stack ≠ []) : Raises (o.instr none) s .streamExhausted none := by
  obtain ⟨u, hu⟩ := operation_of_no_immediate hm s.latch
  rw [if_neg fun ⟨ho, hs⟩ => hpop ho hs] at hu
  exact raises_of_operation hu

theorem status_of_jz_beyond_code {s t : State} {rest : List Byte} {d : Byte} (hs : s.stack = 0 :: rest)
    (hf : s.fault = none) (h : exec (.jz (some d)) s = .next t) (hend : s.code.length ≤ d.toNat) :
    t.status = .done s.exitCode := by
  rw [exec_jz hs, if_pos rfl] at h
  cases h
  exact status_of_length_le_pc hf hend

theorem status_of_jmz_beyond_code {s t : State} {d : Byte} (hf : s.fault = none) (h : exec (.jmz (some d)) s = .next t)
    (hend : s.code.length ≤ d.toNat) : t.status = .done s.exitCode := by
  rw [exec_jmz] at h
  cases h
  exact status_of_length_le_pc (s := s.completed d.toNat) hf hend

/-- Settles O22: the flag is popped before the immediate is read, so the empty stack decides first. -/
theorem jzJumpsOnZeroOnly : Obligations.JzJumpsOnZeroOnly := fun _ =>
  ⟨fun _ _ d hs => exec_jz hs d, fun v hs => jz_raises_of_nil hs v,
    fun hs => raises_of_no_immediate (o := .jz) rfl fun _ => hs,
    fun _ _ _ hs hf h hend => status_of_jz_beyond_code hs hf h hend,
    fun c _ => encode_of_fixedCode (o := .jz) (by decide) rfl c⟩

/-- Settles O23: JMZ pops nothing, so only its immediate can be missing. -/
theorem jmzJumpsAlways : Obligations.JmzJumpsAlways := fun s =>
  ⟨fun d => exec_jmz d s, raises_of_no_immediate (o := .jmz) rfl (by simp),
    fun _ _ hf h hend => status_of_jmz_beyond_code hf h hend,
    fun c _ => encode_of_fixedCode (o := .jmz) (by decide) rfl c⟩

end Sys2Proof.Machine

/-! PROOF. The memory operations STORE, LOAD, STOREI and LOADI (R210 to R213), and their frames. The states after the forms
that complete stand with the history of the stores above; here stand the forms that raise, and the one cell a store may
change. -/

namespace Sys2Proof.Machine

/-! ### The cell written and every other cell (R28, R60) -/

theorem Memory.read_write_same (m : Memory) (a : Nat) (v : Byte) : (m.write a v).read a = some v := by
  rw [Memory.read_write, if_pos rfl]

theorem Memory.read_write_of_ne {a b : Nat} (h : b ≠ a) (m : Memory) (v : Byte) : (m.write a v).read b = m.read b := by
  rw [Memory.read_write, if_neg h.symm]

/-! ### STORE and LOAD (R210, R211) -/

theorem store_raises_of_lt_two {s : State} (h : s.stack.length < 2) : Raises .store s .stackUnderflow none := by
  obtain ⟨u, hu⟩ := pop_pop_of_lt_two (s := s.latch) h fun v a u => memWrite a v u
  exact raises_of_operation hu

/-- Settles O24: by the number of entries, two at least or fewer. -/
theorem storeWritesTheCell : Obligations.StoreWritesTheCell := fun s =>
  ⟨fun v a _ hs => ⟨s.mem.write (dataAddr a) v, exec_store hs, Memory.read_write_same _ _ _,
      fun _ hb => Memory.read_write_of_ne hb _ _⟩,
    store_raises_of_lt_two, fun c => encode_of_fixedCode (o := .store) (by decide) rfl c⟩

/-- Settles O25: the stack is empty, or the cell of its top entry is written or EMPTY. -/
theorem loadPushesTheCell : Obligations.LoadPushesTheCell := fun s hbound =>
  ⟨fun _ _ _ hs hv => exec_load hs hbound hv, fun _ _ hs hv => load_raises_of_empty hs hv,
    fun hs => raises_of_operation (pop_bind_of_nil (s := s.latch) hs _),
    fun c => encode_of_fixedCode (o := .load) (by decide) rfl c⟩

/-! ### STOREI and LOADI (R212, R213) -/

/-- Settles O26: the value is popped before the immediate is read (D9), so the empty stack decides first. -/
theorem storeiWritesTheImmediateCell : Obligations.StoreiWritesTheImmediateCell := fun s =>
  ⟨fun v _ a hs => ⟨s.mem.write (dataAddr a) v, exec_storei hs, Memory.read_write_same _ _ _,
      fun _ hb => Memory.read_write_of_ne hb _ _⟩,
    fun _ hs => raises_of_operation (pop_bind_of_nil (s := s.latch) hs _),
    fun hs => raises_of_no_immediate (o := .storei) rfl fun _ => hs,
    fun c _ => encode_of_fixedCode (o := .storei) (by decide) rfl c⟩

/-- The cell is read before the push is tried, so only a written cell's byte can overflow the stack. -/
theorem loadi_raises_of_full {s : State} {a v : Byte} (hv : s.mem.read a.toNat = some v)
    (hfull : 256 ≤ s.stack.length) : Raises (.loadi (some a)) s .stackOverflow none := by
  have hop := calc
    operation (.loadi (some a)) s.latch
    _ = (memRead a (s.latch.setPc (s.pc + 1))).bind push := rfl
    _ = push v (s.latch.setPc (s.pc + 1)) := by rw [memRead_some (s := s.latch.setPc (s.pc + 1)) hv, Result.bind_ok]
    _ = .raised .stackOverflow none _ := push_of_ge (s := s.latch.setPc (s.pc + 1)) hfull v
  exact raises_of_operation hop

/-- Settles O27: the immediate, then the cell, then the room on the stack decide. -/
theorem loadiPushesTheImmediateCell : Obligations.LoadiPushesTheImmediateCell := fun s =>
  ⟨fun _ _ hv hlt => exec_loadi hlt hv, raises_of_no_immediate (o := .loadi) rfl nofun,
    fun _ hv => loadi_raises_of_empty hv, fun _ _ hv hfull => loadi_raises_of_full hv hfull,
    fun c _ => encode_of_fixedCode (o := .loadi) (by decide) rfl c⟩

/-! ### Frames (R56, R57) -/

/-- Instruction `i`, begun in `s`, has the operands of a store of `v` to the cell at `a`. -/
def StoresTo (i : Instr) (s : State) (a v : Byte) : Prop :=
  (i = .store ∧ ∃ rest, s.stack = v :: a :: rest) ∨ (i = .storei (some a) ∧ ∃ rest, s.stack = v :: rest)

section
variable {i : Instr} {s t : State} {a v : Byte}

/-- A cycle leaves the memory, or writes the store whose operands its instruction has. -/
theorem exec_mem_eq_or_store (hi : i ≠ .syscall) (h : exec i s = .next t) :
    t.mem = s.mem ∨ ∃ a v, StoresTo i s a v ∧ t.mem = s.mem.write (dataAddr a) v := by
  obtain ⟨u, he, rfl⟩ | ⟨_, _, _, -, -, rfl⟩ := exec_ends hi h
  · rcases he.mem_eq_or_store with hmem | ⟨a, v, hmem, hst⟩
    · exact .inl hmem
    · exact .inr ⟨a, v, hst, hmem⟩
  · exact .inl rfl

/-- The cell at `b` is as it was if no store that the instruction has the operands of is to it. -/
theorem exec_read_of_not_stored (hi : i ≠ .syscall) (h : exec i s = .next t) {b : Nat}
    (hb : ∀ a v, StoresTo i s a v → b ≠ dataAddr a) : t.mem.read b = s.mem.read b := by
  rcases exec_mem_eq_or_store hi h with hmem | ⟨a, v, hst, hmem⟩
  · rw [hmem]
  · rw [hmem, Memory.read_write_of_ne (hb a v hst)]

theorem StoresTo.stack_of_store (h : StoresTo .store s a v) : ∃ rest, s.stack = v :: a :: rest := by
  obtain ⟨-, hs⟩ | ⟨hi, -⟩ := h
  · exact hs
  · cases hi

theorem StoresTo.immediate_of_storei {d : Option Byte} (h : StoresTo (.storei d) s a v) : d = some a := by
  obtain ⟨hi, -⟩ | ⟨hi, -⟩ := h
  · cases hi
  · exact Instr.storei.inj hi

theorem StoresTo.stack_ne_nil (h : StoresTo i s a v) : s.stack ≠ [] := by
  obtain ⟨-, rest, hs⟩ | ⟨-, rest, hs⟩ := h
  · exact hs ▸ List.cons_ne_nil _ _
  · exact hs ▸ List.cons_ne_nil _ _

end

/-- Settles O51: the common frame; and the operands of a store, form by form, for the cell it may change. -/
theorem storesFrame : Obligations.StoresFrame := by
  intro i s t hop h
  have hstore : i.op ∈ [Op.store, Op.storei] := List.mem_cons.2 (hop.imp_right List.mem_singleton.2)
  have hi : i ≠ .syscall := ne_of_op_ne (op_ne_of_mem hstore (by decide))
  obtain ⟨hhalted, hexit⟩ := exec_flags hi h (ne_of_op_ne (op_ne_of_mem hstore (by decide)))
  obtain ⟨hipc, hredirect, hwait, hports, hfault⟩ := exec_frame hi h
  refine ⟨exec_calls hi h (op_ne_of_mem hstore (by decide)) (op_ne_of_mem hstore (by decide)), hhalted, hexit, hipc,
    hredirect, hwait, hports, hfault, ?_, ?_, ?_, ?_⟩
  · rintro v a rest rfl hs b hb
    refine exec_read_of_not_stored hi h fun a' v' hst => ?_
    obtain ⟨rest', hs'⟩ := hst.stack_of_store
    cases hs.symm.trans hs'
    exact hb
  · rintro a rfl b hb
    refine exec_read_of_not_stored hi h fun a' v' hst => ?_
    cases hst.immediate_of_storei
    exact hb
  · rintro rfl hlen b
    refine exec_read_of_not_stored hi h fun a v hst => ?_
    obtain ⟨rest, hs⟩ := hst.stack_of_store
    rw [hs, List.length_cons, List.length_cons] at hlen
    exact absurd hlen (Nat.not_lt.2 (Nat.le_add_left 2 rest.length))
  · intro hnone b
    refine exec_read_of_not_stored hi h fun a v hst => ?_
    obtain rfl | ⟨-, hs⟩ := hnone
    · cases hst.immediate_of_storei
    · exact absurd hs hst.stack_ne_nil

/-- Settles O52: neither LOAD nor LOADI is among the instructions that write a cell, a flag or the call stack. -/
theorem loadsFrame : Obligations.LoadsFrame := by
  intro i s t hop h
  have hload : i.op ∈ [Op.load, Op.loadi] := List.mem_cons.2 (hop.imp_right List.mem_singleton.2)
  have hi : i ≠ .syscall := ne_of_op_ne (op_ne_of_mem hload (by decide))
  have hmem := exec_mem hi h (op_ne_of_mem hload (by decide)) (op_ne_of_mem hload (by decide))
  obtain ⟨hhalted, hexit⟩ := exec_flags hi h (ne_of_op_ne (op_ne_of_mem hload (by decide)))
  exact ⟨exec_calls hi h (op_ne_of_mem hload (by decide)) (op_ne_of_mem hload (by decide)), fun a => by rw [hmem],
    hhalted, hexit, exec_frame hi h⟩

end Sys2Proof.Machine

/-! PROOF. Call, return and halt (R220 to R223). The cycle's `exec_call` and `exec_ret` give the state after each transfer;
here stand FIN, the end of the run at the target, and the return that undoes a call. -/

namespace Sys2Proof.Machine

/-! ### CALL and RET (R220, R221) -/

theorem status_and_calls_of_call_beyond_code {s t : State} {d : Byte} (hc : s.calls.length < 256) (hf : s.fault = none)
    (h : exec (.call (some d)) s = .next t) (hend : s.code.length ≤ d.toNat) :
    t.status = .done s.exitCode ∧ t.calls = (s.pc + 1) :: s.calls := by
  rw [exec_call hc] at h
  cases h
  exact ⟨status_of_length_le_pc hf hend, rfl⟩

theorem status_of_ret_beyond_code {s t : State} {r : Nat} {rest : List Nat} (hc : s.calls = r :: rest)
    (hf : s.fault = none) (h : exec .ret s = .next t) (hend : s.code.length ≤ r + 1) :
    t.status = .done s.exitCode := by
  rw [exec_ret hc] at h
  cases h
  exact status_of_length_le_pc hf hend

/-- Settles O30: the immediate is there and the call stack has room or is full, or the immediate is absent. -/
theorem callPushesItsImmediateAddress : Obligations.CallPushesItsImmediateAddress := fun _ =>
  ⟨fun d hc => exec_call hc d, fun d hfull => call_raises_of_full hfull d,
    raises_of_no_immediate (o := .call) rfl (by simp),
    fun _ _ hc hf h hend => status_and_calls_of_call_beyond_code hc hf h hend,
    fun c _ => encode_of_fixedCode (o := .call) (by decide) rfl c⟩

/-- Settles O31: by the call stack, empty or not. -/
theorem retResumesAfterTheCall : Obligations.RetResumesAfterTheCall := fun _ =>
  ⟨fun _ _ hc => exec_ret hc, fun hc => ret_raises_of_nil hc,
    fun _ _ _ hc hf h hend => status_of_ret_beyond_code hc hf h hend,
    fun c => encode_of_fixedCode (o := .ret) (by decide) rfl c⟩

/-! ### A call and its return (R223) -/

/-- Settles O32: the address CALL leaves on top of the call stack is the one RET pops, whatever else has changed. -/
theorem callThenRetComesBack : Obligations.CallThenRetComesBack := fun _ d hc =>
  ⟨_, exec_call hc d, rfl, fun _ hu => ⟨_, exec_ret hu, rfl, rfl⟩⟩

/-! ### FIN (R222) -/

theorem exec_fin (s : State) :
    exec .fin s = .next { s.completed (s.pc + 1) with halted := true, exitCode := 0 } := by
  have h : operation .fin s.latch = .ok () (s.latch.halt 0) := rfl
  exact exec_of_ok h

/-- Settles O33: FIN has one path only, the halt with exit code 0 and the cycle's advance. -/
theorem finHaltsWithCodeZero : Obligations.FinHaltsWithCodeZero := fun s =>
  ⟨exec_fin s, fun c => encode_of_fixedCode (o := .fin) (by decide) rfl c⟩

end Sys2Proof.Machine

/-! PROOF. The load: the header is checked, the stream is what follows it, and the rest is reset's (R260 to R262). -/

namespace Sys2Proof.Machine

/-- Settles O1: the fields of the state a load leaves; byte 0 of the stream is byte 4 of the image. -/
theorem acceptedLoadLeavesResetState : Obligations.AcceptedLoadLeavesResetState := by
  intro cfg ports image s h
  rw [load_accept h]
  exact ⟨rfl, rfl, rfl, fun _ => rfl, rfl, rfl, rfl, List.getElem?_drop, rfl, rfl, rfl, rfl⟩

/-- Settles O2: the accepted stream is the image without its first four bytes, and no run changes it. -/
theorem acceptedImageIsStrippedAndFixed : Obligations.AcceptedImageIsStrippedAndFixed := by
  intro cfg ports image h
  refine ⟨_, if_pos h, List.length_drop, fun i _ => ?_, fun l t hrun => ?_⟩
  · rw [Nat.add_comm]
    exact List.getElem?_drop
  · exact (codeAndParametersAreReadOnly _ l t hrun).1

/-- Settles O3: an image with fewer than four bytes has no four bytes of header. -/
theorem badImageIsAFormatError : Obligations.BadImageIsAFormatError := by
  intro cfg ports image hbad
  refine if_neg fun hheader => ?_
  obtain hshort | hother := hbad
  · have hlen : (image.take 4).length = 4 := congrArg List.length hheader
    rw [List.length_take] at hlen
    omega
  · exact hother hheader

end Sys2Proof.Machine

/-! PROOF. The fault order (R235): what a part of an instruction raises is the first row of a table that applies, row by
row in the order of its primitives; so each instruction raises by its own table. -/

namespace Sys2Proof.Machine

/-- The fault a part of an instruction raises, with what it carries. -/
def Result.raisedFault {α : Type} : Result α → Option (FaultKind × Option Byte)
  | .ok _ _ => none
  | .raised k info _ => some (k, info)
  | .waits => none

/-! ### The rows of a table -/

theorem firstFault_cons_of_applies {r : FaultRow} (h : r.applies = true) (rows : List FaultRow) :
    firstFault (r :: rows) = some (r.kind, r.info) := if_pos h

theorem firstFault_cons_of_not_applies {r : FaultRow} (h : r.applies = false) (rows : List FaultRow) :
    firstFault (r :: rows) = firstFault rows := by
  rw [firstFault, h, if_neg Bool.false_ne_true]

/-! ### Each primitive goes by its row -/

section
variable {β : Type} {s : State} {rows : List FaultRow}

theorem push_raisedFault_of_lt (h : s.stack.length < 256) (v : Byte) : (push v s).raisedFault = none := by
  rw [push_of_lt h]
  rfl

theorem push_raisedFault (v : Byte) (s : State) : (push v s).raisedFault = firstFault [.overflow s] := by
  by_cases h : s.stack.length < 256
  · rw [push_raisedFault_of_lt h, firstFault_cons_of_not_applies (by simpa [FaultRow.overflow] using h)]
    rfl
  · have hfull := Nat.le_of_not_lt h
    rw [push_of_ge hfull, firstFault_cons_of_applies (by simpa [FaultRow.overflow] using hfull)]
    rfl

theorem pop_bind_raisedFault {f : Byte → State → Result β}
    (hf : ∀ v rest, s.stack = v :: rest → (f v (s.setStack rest)).raisedFault = firstFault rows) :
    ((pop s).bind f).raisedFault = firstFault (.underflow 1 s :: rows) := by
  rcases hs : s.stack with _ | ⟨v, rest⟩
  · rw [pop_bind_of_nil hs, firstFault_cons_of_applies (by simp [FaultRow.underflow, hs])]
    rfl
  · rw [pop_bind_of_cons hs, hf v rest hs, firstFault_cons_of_not_applies (by simp [FaultRow.underflow, hs])]

/-- Two pops share one row: each raises the same where it fails. -/
theorem pop_pop_bind_raisedFault {f : Byte → Byte → State → Result β}
    (hf : ∀ b a rest, s.stack = b :: a :: rest → (f b a (s.setStack rest)).raisedFault = firstFault rows) :
    ((pop s).bind fun b u => (pop u).bind (f b)).raisedFault = firstFault (.underflow 2 s :: rows) := by
  by_cases hlen : s.stack.length < 2
  · obtain ⟨u, hu⟩ := pop_pop_of_lt_two hlen f
    rw [hu, firstFault_cons_of_applies (by simpa [FaultRow.underflow] using hlen)]
    rfl
  · obtain ⟨b, a, rest, hs⟩ : ∃ b a rest, s.stack = b :: a :: rest := by
      match hs : s.stack with
      | [] | [_] => simp [hs] at hlen
      | b :: a :: rest => exact ⟨b, a, rest, rfl⟩
    rw [pop_bind_of_cons hs, pop_bind_of_cons (State.setStack_stack _ _),
      firstFault_cons_of_not_applies (by simpa [FaultRow.underflow] using hlen)]
    exact hf b a rest hs

theorem imm_bind_raisedFault {v : Option Byte} {f : Byte → State → Result β}
    (hf : ∀ b, v = some b → (f b (s.setPc (s.pc + 1))).raisedFault = firstFault rows) :
    ((imm v s).bind f).raisedFault = firstFault (.exhausted v :: rows) := by
  cases v with
  | none => rfl
  | some b => exact hf b rfl

theorem memRead_bind_raisedFault {a : Byte} {f : Byte → State → Result β}
    (hf : ∀ v, (f v s).raisedFault = firstFault rows) :
    ((memRead a s).bind f).raisedFault = firstFault (.uninitialized (some a) s :: rows) := by
  cases hv : s.mem.read a.toNat with
  | none =>
    rw [memRead_none hv, firstFault_cons_of_applies (by simp [FaultRow.uninitialized, hv])]
    rfl
  | some v =>
    rw [memRead_some hv, firstFault_cons_of_not_applies (by simp [FaultRow.uninitialized, hv])]
    exact hf v

theorem cpush_bind_raisedFault {r : Nat} {f : Unit → State → Result β}
    (hf : ∀ u, (f () u).raisedFault = firstFault rows) :
    ((cpush r s).bind f).raisedFault =
      firstFault (⟨s.calls.length ≥ 256, .callStackOverflow, none⟩ :: rows) := by
  by_cases h : s.calls.length < 256
  · rw [cpush_of_lt h, firstFault_cons_of_not_applies (by simpa using h)]
    exact hf _
  · have hfull := Nat.le_of_not_lt h
    rw [cpush_of_ge hfull, firstFault_cons_of_applies (by simpa using hfull)]
    rfl

theorem cpop_bind_raisedFault {f : Nat → State → Result β}
    (hf : ∀ r u, (f r u).raisedFault = firstFault rows) :
    ((cpop s).bind f).raisedFault = firstFault (⟨s.calls.isEmpty, .callStackUnderflow, none⟩ :: rows) := by
  rcases hc : s.calls with _ | ⟨r, rest⟩
  · rw [cpop_nil hc]
    rfl
  · rw [cpop_cons hc]
    exact hf r _

/-! ### The operand forms -/

/-- A result that has room to be pushed adds no fault to those of its function. -/
theorem Result.Reads.bind_push_raisedFault {x : Result Byte} (hx : x.Reads s) (hroom : s.stack.length < 256) :
    (x.bind push).raisedFault = x.raisedFault := by
  match x, hx with
  | .ok v _, rfl => exact push_raisedFault_of_lt hroom v
  | .raised _ _ _, _ => rfl
  | .waits, _ => rfl

/-- R25's bound leaves room for the result, so the two-operand form raises as its pops and its function do. -/
theorem binary_raisedFault {g : Byte → Byte → State → Result Byte} (hreads : ∀ a b u, (g a b u).Reads u)
    (hlen : s.stack.length ≤ 256)
    (hg : ∀ b a rest, s.stack = b :: a :: rest → (g a b (s.setStack rest)).raisedFault = firstFault rows) :
    (binary g s).raisedFault = firstFault (.underflow 2 s :: rows) := by
  refine pop_pop_bind_raisedFault fun b a rest hs => ?_
  have hroom : (s.setStack rest).stack.length < 256 := room_of_operand (top := [a]) hs hlen
  exact ((hreads a b _).bind_push_raisedFault hroom).trans (hg b a rest hs)

theorem binaryImm_raisedFault {g : Byte → Byte → State → Result Byte} {v : Option Byte}
    (hreads : ∀ a b u, (g a b u).Reads u) (hlen : s.stack.length ≤ 256)
    (hg : ∀ b a u, v = some b → u.cfg = s.cfg → (g a b u).raisedFault = firstFault rows) :
    (binaryImm g v s).raisedFault = firstFault (.exhausted v :: .underflow 1 s :: rows) := by
  refine imm_bind_raisedFault fun b hv => pop_bind_raisedFault fun a rest hs => ?_
  have hroom : ((s.setPc (s.pc + 1)).setStack rest).stack.length < 256 := room_of_operand (top := []) hs hlen
  exact ((hreads a b _).bind_push_raisedFault hroom).trans (hg b a _ hv rfl)

theorem divSat_raisedFault (a b : Byte) (s : State) :
    (divSat a b s).raisedFault = firstFault [.zeroDivisor (some b)] := by
  by_cases hb : b = 0
  · rw [divSat, if_pos hb, firstFault_cons_of_applies (by simp [FaultRow.zeroDivisor, hb])]
    rfl
  · rw [divSat, if_neg hb, firstFault_cons_of_not_applies (by simpa [FaultRow.zeroDivisor] using hb)]
    rfl

theorem modTrunc_raisedFault (a b : Byte) {s u : State} (hcfg : u.cfg = s.cfg) :
    (modTrunc a b u).raisedFault = firstFault [.zeroModulus (some b) s] := by
  by_cases hb : b = 0
  · subst hb
    cases hp : s.cfg.modZero with
    | fault =>
      rw [modTrunc_zero_of_fault (hcfg ▸ hp), firstFault_cons_of_applies (by simp [FaultRow.zeroModulus, hp])]
      rfl
    | result =>
      rw [modTrunc_zero_of_result (hcfg ▸ hp), firstFault_cons_of_not_applies (by simp [FaultRow.zeroModulus, hp])]
      rfl
  · rw [modTrunc, if_neg hb,
      firstFault_cons_of_not_applies (by simp [FaultRow.zeroModulus, show b ≠ 0#8 from hb])]
    rfl

/-! ### DUP and SWAP -/

/-- The pop of DUP makes room for one copy, so the second fits where the stack was not full. -/
theorem opDup_raisedFault (s : State) : (opDup s).raisedFault = firstFault [.underflow 1 s, .overflow s] := by
  refine pop_bind_raisedFault fun a rest hs => ?_
  by_cases h : s.stack.length < 256
  · rw [push_push_of_lt (by simpa [hs] using h), firstFault_cons_of_not_applies (by simpa [FaultRow.overflow] using h)]
    rfl
  · have hfull := Nat.le_of_not_lt h
    obtain ⟨u, hu⟩ := push_push_of_ge (s := s.setStack rest) (by simpa [hs] using hfull) a a
    rw [hu, firstFault_cons_of_applies (by simpa [FaultRow.overflow] using hfull)]
    rfl

theorem opSwap_raisedFault (hlen : s.stack.length ≤ 256) : (opSwap s).raisedFault = firstFault [.underflow 2 s] := by
  refine pop_pop_bind_raisedFault fun a b rest hs => ?_
  have hroom : (s.setStack rest).stack.length + 1 < 256 := by
    rw [hs] at hlen
    exact Nat.lt_of_succ_le hlen
  rw [push_push_of_lt hroom]
  rfl

/-! ### SYSCALL -/

/-- With its operands a selector below 4 faults only at its port. -/
theorem firstFault_syscall_of_operands {sel : Byte} {rest : List Byte} (hs : s.stack = sel :: rest)
    (hsel : sel.toNat < 4) (harg : sel = 1 ∨ sel = 3 → rest ≠ []) :
    firstFault (faultTable .syscall s) = if portFails sel s then some (.syscallIo, none) else none := by
  have hone : (FaultRow.underflow 1 s).applies = false := by simp [FaultRow.underflow, hs]
  rw [faultTable, firstFault_cons_of_not_applies hone, firstFault_cons_of_not_applies (by simpa [hs] using hsel),
    firstFault_cons_of_not_applies (by simpa [hs, Nat.lt_succ_iff, or_imp] using harg)]
  simp [firstFault, hs]

theorem firstFault_syscall_no_argument {sel : Byte} (hs : s.stack = [sel]) (hsel : sel = 1 ∨ sel = 3) :
    firstFault (faultTable .syscall s) = some (.stackUnderflow, none) := by
  rcases hsel with rfl | rfl <;> simp [faultTable, firstFault, FaultRow.underflow, hs]

theorem checkPort_raisedFault (r : PortAnswer) (s : State) :
    (checkPort r s).raisedFault = if r = .ioError then some (.syscallIo, none) else none := by
  cases r <;> rfl

/-- The byte read takes the selector's place, so only the port can fail. -/
theorem sysRead_raisedFault (hroom : s.stack.length < 256) :
    (sysRead s).raisedFault = if s.inputs.head? = some .ioError then some (.syscallIo, none) else none := by
  rcases hin : s.inputs with _ | ⟨a, more⟩
  · simp [sysRead, portIn, hin, Result.raisedFault]
  · rw [sysRead, portIn_cons hin, Result.bind_ok]
    cases a with
    | byte b => exact push_raisedFault_of_lt (s := s.recordInput _) hroom b
    | eof => exact push_raisedFault_of_lt (s := s.recordInput _) hroom 0
    | ioError => rfl

theorem opSyscall_raisedFault (hlen : s.stack.length ≤ 256) :
    (opSyscall s).raisedFault = firstFault (faultTable .syscall s) := by
  rcases hs : s.stack with _ | ⟨sel, rest⟩
  · rw [opSyscall_nil hs, faultTable, firstFault_cons_of_applies (by simp [FaultRow.underflow, hs])]
    rfl
  · rw [opSyscall_cons hs]
    have hroom : rest.length < 256 := room_of_operand (top := []) hs hlen
    rcases selector_cases sel with rfl | rfl | rfl | rfl | ⟨h4, n0, n1, n2, n3⟩
    · rw [firstFault_syscall_of_operands hs (by decide) (by simp)]
      simpa [portFails] using sysRead_raisedFault (s := s.setStack rest) hroom
    · cases rest with
      | nil =>
        rw [firstFault_syscall_no_argument hs (.inl rfl)]
        rfl
      | cons b rest =>
        rw [firstFault_syscall_of_operands hs (by decide) (by simp)]
        exact (checkPort_raisedFault s.outAnswer _).trans (by simp [portFails])
    · rw [firstFault_syscall_of_operands hs (by decide) (by simp)]
      exact (checkPort_raisedFault s.dumpAnswer _).trans (by simp [portFails])
    · cases rest with
      | nil =>
        rw [firstFault_syscall_no_argument hs (.inr rfl)]
        rfl
      | cons b rest =>
        rw [firstFault_syscall_of_operands hs (by decide) (by simp)]
        rfl
    · rw [faultTable, firstFault_cons_of_not_applies (by simp [FaultRow.underflow, hs]),
        firstFault_cons_of_applies (by simpa [hs] using h4), if_neg n0, if_neg n1, if_neg n2, if_neg n3, hs]
      rfl

/-! ### Every instruction -/

theorem operation_raisedFault (i : Instr) (hlen : s.stack.length ≤ 256) :
    (operation i s).raisedFault = firstFault (faultTable i s) := by
  cases i with
  | syscall => exact opSyscall_raisedFault hlen
  | push v => exact imm_bind_raisedFault fun b _ => push_raisedFault b _
  | pop => exact pop_bind_raisedFault fun _ _ _ => rfl
  | dup => exact opDup_raisedFault s
  | swap => exact opSwap_raisedFault hlen
  | add | sub | mul | eq | neq | lt | le | gt | ge =>
    exact binary_raisedFault (fun _ _ _ => rfl) hlen fun _ _ _ _ => rfl
  | div =>
    refine binary_raisedFault divSat_reads hlen fun b a rest hs => ?_
    rw [hs]
    exact divSat_raisedFault a b _
  | mod =>
    refine binary_raisedFault modTrunc_reads hlen fun b a rest hs => ?_
    rw [hs]
    exact modTrunc_raisedFault a b rfl
  | addi v | subi v | muli v => exact binaryImm_raisedFault (fun _ _ _ => rfl) hlen fun _ _ _ _ _ => rfl
  | divi v =>
    refine binaryImm_raisedFault divSat_reads hlen fun b a u hv _ => ?_
    rw [hv]
    exact divSat_raisedFault a b u
  | modi v =>
    refine binaryImm_raisedFault modTrunc_reads hlen fun b a u hv hcfg => ?_
    rw [hv]
    exact modTrunc_raisedFault a b hcfg
  | jz t =>
    refine pop_bind_raisedFault fun flag rest _ => imm_bind_raisedFault fun d _ => ?_
    split <;> rfl
  | jmz t => exact imm_bind_raisedFault fun _ _ => rfl
  | store => exact pop_pop_bind_raisedFault fun _ _ _ _ => rfl
  | load =>
    refine pop_bind_raisedFault fun a rest hs => ?_
    rw [hs]
    exact memRead_bind_raisedFault fun v => push_raisedFault_of_lt (room_of_operand (top := []) hs hlen) v
  | storei a => exact pop_bind_raisedFault fun _ _ _ => imm_bind_raisedFault fun _ _ => rfl
  | loadi a =>
    refine imm_bind_raisedFault fun d hd => ?_
    rw [hd]
    exact memRead_bind_raisedFault fun v => push_raisedFault v _
  | call t => exact imm_bind_raisedFault fun _ _ => cpush_bind_raisedFault fun _ => rfl
  | ret => exact cpop_bind_raisedFault fun _ _ => rfl
  | fin => rfl

end

/-! ### What the fault register holds after the cycle -/

section
variable {β : Type} {f : State → β}

theorem checkPort_fixes {s u : State} (hu : f u = f s) (r : PortAnswer) : (checkPort r u).Fixes f s := by
  cases r <;> exact hu

theorem sysRead_fixes (hstack : ∀ l s, f (State.setStack l s) = f s)
    (hin : ∀ a s, f (State.recordInput a s) = f s) (s : State) : (sysRead s).Fixes f s := by
  have hport : (portIn s).Fixes f s := by
    unfold portIn; split
    · trivial
    · exact hin _ s
  refine hport.bind fun a u => ?_
  cases a with
  | byte b => exact push_fixes hstack b u
  | eof => exact push_fixes hstack 0 u
  | ioError => exact rfl

/-- A part of the state that the operand stack, the flags and the ports do not touch is fixed by SYSCALL. -/
theorem opSyscall_fixes (hstack : ∀ l s, f (State.setStack l s) = f s) (hflags : ∀ b s, f (State.halt b s) = f s)
    (hin : ∀ a s, f (State.recordInput a s) = f s) (hout : ∀ b s, f (State.recordOutput b s) = f s)
    (hdump : ∀ s, f (State.recordDump s) = f s) (s : State) : (opSyscall s).Fixes f s := by
  refine (pop_fixes hstack s).bind fun sel u => ?_
  dsimp only
  split
  · unfold sysRule
    split
    · exact sysRead_fixes hstack hin u
    · exact (pop_fixes hstack u).bind fun b w => checkPort_fixes (hout b w) w.outAnswer
    · exact checkPort_fixes (hdump u) u.dumpAnswer
    · exact (pop_fixes hstack u).bind fun b w => hflags b w
  · exact rfl

end

/-- What the cycle writes a fault's record from, besides the state's `pc`, and the register it writes it to. -/
def State.faultContext (s : State) : Option FaultRecord × Nat × Config := (s.fault, s.ipc, s.cfg)

theorem operation_fixes_faultContext (i : Instr) (s : State) : (operation i s).Fixes State.faultContext s := by
  by_cases hi : i = .syscall
  · subst hi
    exact opSyscall_fixes (fun _ _ => rfl) (fun _ _ => rfl) (fun _ _ => rfl) (fun _ _ => rfl) (fun _ => rfl) s
  · exact operation_fixes i hi (fun _ _ => rfl) (fun _ _ => rfl) (fun _ _ => rfl) (fun _ _ _ => rfl)
      (fun _ _ _ _ => rfl) (fun _ _ _ => rfl) s

/-- A cycle begun without a fault registers what its operation raises. -/
theorem finish_fault {s : State} {x : Result Unit} (hs : s.fault = none) (hx : x.Fixes State.faultContext s.latch) :
    ((finish s x).fault.map fun r => (r.kind, r.info)) = x.raisedFault := by
  match x, hx with
  | .ok _ u, hx =>
    obtain ⟨hfault, -⟩ := Prod.mk.inj hx
    rw [finish_ok, State.advance_fault, hfault.trans hs]
    rfl
  | .raised _ _ _, _ => rfl
  | .waits, _ =>
    rw [finish_waits, State.awaitInput_fault, hs]
    rfl

theorem faultTable_latch (i : Instr) (s : State) : faultTable i s.latch = faultTable i s := by
  cases i <;> rfl

theorem exec_fault {i : Instr} {s t : State} (hlen : s.stack.length ≤ 256) (hs : s.fault = none)
    (h : exec i s = .next t) :
    (t.fault.map fun r => (r.kind, r.info)) = firstFault (faultTable i s) := by
  rw [exec_next_iff] at h
  rw [h, finish_fault hs (operation_fixes_faultContext i s.latch), operation_raisedFault i (s := s.latch) hlen,
    faultTable_latch]

/-- Settles O41: an instruction's operation raises by its table, row by row, and the cycle registers what it raises. -/
theorem firstApplicableFaultIsRaised : Obligations.FirstApplicableFaultIsRaised := by
  refine ⟨fun i s t hlen hs h => exec_fault hlen hs h, fun s b rest t hb ho h => ?_⟩
  rw [step_of_invalid (step_cases h).1 hb ho] at h
  cases h
  rfl

end Sys2Proof.Machine

/-! PROOF. What a fault leaves (R236, D7) and the `pc` it reports (R233, R234). -/

namespace Sys2Proof.Machine

/-! ### The state after a fault -/

/-- R146: a fault that is no port's comes before SYSCALL's transaction, or from an instruction that performs none: with
R25's bound, what SYSCALL may still raise after a transaction is the port's IoError alone. -/
theorem exec_syscall_ports_of_inner_fault {s t : State} {r : FaultRecord} (hlen : s.stack.length ≤ 256)
    (hs : s.fault = none) (h : exec .syscall s = .next t) (hr : t.fault = some r) (hk : r.kind ≠ .syscallIo) :
    t.inputs = s.inputs ∧ t.outAnswers = s.outAnswers ∧ t.dumpAnswers = s.dumpAnswers ∧ t.trace = s.trace := by
  have hfirst := exec_fault hlen hs h
  have hport {sel : Byte} {rest : List Byte} (hst : s.stack = sel :: rest) (hsel : sel.toNat < 4)
      (harg : sel = 1 ∨ sel = 3 → rest ≠ []) : r.kind = .syscallIo := by
    rw [hr, firstFault_syscall_of_operands hst hsel harg] at hfirst
    split at hfirst
    · exact congrArg Prod.fst (Option.some.inj hfirst)
    · cases hfirst
  cases exec_syscall_transaction h with
  | none _ htrace hin hout hdump => exact ⟨hin, hout, hdump, htrace⟩
  | input hst => exact absurd (hport hst (by decide) (by simp)) hk
  | output hst => exact absurd (hport hst (by decide) (by simp)) hk
  | dump hst => exact absurd (hport hst (by decide) (by simp)) hk

/-- The next state is `s` but for the fault register, the latches, and the ports and their record. -/
def FaultedFrom (s t : State) (r : FaultRecord) : Prop :=
  t = { s with
    ipc := s.pc, redirect := false, waiting := false, fault := some r
    inputs := t.inputs, outAnswers := t.outAnswers, dumpAnswers := t.dumpAnswers, trace := t.trace }

theorem exec_faultedFrom {i : Instr} {s t : State} {r : FaultRecord} (hs : s.fault = none) (h : exec i s = .next t)
    (hr : t.fault = some r) : FaultedFrom s t r := by
  have hcompleted : s.fault ≠ some r := by simp [hs]
  by_cases hi : i = .syscall
  · subst hi
    cases exec_syscall_end h with
    | waits => exact absurd hr hcompleted
    | completes _ _ _ _ e => rw [e] at hr; exact absurd hr hcompleted
    | faults _ e =>
      rw [e] at hr
      cases hr
      exact e
  · obtain ⟨u, he, rfl⟩ | ⟨_, _, _, -, -, rfl⟩ := exec_ends hi h
    · obtain ⟨-, hfault, -⟩ := he.keeps
      exact absurd (hfault.symm.trans hr) hcompleted
    · cases hr
      rfl

theorem status_of_fault {s : State} {r : FaultRecord} (h : s.fault = some r) : s.status = .faulted r := by
  simp only [State.status, h]

/-- Settles O42: by the instruction, SYSCALL or another, and the fetch of an unmapped byte. -/
theorem faultEntryRestoresTheState : Obligations.FaultEntryRestoresTheState := by
  intro s t r hlen h hr
  have hs := fault_none_of_step h
  obtain ⟨-, ⟨i, rest, -, hex⟩ | ⟨b, rest, -, -, rfl⟩⟩ := step_cases h
  · refine ⟨exec_faultedFrom hs hex hr, fun hk => ?_, status_of_fault hr⟩
    by_cases hi : i = .syscall
    · subst hi
      exact exec_syscall_ports_of_inner_fault hlen hs hex hr hk
    · obtain ⟨-, -, -, ⟨-, -, hports⟩, -⟩ := exec_frame hi hex
      exact hports
  · rw [raiseInvalidOpcode_eq] at hr ⊢
    cases hr
    exact ⟨rfl, fun _ => ⟨rfl, rfl, rfl, rfl⟩, rfl⟩

/-! ### Where an operation raises -/

/-- What `x` raises, it raises with `pc` at `p`, which may depend on the kind. -/
def Result.RaisesAt {α : Type} (p : FaultKind → Nat) : Result α → Prop
  | .ok _ _ => True
  | .raised k _ u => u.pc = p k
  | .waits => True

section
variable {α β : Type} {s : State}

theorem Result.Fixes.raisesAt {x : Result α} (hx : x.Fixes State.pc s) : x.RaisesAt fun _ => s.pc := by
  match x, hx with
  | .ok _ _, _ => trivial
  | .raised _ _ _, hx => exact hx
  | .waits, _ => trivial

/-- What follows `imm()` and leaves `pc` alone raises one behind the opcode, as `imm()` itself does. -/
theorem imm_bind_raisesAt {f : Byte → State → Result β} (v : Option Byte)
    (hf : ∀ a u, (f a u).RaisesAt fun _ => u.pc) :
    ((imm v s).bind f).RaisesAt fun _ => s.pc + 1 := by
  cases v with
  | none => rfl
  | some d => exact hf d _

theorem binaryImm_raisesAt {g : Byte → Byte → State → Result Byte} (hg : ∀ a b s, (g a b s).Fixes State.pc s)
    (v : Option Byte) (s : State) : (binaryImm g v s).RaisesAt fun _ => s.pc + 1 :=
  imm_bind_raisesAt v fun _ u => Result.Fixes.raisesAt ((pop_fixes_pc u).bind fun _ u =>
    (hg _ _ u).bind fun _ u => push_fixes_pc _ u)

/-- JZ and STOREI pop before they read the immediate. -/
theorem pop_imm_bind_raisesAt {f : Byte → Byte → State → Result β} (v : Option Byte)
    (hf : ∀ a d u q, (f a d u).RaisesAt q) :
    ((pop s).bind fun a u => (imm v u).bind (f a)).RaisesAt fun k =>
      if k = .stackUnderflow then s.pc else s.pc + 1 := by
  rcases hs : s.stack with _ | ⟨a, rest⟩
  · rw [pop_bind_of_nil hs]
    rfl
  · rw [pop_bind_of_cons hs]
    cases v with
    | none => rfl
    | some d => exact hf a d _ _

end

/-- The `pc` at which an operation begun at `pc` raises: behind `imm()`, or where it began (R233). -/
def raisePc (o : Op) (pc : Nat) (k : FaultKind) : Nat :=
  if o.isImm = true ∧ ¬(k = .stackUnderflow ∧ (o = .jz ∨ o = .storei)) then pc + 1 else pc

/-- Format `OP` reads no immediate; RET alone writes `pc`, and then it does not raise. -/
theorem operation_raisesAt_opcode {i : Instr} (hm : i.op.isImm = false) (s : State) :
    (operation i s).RaisesAt fun _ => s.pc := by
  cases i with
  | syscall =>
    exact Result.Fixes.raisesAt
      (opSyscall_fixes (fun _ _ => rfl) (fun _ _ => rfl) (fun _ _ => rfl) (fun _ _ => rfl) (fun _ => rfl) s)
  | pop => exact Result.Fixes.raisesAt ((pop_fixes_pc s).bind fun _ _ => rfl)
  | dup =>
    exact Result.Fixes.raisesAt ((pop_fixes_pc s).bind fun _ u =>
      (push_fixes_pc _ u).bind fun _ u => push_fixes_pc _ u)
  | swap =>
    exact Result.Fixes.raisesAt ((pop_fixes_pc s).bind fun _ u => (pop_fixes_pc u).bind fun _ u =>
      (push_fixes_pc _ u).bind fun _ u => push_fixes_pc _ u)
  | add | sub | mul | eq | neq | lt | le | gt | ge =>
    refine Result.Fixes.raisesAt (binary_fixes (fun _ _ => rfl) ?_ s)
    exact fun _ _ _ => rfl
  | div => exact (binary_fixes (fun _ _ => rfl) divSat_fixes s).raisesAt
  | mod => exact (binary_fixes (fun _ _ => rfl) modTrunc_fixes s).raisesAt
  | store => exact Result.Fixes.raisesAt ((pop_fixes_pc s).bind fun _ u => (pop_fixes_pc u).bind fun _ _ => rfl)
  | load =>
    exact Result.Fixes.raisesAt ((pop_fixes_pc s).bind fun _ u =>
      (memRead_fixes _ u).bind fun _ u => push_fixes_pc _ u)
  | ret =>
    rcases hc : s.calls with _ | ⟨r, rest⟩
    · rw [operation, opRet, cpop_nil hc]
      rfl
    · rw [operation, opRet, cpop_cons hc]
      trivial
  | fin => trivial
  | push | addi | subi | muli | divi | modi | jz | jmz | storei | loadi | call => cases hm

/-- Format `OP_IMM` but for JZ and STOREI begins with `imm()`. -/
theorem operation_raisesAt_immediate {i : Instr} (hm : i.op.isImm = true) (hjz : i.op ≠ .jz) (hst : i.op ≠ .storei)
    (s : State) : (operation i s).RaisesAt fun _ => s.pc + 1 := by
  cases i with
  | push v => exact imm_bind_raisesAt v fun _ u => (push_fixes_pc _ u).raisesAt
  | addi v | subi v | muli v =>
    refine binaryImm_raisesAt ?_ v s
    exact fun _ _ _ => rfl
  | divi v => exact binaryImm_raisesAt divSat_fixes v s
  | modi v => exact binaryImm_raisesAt modTrunc_fixes v s
  | jmz t => exact imm_bind_raisesAt t fun _ _ => trivial
  | loadi a =>
    exact imm_bind_raisesAt a fun _ u => Result.Fixes.raisesAt ((memRead_fixes _ u).bind fun _ u => push_fixes_pc _ u)
  | call t =>
    refine imm_bind_raisesAt t fun _ u => ?_
    by_cases hc : u.calls.length < 256
    · rw [cpush_of_lt hc]
      trivial
    · rw [cpush_of_ge (Nat.le_of_not_lt hc)]
      rfl
  | jz => exact absurd rfl hjz
  | storei => exact absurd rfl hst
  | syscall | pop | dup | swap | add | sub | mul | div | mod | eq | neq | lt | le | gt | ge | store | load | ret
  | fin => cases hm

theorem operation_raisesAt (i : Instr) (s : State) : (operation i s).RaisesAt (raisePc i.op s.pc) := by
  cases hm : i.op.isImm with
  | false =>
    have hp : raisePc i.op s.pc = fun _ => s.pc := by funext k; simp [raisePc, hm]
    rw [hp]
    exact operation_raisesAt_opcode hm s
  | true =>
    by_cases hpop : i.op = .jz ∨ i.op = .storei
    · have hp : raisePc i.op s.pc = fun k => if k = .stackUnderflow then s.pc else s.pc + 1 := by
        funext k; simp [raisePc, hm, hpop]
      rw [hp]
      cases i with
      | jz t =>
        refine pop_imm_bind_raisesAt t fun flag d u q => ?_
        split <;> trivial
      | storei a => exact pop_imm_bind_raisesAt a fun _ _ _ _ => trivial
      | _ => simp [Instr.op] at hpop
    · have hp : raisePc i.op s.pc = fun _ => s.pc + 1 := by funext k; simp [raisePc, hm, hpop]
      rw [hp]
      obtain ⟨hjz, hst⟩ := not_or.1 hpop
      exact operation_raisesAt_immediate hm hjz hst s

/-! ### The reported `pc` -/

theorem finish_faultPc {s : State} {x : Result Unit} {p : FaultKind → Nat} {r : FaultRecord} (hs : s.fault = none)
    (hx : x.Fixes State.faultContext s.latch) (hp : x.RaisesAt p) (hr : (finish s x).fault = some r) :
    r.pc = faultPc s.cfg.faultPcMode s.pc (p r.kind) := by
  match x, hx, hp with
  | .ok _ u, hx, _ =>
    obtain ⟨hfault, -⟩ := Prod.mk.inj hx
    exact absurd (hr.symm.trans (hfault.trans hs)) (by simp)
  | .raised k info u, hx, hp =>
    obtain ⟨-, hrest⟩ := Prod.mk.inj hx
    obtain ⟨hipc, hcfg⟩ := Prod.mk.inj hrest
    cases hr
    rw [hcfg, hipc, show u.pc = p k from hp]
    rfl
  | .waits, _, _ => exact absurd (hr.symm.trans hs) (by simp)

theorem exec_faultPc {i : Instr} {s t : State} {r : FaultRecord} (hs : s.fault = none) (h : exec i s = .next t)
    (hr : t.fault = some r) : r.pc = faultPc s.cfg.faultPcMode s.pc (raisePc i.op s.pc r.kind) := by
  rw [exec_next_iff] at h
  exact finish_faultPc hs (operation_fixes_faultContext i s.latch) (operation_raisesAt i s.latch) (h ▸ hr)

/-- Settles O43: by what the fetch decodes; a decoded instruction raises at the opcode or behind its immediate. -/
theorem reportedPcFollowsTheMode : Obligations.ReportedPcFollowsTheMode := by
  intro s t r h hr
  obtain ⟨-, ⟨i, rest, hd, hex⟩ | ⟨b, rest, hb, ho, rfl⟩⟩ := step_cases h
  · refine ⟨fun b he => ?_, fun i' rest' hd' => ?_⟩
    · rw [hd] at he
      cases he
    · rw [hd] at hd'
      cases hd'
      rw [exec_faultPc (fault_none_of_step h) hex hr]
      cases s.cfg.faultPcMode <;> rfl
  · rw [raiseInvalidOpcode_eq] at hr
    cases hr
    refine ⟨fun _ _ => rfl, fun i rest' hd => ?_⟩
    simp [hb, decode_cons, ho] at hd

end Sys2Proof.Machine
